-- ==== Sys2Proof/Word.lean ====
section
/-! DEFINITION. The word types of the block: a 32-bit command or control register word, an 8-bit character, a
symbol, a code, and the value NIL (00_scope.md R8, R9, R10, R11). -/

namespace Sys2Proof

/-- A command word or a control register: 32 bits, bit 31 the most significant (R8). -/
abbrev Word := BitVec 32

/-- One character, 0 to 255; also one element of a buffer space (R9, R70). -/
abbrev Byte := BitVec 8

/-- A symbol: a sequence of characters, element 0 the one that came first in the text (R10). -/
abbrev Symbol := List Byte

/-- A code: a sequence of bits, element 0 nearest the root; `true` is the bit 1 (R11). -/
abbrev Code := List Bool

/-- The value `NIL`, "no node" (R8). -/
def NIL : Word := 0xFFFFFFFF#32

end Sys2Proof
end

