-- ==== Sys2Proof/Syntax.lean ====
section
/-! DEFINITION. The 24 commands of the opcode map (30_encoding.md R104), one constructor per row of
spec/opcode_table.json. -/

namespace Sys2Proof

/-- A command. An operand `imm` is the index of format I (R102, R103): an unsigned number used as an entry rank, a node
index, a position in pop order or a position in the sorted list. -/
inductive Instr where
  /-- NOP (R131) -/
  | nop
  /-- CLEAR (R132) -/
  | clear
  /-- FCOUNT (R141) -/
  | fcount
  /-- SEGLEN (R145) -/
  | seglen
  /-- SEGMENT (R150) -/
  | segment
  /-- FT_GET imm (R152) -/
  | ftGet (imm : Nat)
  /-- HINIT (R161) -/
  | hinit
  /-- HSTEP (R163) -/
  | hstep
  /-- HBUILD (R164) -/
  | hbuild
  /-- HCODES (R170) -/
  | hcodes
  /-- ND_GET imm (R175) -/
  | ndGet (imm : Nat)
  /-- PQ_GET imm (R176) -/
  | pqGet (imm : Nat)
  /-- SFSORT (R191) -/
  | sfsort
  /-- SFPART (R192) -/
  | sfpart
  /-- SFBUILD (R200) -/
  | sfbuild
  /-- SL_GET imm (R201) -/
  | slGet (imm : Nat)
  /-- CT_CLEAR (R211) -/
  | ctClear
  /-- CT_ADD (R212) -/
  | ctAdd
  /-- CT_GET imm (R215) -/
  | ctGet (imm : Nat)
  /-- CT_FWD (R217) -/
  | ctFwd
  /-- CT_REV (R219) -/
  | ctRev
  /-- ENCODE (R224) -/
  | encode
  /-- TDECODE (R241) -/
  | tdecode
  /-- RDECODE (R245) -/
  | rdecode
  deriving DecidableEq, Repr

end Sys2Proof
end

