-- ==== Sys2Proof/WellFormed.lean ====
section
/-! DEFINITION. Which commands have a command word: the immediate of a format I command fits 24 bits
(30_encoding.md R102, R103). -/

namespace Sys2Proof

/-- The number of values of the 24-bit immediate (R103: 0 to 2^24 − 1). -/
def immBound : Nat := 2 ^ 24

/-- A command is well formed when its immediate, if it has one, is below 2^24. -/
def Instr.wellFormed : Instr → Bool
  | .nop => true
  | .clear => true
  | .fcount => true
  | .seglen => true
  | .segment => true
  | .ftGet imm => imm < immBound
  | .hinit => true
  | .hstep => true
  | .hbuild => true
  | .hcodes => true
  | .ndGet imm => imm < immBound
  | .pqGet imm => imm < immBound
  | .sfsort => true
  | .sfpart => true
  | .sfbuild => true
  | .slGet imm => imm < immBound
  | .ctClear => true
  | .ctAdd => true
  | .ctGet imm => imm < immBound
  | .ctFwd => true
  | .ctRev => true
  | .encode => true
  | .tdecode => true
  | .rdecode => true

end Sys2Proof
end

