-- ==== Sys2Proof/Decode.lean ====
section
/-! DEFINITION. Decoding of command words (30_encoding.md R100 to R106), and after it the encoder, written from the same
opcode map. Decoding is total on all 2^32 words: a word is a command or is illegal, by name. -/

namespace Sys2Proof

/-- Why a word is illegal: the two clauses of rule R105. -/
inductive IllegalWord where
  /-- (a) bits 7:0 are not one of the 24 opcodes of rule R104 -/
  | reservedOpcode
  /-- (b) the opcode is of format N and one of bits 31:8 is 1 -/
  | operandOfFormatN
  deriving DecidableEq, Repr

/-- What a word decodes to. -/
inductive Decoded where
  /-- one of the 24 commands, with its operand -/
  | command (i : Instr)
  /-- not a command -/
  | illegal (why : IllegalWord)
  deriving DecidableEq, Repr

/-- `w[7:0]`, the opcode (R100). -/
def opcodeField (w : Word) : BitVec 8 := w.extractLsb' 0 8

/-- `w[31:8]`: the must-be-zero bits of format N (R101), the immediate of format I (R102). -/
def operandField (w : Word) : BitVec 24 := w.extractLsb' 8 24

/-- A format N opcode: legal only when bits 31:8 are zero (R101, R105 (b)). -/
def formatN (operand : BitVec 24) (i : Instr) : Decoded :=
  if operand = 0#24 then .command i else .illegal .operandOfFormatN

/-- A format I opcode: every value of the immediate decodes (R102); it is zero-extended, not scaled (R103). -/
def formatI (operand : BitVec 24) (mk : Nat → Instr) : Decoded :=
  .command (mk operand.toNat)

/-- The opcode map of rule R104 and the decoder of rule R106. -/
def decode (w : Word) : Decoded :=
  let imm := operandField w
  match (opcodeField w).toNat with
  | 0x00 => formatN imm .nop
  | 0x01 => formatN imm .clear
  | 0x10 => formatN imm .fcount
  | 0x11 => formatN imm .seglen
  | 0x12 => formatN imm .segment
  | 0x13 => formatI imm .ftGet
  | 0x20 => formatN imm .hinit
  | 0x21 => formatN imm .hstep
  | 0x22 => formatN imm .hbuild
  | 0x23 => formatN imm .hcodes
  | 0x24 => formatI imm .ndGet
  | 0x25 => formatI imm .pqGet
  | 0x30 => formatN imm .sfsort
  | 0x31 => formatN imm .sfpart
  | 0x32 => formatN imm .sfbuild
  | 0x33 => formatI imm .slGet
  | 0x40 => formatN imm .ctClear
  | 0x41 => formatN imm .ctAdd
  | 0x42 => formatI imm .ctGet
  | 0x43 => formatN imm .ctFwd
  | 0x44 => formatN imm .ctRev
  | 0x45 => formatN imm .encode
  | 0x50 => formatN imm .tdecode
  | 0x51 => formatN imm .rdecode
  | _ => .illegal .reservedOpcode

/-- The word the host's opcode table numbers as `w`, in `nbits` bits; the bits above `nbits` are zero. -/
def tableWord (nbits w : Nat) : Word := BitVec.ofNat 32 (w % 2 ^ nbits)

/-- The command the decoder reads from an opcode-table word, `none` where the word is illegal. -/
def decodeTableWord (nbits w : Nat) : Option Instr :=
  match decode (tableWord nbits w) with
  | .command i => some i
  | .illegal _ => none

/-! ## The encoder -/

/-- The opcode of a command (R104). -/
def Instr.opcode : Instr → BitVec 8
  | .nop => 0x00#8
  | .clear => 0x01#8
  | .fcount => 0x10#8
  | .seglen => 0x11#8
  | .segment => 0x12#8
  | .ftGet _ => 0x13#8
  | .hinit => 0x20#8
  | .hstep => 0x21#8
  | .hbuild => 0x22#8
  | .hcodes => 0x23#8
  | .ndGet _ => 0x24#8
  | .pqGet _ => 0x25#8
  | .sfsort => 0x30#8
  | .sfpart => 0x31#8
  | .sfbuild => 0x32#8
  | .slGet _ => 0x33#8
  | .ctClear => 0x40#8
  | .ctAdd => 0x41#8
  | .ctGet _ => 0x42#8
  | .ctFwd => 0x43#8
  | .ctRev => 0x44#8
  | .encode => 0x45#8
  | .tdecode => 0x50#8
  | .rdecode => 0x51#8

/-- The bits 31:8 of a command's word: its immediate, or zero in format N. -/
def Instr.operand : Instr → BitVec 24
  | .ftGet imm => BitVec.ofNat 24 imm
  | .ndGet imm => BitVec.ofNat 24 imm
  | .pqGet imm => BitVec.ofNat 24 imm
  | .slGet imm => BitVec.ofNat 24 imm
  | .ctGet imm => BitVec.ofNat 24 imm
  | .nop | .clear | .fcount | .seglen | .segment | .hinit | .hstep | .hbuild | .hcodes
  | .sfsort | .sfpart | .sfbuild | .ctClear | .ctAdd | .ctFwd | .ctRev | .encode
  | .tdecode | .rdecode => 0#24

/-- The word of a command: `opcode | (imm << 8)` (R108), the fields of formats N and I (R101, R102). -/
def encode (i : Instr) : Word := i.operand ++ i.opcode

end Sys2Proof
end

