-- ==== Sys2Proof/Config.lean ====
section
/-! DEFINITION. What an instance fixes (the parameters of 00_scope.md R6, R7), the five buffer spaces' names
(20_memory.md R70), and the one free value: what a buffer element that nothing has written since reset holds
(93_implementation_defined.md U7). -/

namespace Sys2Proof

/-- The five buffer spaces of rule R70. -/
inductive Space where
  /-- the text buffer TXT -/
  | txt
  /-- the bit-string buffer BIT -/
  | bit
  /-- the decoded-text buffer OUT, read only to the host -/
  | out
  /-- the staged symbol K_SYM -/
  | kSym
  /-- the staged code K_CODE -/
  | kCode
  deriving DecidableEq, Repr

/-- The four free capacities of an instance (R6), which the registers CAP_TXT, CAP_BIT, CAP_OUT and CAP_SYM show (R44). -/
structure Capacities where
  /-- TXT_CAP: elements of TXT -/
  txt : Word
  /-- BIT_CAP: elements of BIT -/
  bit : Word
  /-- OUT_CAP: elements of OUT -/
  out : Word
  /-- SYM_CAP: greatest number of entries of FT and of CT -/
  sym : Word
  deriving DecidableEq, Repr

namespace Config

/-- The reference instance: the default column of rule R6. -/
def defaultCapacities : Capacities :=
  { txt := 65536#32, bit := 1048576#32, out := 65536#32, sym := 1024#32 }

/-- LMAX, the greatest symbol length in characters: fixed at 256 (R6, R7). -/
def lmax : Nat := 256

/-- FREE VALUE (log entry 3): the value of the element at index `i` of space `sp` when nothing has written it since the
`n`-th reset. "any value, but stable" (U7). It has no body, so no proof can see which value it is. -/
opaque unwrittenElement (n : Nat) (sp : Space) (i : Nat) : Byte

end Config

end Sys2Proof
end

