-- ==== Sys2Proof/Machine/State.lean ====
section
/-! DEFINITION. The state of the block (10_state.md R22), as plain data, and its reset value (R50). A register that
only counts or sums a structure held here (FT_N, FT_TOTAL, CT_N, NODE_N, PQ_N, the bit SLV) is not stored a second time:
Machine/Flags.lean and Machine/Operands.lean compute it. -/

namespace Sys2Proof.Machine

open Sys2Proof

/-- STATUS.CODE: the ten completion codes of 60_exceptions.md R260 (values 10 to 15 are never produced). -/
inductive Completion where
  /-- OK: the command did what its rule says -/
  | ok
  /-- NODATA: the command's primary input was empty (R263) -/
  | noData
  /-- INCOMPLETE: the bit string cannot be fully resolved into symbols (R265) -/
  | incomplete
  /-- BADCHAR: an element used as a bit is neither '0' nor '1' (R264) -/
  | badChar
  /-- NOSYMBOL: a symbol of the text has no entry in the code table (R266) -/
  | noSymbol
  /-- CAPACITY: a table or buffer cannot hold the result (R267) -/
  | capacity
  /-- BADSEQ: the state the command needs is not there (R270) -/
  | badSeq
  /-- BADOPERAND: an immediate or BLKLEN is out of range (R271) -/
  | badOperand
  /-- DUPLICATE: the staged symbol or code is already in the table (R272) -/
  | duplicate
  /-- ILLEGAL: the command word is not a command (R273) -/
  | illegal
  deriving DecidableEq, Repr

/-- STATUS.TREE: the state of the Huffman tree (R31). -/
inductive TreeState where
  /-- NONE: no build since reset, CLEAR or the last `ClearSymbolKeyed()` -/
  | none
  /-- EMPTY: a build was run on an empty frequency table -/
  | empty
  /-- BUILDING: the leaves are made, at least two nodes are still in the queue -/
  | building
  /-- VALID: one node remains and is the root -/
  | valid
  deriving DecidableEq, Repr

/-- One record of the node arena ND (R30): the tag is the constructor, `sym` stands in a leaf only, `left` and `right`
in an internal node only. -/
inductive Node where
  /-- tag 0: a leaf -/
  | leaf (freq : Nat) (sym : Byte)
  /-- tag 1: an internal node -/
  | internal (freq left right : Nat)
  deriving DecidableEq, Repr

/-- One entry of the frequency table FT (R29). -/
structure FtEntry where
  /-- FT_SYM -/
  sym : Symbol
  /-- FT_CNT -/
  cnt : Nat
  deriving DecidableEq, Repr

/-- One entry of the code table CT (R40). -/
structure CtEntry where
  /-- CT_SYM -/
  sym : Symbol
  /-- CT_CODE -/
  code : Code
  deriving DecidableEq, Repr

/-- The elements of one buffer space that have been written, as (index, character) pairs, indices strictly rising. -/
abbrev Memory := List Host.Cell

/-- A host access that is not a command (20_memory.md R80, R82, R83). The interface has an 8-bit CSR address (R46) and an
8-bit space id (R70); a written value is 32 bits, of which a buffer write stores the low 8 (R83). -/
inductive Access where
  /-- `CsrRd(a)` -/
  | csrRd (a : BitVec 8)
  /-- `CsrWr(a, v)` -/
  | csrWr (a : BitVec 8) (v : Word)
  /-- `BufRd(id, i)` -/
  | bufRd (id : BitVec 8) (i : Nat)
  /-- `BufWr(id, i, v)` -/
  | bufWr (id : BitVec 8) (i : Nat) (v : Word)
  deriving DecidableEq, Repr

/-- What can happen to the block, one at a time in one total order (R84): the five transactions of rule R80 and the
hardware reset (R290). -/
inductive Transaction where
  /-- `Cmd(w)` (R81) -/
  | cmd (w : Word)
  /-- one of the four other host transactions -/
  | access (a : Access)
  /-- the reset input is asserted and released -/
  | reset
  deriving DecidableEq, Repr

/-- Why a step could stop with a fault. The block has none: every command ends with a completion code in STATUS
(00_scope.md R13, R15) and every other transaction completes, so this type has no constructor. -/
inductive Fault where
  deriving DecidableEq, Repr

/-- Why a step could be refused. The block itself refuses nothing (R13; 93_implementation_defined.md U11). -/
inductive Refusal where
  /-- An instruction that has no meaning in this model yet; raised by arms of `exec` only, safe. No arm raises it. -/
  | notModelled (mnemonic : String)
  deriving DecidableEq, Repr

/-- The state of the block between transactions (R22). The last three fields are the model's own. -/
structure State where
  /-- STATUS.CODE, the completion code of the most recent command (R23) -/
  code : Completion
  /-- STATUS.ERR, the sticky error flag (R23) -/
  err : Bool
  /-- STATUS.HIT, the result of the most recent CT_FWD or CT_REV (R23) -/
  hit : Bool
  /-- STATUS.TREE (R31) -/
  tree : TreeState
  /-- ERRPOS (R24) -/
  errPos : Word
  /-- SYMLEN (R26) -/
  symLen : Word
  /-- BLKLEN (R27) -/
  blkLen : Word
  /-- TXT_LEN (R28) -/
  txtLen : Word
  /-- BIT_LEN (R28) -/
  bitLen : Word
  /-- OUT_LEN (R28) -/
  outLen : Word
  /-- FT, entry index = rank (R29) -/
  ft : List FtEntry
  /-- ND, the node arena (R30) -/
  nodes : List Node
  /-- ROOT, a node index or NIL (R31) -/
  root : Word
  /-- PQ, a set of node indices, listed in ascending index (R32) -/
  queue : List Nat
  /-- SL while it is valid, that is while STATUS.SLV = 1 (R33) -/
  sl : Option (List Nat)
  /-- CT, entry index = rank (R40, R41) -/
  ct : List CtEntry
  /-- K_CLEN (R42) -/
  kClen : Word
  /-- K_CNT (R42) -/
  kCnt : Word
  /-- K_IDX (R42) -/
  kIdx : Word
  /-- N_TAG (R43) -/
  nTag : Word
  /-- N_FREQ (R43) -/
  nFreq : Word
  /-- N_SYM (R43) -/
  nSym : Word
  /-- N_LEFT (R43) -/
  nLeft : Word
  /-- N_RIGHT (R43) -/
  nRight : Word
  /-- CAP_TXT, CAP_BIT, CAP_OUT, CAP_SYM, the instance's constants (R44) -/
  caps : Capacities
  /-- the written elements of TXT (R70) -/
  txt : Memory
  /-- the written elements of BIT (R70) -/
  bit : Memory
  /-- the written elements of OUT (R70) -/
  out : Memory
  /-- the written elements of K_SYM (R70) -/
  kSym : Memory
  /-- the written elements of K_CODE (R70) -/
  kCode : Memory
  /-- how many resets have happened: what an unwritten element holds is free after each (log entry 3) -/
  resets : Nat
  /-- the transactions the host will perform, in order (R84; log entry 1) -/
  pending : List Transaction
  /-- the value the last transaction returned to the host: STATUS from a command (R81), the register or element from a
  read (R82, R83), nothing from a write or a reset (log entry 2) -/
  response : Option Word
  deriving DecidableEq, Repr

/-- The state after reset of the reference instance (R50, R290). -/
def State.reset : State where
  code := .ok
  err := false
  hit := false
  tree := .none
  errPos := 0#32
  symLen := 1#32
  blkLen := 1#32
  txtLen := 0#32
  bitLen := 0#32
  outLen := 0#32
  ft := []
  nodes := []
  root := NIL
  queue := []
  sl := none
  ct := []
  kClen := 0#32
  kCnt := 0#32
  kIdx := 0#32
  nTag := 0#32
  nFreq := 0#32
  nSym := 0#32
  nLeft := NIL
  nRight := NIL
  caps := Config.defaultCapacities
  txt := []
  bit := []
  out := []
  kSym := []
  kCode := []
  resets := 0
  pending := []
  response := none

/-- How a step ends. -/
abbrev Result := Host.Outcome State Fault Refusal

end Sys2Proof.Machine
end

