-- ==== Sys2Proof/Machine/Flags.lean ====
section
/-! DEFINITION. STATUS and what computes its fields (10_state.md R23, R25; 60_exceptions.md R260, R261). -/

namespace Sys2Proof.Machine

open Sys2Proof

/-- The four-bit value of a completion code (R260). -/
def Completion.value : Completion → BitVec 4
  | .ok => 0
  | .noData => 1
  | .incomplete => 2
  | .badChar => 3
  | .noSymbol => 4
  | .capacity => 5
  | .badSeq => 6
  | .badOperand => 7
  | .duplicate => 8
  | .illegal => 9

/-- The error class: every code but OK and NODATA (R261). -/
def Completion.isError : Completion → Bool
  | .ok | .noData => false
  | .incomplete | .badChar | .noSymbol | .capacity | .badSeq | .badOperand | .duplicate | .illegal => true

/-- The two-bit value of STATUS.TREE (R23). -/
def TreeState.value : TreeState → BitVec 2
  | .none => 0
  | .empty => 1
  | .building => 2
  | .valid => 3

/-- STATUS.SLV: 1 when the sorted list is valid for the present FT (R23, R33). -/
def State.slv (s : State) : Bool := s.sl.isSome

/-- STATUS: CODE in bits 3:0, ERR in bit 4, HIT in bit 5, TREE in bits 7:6, SLV in bit 8, bits 31:9 zero (R23). -/
def State.statusWord (s : State) : Word :=
  0#23 ++ BitVec.ofBool s.slv ++ s.tree.value ++ BitVec.ofBool s.hit ++ BitVec.ofBool s.err ++ s.code.value

/-- ERR is sticky: an error-class code sets it, a success-class code leaves it (R23, R261). -/
def nextErr (c : Completion) (err : Bool) : Bool := err || c.isError

/-- OK, or NODATA where the command's primary input is empty (R263). -/
def okOrNoData (empty : Bool) : Completion := if empty then .noData else .ok

end Sys2Proof.Machine
end

