-- ==== Sys2Proof/Machine/Operands.lean ====
section
/-! DEFINITION. Operand forms: characters and bits, the order of symbols, the tables' searches and insertions, the spaces'
ids and sizes, and the control registers that are views of a structure (00_scope.md R9 to R11; 10_state.md R29, R40, R45;
20_memory.md R70). -/

namespace Sys2Proof.Machine

open Sys2Proof

/-! ## Characters and bits -/

/-- `'0'` = 0x30 (R9). -/
def charZero : Byte := 0x30#8

/-- `'1'` = 0x31 (R9). -/
def charOne : Byte := 0x31#8

/-- The space SEGMENT pads with, 0x20 (R9, R150). -/
def charSpace : Byte := 0x20#8

/-- `chr(b)`, the character that shows a bit (R9). -/
def chr (b : Bool) : Byte := if b then charOne else charZero

/-- `bit(c)`, `none` for a character that is neither '0' nor '1' (R9, R264). -/
def bitOf (c : Byte) : Option Bool :=
  if c = charZero then some false else if c = charOne then some true else none

/-- The characters that show a code, element by element (R11). -/
def codeChars (c : Code) : List Byte := c.map chr

/-- Scan of a staged code from index `j` on: the bits, or the least index of an element that is no bit (R212, R219). -/
def scanBits (j : Nat) : List Byte → Except Nat Code
  | [] => .ok []
  | c :: cs =>
    match bitOf c with
    | none => .error j
    | some b =>
      match scanBits (j + 1) cs with
      | .error k => .error k
      | .ok bs => .ok (b :: bs)

/-! ## Symbols -/

/-- `s <lex t`: at the first index where they differ the left character is the lower, as unsigned numbers (R10). -/
def symLt : Symbol → Symbol → Bool
  | [], [] => false
  | [], _ :: _ => true
  | _ :: _, [] => false
  | a :: as, b :: bs => if a = b then symLt as bs else a.toNat < b.toNat

/-! ## The frequency table -/

/-- Whether a symbol is a key of FT. -/
def ftHas (k : Symbol) (ft : List FtEntry) : Bool := ft.any (fun e => e.sym = k)

/-- One more occurrence of symbol `k`: `FT[k] + 1` where `k` is a key, else `(k, 1)` inserted at its <lex position
(R141). -/
def ftCount (k : Symbol) : List FtEntry → List FtEntry
  | [] => [⟨k, 1⟩]
  | e :: es =>
    if e.sym = k then ⟨e.sym, e.cnt + 1⟩ :: es
    else if symLt k e.sym then ⟨k, 1⟩ :: e :: es
    else e :: ftCount k es

/-- FT_TOTAL, the sum of the counts (R29). -/
def ftTotal (ft : List FtEntry) : Nat := (ft.map FtEntry.cnt).sum

/-! ## The code table and its lookup engine -/

/-- Insertion of an entry at its <lex position (R170, R193, R212). -/
def ctInsert (n : CtEntry) : List CtEntry → List CtEntry
  | [] => [n]
  | e :: es => if symLt n.sym e.sym then n :: e :: es else e :: ctInsert n es

/-- The table that holds the given entries, each inserted at its <lex position. -/
def ctOf (entries : List CtEntry) : List CtEntry := entries.foldl (fun ct n => ctInsert n ct) []

/-- Search of CT from rank `r` on: the first entry that meets `p`, with its rank. -/
def ctFind (p : CtEntry → Bool) (r : Nat) : List CtEntry → Option (Nat × CtEntry)
  | [] => none
  | e :: es => if p e then some (r, e) else ctFind p (r + 1) es

/-- Forward lookup: the entry whose symbol equals the key (R40, R217). -/
def ctForward (k : Symbol) (ct : List CtEntry) : Option (Nat × CtEntry) := ctFind (fun e => e.sym = k) 0 ct

/-- Reverse lookup: the entry whose whole code equals the whole key (R40, R219). -/
def ctReverse (c : Code) (ct : List CtEntry) : Option (Nat × CtEntry) := ctFind (fun e => e.code = c) 0 ct

/-! ## Nodes -/

/-- The `freq` field of a record (R30). -/
def Node.freq : Node → Nat
  | .leaf f _ => f
  | .internal f _ _ => f

/-- Whether a record's tag is leaf (R30). -/
def Node.isLeaf : Node → Bool
  | .leaf _ _ => true
  | .internal _ _ _ => false

/-- `ND[i].freq`; 0 for an index that is no record, which no queue member is (log entry 9). -/
def freqOf (nodes : List Node) (i : Nat) : Nat :=
  match nodes[i]? with
  | some n => n.freq
  | none => 0

/-! ## Spaces -/

/-- The id of a space (R70). -/
def spaceId : Space → BitVec 8
  | .txt => 0
  | .bit => 1
  | .out => 2
  | .kSym => 3
  | .kCode => 4

/-- The space an id names; ids 5 to 255 are reserved (R70, R83). -/
def spaceOfId (id : BitVec 8) : Option Space :=
  match id.toNat with
  | 0 => some .txt
  | 1 => some .bit
  | 2 => some .out
  | 3 => some .kSym
  | 4 => some .kCode
  | _ => none

/-- CODE_MAX = SYM_CAP − 1 (R6, R7). -/
def codeMax (caps : Capacities) : Nat := caps.sym.toNat - 1

/-- NODE_CAP = 2·SYM_CAP − 1 (R6, R7). -/
def nodeCap (caps : Capacities) : Nat := 2 * caps.sym.toNat - 1

/-- The element count of a space (R70). -/
def spaceSize (caps : Capacities) : Space → Nat
  | .txt => caps.txt.toNat
  | .bit => caps.bit.toNat
  | .out => caps.out.toNat
  | .kSym => Config.lmax
  | .kCode => codeMax caps

/-- A number as a 32-bit register shows it. -/
def word (n : Nat) : Word := BitVec.ofNat 32 n

/-! ## The control register map -/

/-- The value of the control register at an address (R45); a reserved address reads as 0 (R46). -/
def csrValue (a : BitVec 8) (s : State) : Word :=
  match a.toNat with
  | 0x00 => s.statusWord
  | 0x01 => s.errPos
  | 0x02 => s.symLen
  | 0x03 => s.blkLen
  | 0x04 => s.txtLen
  | 0x05 => s.bitLen
  | 0x06 => s.outLen
  | 0x07 => word s.ft.length
  | 0x08 => word (ftTotal s.ft)
  | 0x09 => word s.ct.length
  | 0x0A => word s.nodes.length
  | 0x0B => s.root
  | 0x0C => word s.queue.length
  | 0x0D => s.kClen
  | 0x0E => s.kCnt
  | 0x0F => s.kIdx
  | 0x10 => s.nTag
  | 0x11 => s.nFreq
  | 0x12 => s.nSym
  | 0x13 => s.nLeft
  | 0x14 => s.nRight
  | 0x18 => s.caps.txt
  | 0x19 => s.caps.bit
  | 0x1A => s.caps.out
  | 0x1B => s.caps.sym
  | _ => 0#32

end Sys2Proof.Machine
end

