-- ==== Sys2Proof/Machine/Ops.lean ====
section
/-! DEFINITION. The named operations every meaning is written over: reads and writes of buffer elements (20_memory.md
R70 to R75), `ClearSymbolKeyed()` (10_state.md R26), and how a command ends (60_exceptions.md R268), which is this block's
whole exception mechanism: `done` and `raise` are one operation, and there is nothing to return from (R278). -/

namespace Sys2Proof.Machine

open Sys2Proof

/-! ## Memory -/

/-- The stored character at an index; `none` when nothing has been written there. -/
def Memory.read : Memory → Nat → Option Byte
  | [], _ => none
  | c :: m, i => if c.1 = i then some c.2 else Memory.read m i

/-- Stores a character, keeping the indices strictly rising. -/
def Memory.write (i : Nat) (v : Byte) : Memory → Memory
  | [] => [(i, v)]
  | c :: m =>
    if i < c.1 then (i, v) :: c :: m
    else if i = c.1 then (i, v) :: m
    else c :: Memory.write i v m

/-- The canonical form: indices strictly rising. An unlisted index holds no stored character, so no entry repeats what an
unlisted index reads as (log entry 3). -/
abbrev Memory.wf (m : Memory) : Prop := m.Pairwise (fun a b => a.1 < b.1)

/-- The written elements of a space. -/
def State.memory (sp : Space) (s : State) : Memory :=
  match sp with
  | .txt => s.txt
  | .bit => s.bit
  | .out => s.out
  | .kSym => s.kSym
  | .kCode => s.kCode

/-- Replaces the written elements of a space. -/
def State.setMemory (sp : Space) (m : Memory) (s : State) : State :=
  match sp with
  | .txt => { s with txt := m }
  | .bit => { s with bit := m }
  | .out => { s with out := m }
  | .kSym => { s with kSym := m }
  | .kCode => { s with kCode := m }

/-- `MemRead(SPACE, i)` (R12): the stored character, or the free value where nothing has been written since reset
(93_implementation_defined.md U7; log entry 3). -/
def State.element (sp : Space) (s : State) (i : Nat) : Byte :=
  match (s.memory sp).read i with
  | some v => v
  | none => Config.unwrittenElement s.resets sp i

/-- `MemWrite(SPACE, i, v)` (R12). -/
def State.store (sp : Space) (i : Nat) (v : Byte) (s : State) : State :=
  s.setMemory sp ((s.memory sp).write i v)

/-- The elements `SPACE[start .. start + n)`. -/
def State.elements (sp : Space) (s : State) (start n : Nat) : List Byte :=
  (List.range n).map (fun j => s.element sp (start + j))

/-- Stores the characters in order from index `start` on. -/
def State.storeAll (sp : Space) (start : Nat) : List Byte → State → State
  | [], s => s
  | v :: vs, s => State.storeAll sp (start + 1) vs (s.store sp start v)

/-! ## The sequences the commands read -/

/-- The text `TXT[0..TXT_LEN)` (R28). -/
def State.text (s : State) : List Byte := s.elements .txt 0 s.txtLen.toNat

/-- The bit characters `BIT[0..BIT_LEN)` (R28). -/
def State.bitChars (s : State) : List Byte := s.elements .bit 0 s.bitLen.toNat

/-- The decoded text `OUT[0..OUT_LEN)` (R28). -/
def State.decoded (s : State) : List Byte := s.elements .out 0 s.outLen.toNat

/-- Symbol `k` of the text, `TXT[k·L .. (k+1)·L)` with L = SYMLEN (R72). -/
def State.textSymbol (s : State) (k : Nat) : Symbol := s.elements .txt (k * s.symLen.toNat) s.symLen.toNat

/-- The text as its TXT_LEN / SYMLEN symbols (R72). -/
def State.textSymbols (s : State) : List Symbol :=
  (List.range (s.txtLen.toNat / s.symLen.toNat)).map s.textSymbol

/-- The staged symbol `K_SYM[0..SYMLEN)` (R42). -/
def State.stagedSymbol (s : State) : Symbol := s.elements .kSym 0 s.symLen.toNat

/-- The staged code's characters `K_CODE[0..K_CLEN)` (R42). -/
def State.stagedCodeChars (s : State) : List Byte := s.elements .kCode 0 s.kClen.toNat

/-- The staged code as bits, or the least index of an element that is no bit (R212, R219). -/
def State.stagedCode (s : State) : Except Nat Code := scanBits 0 s.stagedCodeChars

/-! ## How a command ends -/

/-- The end of a command (R268): STATUS.CODE ← c, ERRPOS ← pos, ERR set by an error-class code and otherwise left; the
`Cmd` transaction returns the new STATUS (R81). -/
def State.ended (c : Completion) (pos : Nat) (s : State) : State :=
  let t := { s with code := c, errPos := word pos, err := nextErr c s.err }
  { t with response := some t.statusWord }

/-- `done c`: c is OK or NODATA and ERRPOS becomes 0 (R12, R268). -/
def done (c : Completion) (s : State) : Result := .next (s.ended c 0)

/-- `raise c(pos)` (R12, R268): the entry into the block's only exception. Control goes nowhere; CODE and ERRPOS are what
is saved. -/
def raise (c : Completion) (pos : Nat) (s : State) : Result := .next (s.ended c pos)

/-- An illegal word executes as ILLEGAL with nothing else changed (R105, R273). -/
def takeIllegal (s : State) : Result := raise .illegal 0 s

/-! ## Shared updates -/

/-- `ClearSymbolKeyed()` (R26). -/
def State.clearSymbolKeyed (s : State) : State :=
  { s with ft := [], sl := none, tree := .none, nodes := [], queue := [], root := NIL, ct := [] }

/-- A write of a legal value to SYMLEN, with its side effect (R26). -/
def State.setSymLen (v : Word) (s : State) : State := { s.clearSymbolKeyed with symLen := v }

/-- Every register at its reset value (R50, R51); the buffer elements, the instance's constants and the model's own
fields stay. -/
def State.clearRegisters (s : State) : State :=
  { State.reset with
    caps := s.caps, txt := s.txt, bit := s.bit, out := s.out, kSym := s.kSym, kCode := s.kCode,
    resets := s.resets, pending := s.pending, response := s.response }

/-- Stages a symbol: K_SYM[0..len) (R152, R215, R219). -/
def State.stageSymbol (sym : Symbol) (s : State) : State := s.storeAll .kSym 0 sym

/-- Stages a code: K_CODE[0..len) and K_CLEN (R215, R217). -/
def State.stageCode (c : Code) (s : State) : State :=
  { s.storeAll .kCode 0 (codeChars c) with kClen := word c.length }

/-- Appends characters to OUT (R72, R241, R245). -/
def State.emit (cs : List Byte) (s : State) : State :=
  { s.storeAll .out s.outLen.toNat cs with outLen := word (s.outLen.toNat + cs.length) }

/-- Appends a code's characters to BIT (R224). -/
def State.appendBits (c : Code) (s : State) : State :=
  { s.storeAll .bit s.bitLen.toNat (codeChars c) with bitLen := word (s.bitLen.toNat + c.length) }

/-! ## The next transaction -/

/-- Takes the host's next transaction, if there is one (R84; log entry 1). -/
def State.nextTransaction (s : State) : Option (Transaction × State) :=
  match s.pending with
  | [] => none
  | t :: rest => some (t, { s with pending := rest })

end Sys2Proof.Machine
end

