-- ==== Sys2Proof/Machine/Access.lean ====
section
/-! DEFINITION. The host transactions that are not commands (20_memory.md R82, R83; 10_state.md R45 to R47) and the
hardware reset (70_reset_and_hazards.md R290). None has a completion code. -/

namespace Sys2Proof.Machine

open Sys2Proof

/-- `CsrWr(a, v)` (R45, R47): a read-only or reserved register ignores the write; an illegal value is ignored whole. -/
def csrWrite (a : BitVec 8) (v : Word) (s : State) : State :=
  match a.toNat with
  | 0x02 => if v.toNat = 0 ∨ Config.lmax < v.toNat then s else s.setSymLen v
  | 0x03 => { s with blkLen := v }
  | 0x04 => if s.caps.txt.toNat < v.toNat then s else { s with txtLen := v }
  | 0x05 => if s.caps.bit.toNat < v.toNat then s else { s with bitLen := v }
  | 0x0D => if codeMax s.caps < v.toNat then s else { s with kClen := v }
  | _ => s

/-- `BufRd(id, i)` (R83): the element zero-extended; 0 for a reserved id or an index beyond the space. -/
def bufferValue (id : BitVec 8) (i : Nat) (s : State) : Word :=
  match spaceOfId id with
  | none => 0#32
  | some sp => if i < spaceSize s.caps sp then (s.element sp i).setWidth 32 else 0#32

/-- `BufWr(id, i, v)` (R83): stores `v[7:0]`; ignored for OUT, a reserved id or an index beyond the space. -/
def bufferWrite (id : BitVec 8) (i : Nat) (v : Word) (s : State) : State :=
  match spaceOfId id with
  | none => s
  | some sp => if sp ≠ .out ∧ i < spaceSize s.caps sp then s.store sp i (v.setWidth 8) else s

/-- One host access, with what it returns to the host. -/
def performAccess (a : Access) (s : State) : State :=
  match a with
  | .csrRd r => { s with response := some (csrValue r s) }
  | .csrWr r v => { csrWrite r v s with response := none }
  | .bufRd id i => { s with response := some (bufferValue id i s) }
  | .bufWr id i v => { bufferWrite id i v s with response := none }

/-- The hardware reset (R290): every register at its reset value, the instance's constants kept, the elements of the five
buffer spaces unspecified anew (log entries 3, 10). -/
def hardwareReset (s : State) : State :=
  { State.reset with caps := s.caps, resets := s.resets + 1, pending := s.pending }

end Sys2Proof.Machine
end

