-- ==== Sys2Proof/Machine/CodeTable.lean ====
section
/-! DEFINITION. The code table, its lookup engine and the encoder: CT_CLEAR, CT_ADD, CT_GET, CT_FWD, CT_REV, ENCODE
(44_code_table.md). -/

namespace Sys2Proof.Machine

open Sys2Proof

/-- CT_CLEAR (R211). -/
def execCtClear (s : State) : Result := done .ok { s with ct := [] }

/-- CT_ADD (R212): the checks in the order BADCHAR, DUPLICATE, CAPACITY. -/
def execCtAdd (s : State) : Result :=
  match s.stagedCode with
  | .error j => raise .badChar j s
  | .ok code =>
    if (ctForward s.stagedSymbol s.ct).isSome || (ctReverse code s.ct).isSome then raise .duplicate 0 s
    else if s.caps.sym.toNat ≤ s.ct.length then raise .capacity 0 s
    else done .ok { s with ct := ctInsert ⟨s.stagedSymbol, code⟩ s.ct }

/-- CT_GET imm (R215). -/
def execCtGet (imm : Nat) (s : State) : Result :=
  match s.ct[imm]? with
  | none => raise .badOperand 0 s
  | some e => done .ok ((s.stageSymbol e.sym).stageCode e.code)

/-- CT_FWD (R217): an absent key is a result, not an error. -/
def execCtFwd (s : State) : Result :=
  match ctForward s.stagedSymbol s.ct with
  | none => done .ok { s with hit := false }
  | some (r, e) => done .ok { s.stageCode e.code with kIdx := word r, hit := true }

/-- CT_REV (R219). -/
def execCtRev (s : State) : Result :=
  match s.stagedCode with
  | .error j => raise .badChar j s
  | .ok code =>
    match ctReverse code s.ct with
    | none => done .ok { s with hit := false }
    | some (r, e) => done .ok { s.stageSymbol e.sym with kIdx := word r, hit := true }

/-- ENCODE's loop (R224) over the symbols from text position `pos` on: a code that does not fit is not written at all. -/
def encodeSymbols (len : Nat) : List Symbol → Nat → State → State × Option (Completion × Nat)
  | [], _, s => (s, none)
  | k :: ks, pos, s =>
    match ctForward k s.ct with
    | none => (s, some (.noSymbol, pos))
    | some (_, e) =>
      if s.caps.bit.toNat < s.bitLen.toNat + e.code.length then (s, some (.capacity, pos))
      else encodeSymbols len ks (pos + len) (s.appendBits e.code)

/-- ENCODE (R224). -/
def execEncode (s : State) : Result :=
  if s.txtLen.toNat % s.symLen.toNat ≠ 0 then raise .badSeq 0 s
  else
    match encodeSymbols s.symLen.toNat s.textSymbols 0 { s with bitLen := 0#32 } with
    | (t, some (c, pos)) => raise c pos t
    | (t, none) => done (okOrNoData s.textSymbols.isEmpty) t

end Sys2Proof.Machine
end

