-- ==== Sys2Proof/Machine/Control.lean ====
section
/-! DEFINITION. The control commands NOP and CLEAR (40_control.md). -/

namespace Sys2Proof.Machine

open Sys2Proof

/-- NOP (R131). -/
def execNop (s : State) : Result := done .ok s

/-- CLEAR (R132): the only command that clears STATUS.ERR. -/
def execClear (s : State) : Result := done .ok s.clearRegisters

end Sys2Proof.Machine
end

