-- ==== Sys2Proof/Machine/Decoder.lean ====
section
/-! DEFINITION. The two prefix code decoders: TDECODE by tree walk, RDECODE by the reverse lookup (45_decoder.md). -/

namespace Sys2Proof.Machine

open Sys2Proof

/-! ## TDECODE -/

/-- Where bit `b` leads from node `cur` (R241): the left child on 0, the right child on 1. A root that is a leaf is read
as if it hung on the left edge of an absent parent (R242). `none` is the source's "null child". -/
def nextNode (nodes : List Node) (root cur : Nat) (b : Bool) : Option Nat :=
  match nodes[root]? with
  | some (.leaf _ _) => if b then none else some root
  | _ =>
    match nodes[cur]? with
    | some (.internal _ l r) => some (if b then r else l)
    | _ => none

/-- TDECODE's loop (R241) over the bit characters from index `p` on: `cur` is the current node, `start` the index of the
first bit of the symbol in progress. -/
def treeDecode (root : Nat) : List Byte → (p cur start : Nat) → State → Result
  | [], _, cur, start, s => if cur ≠ root then raise .incomplete start s else done .ok s
  | c :: cs, p, cur, start, s =>
    match bitOf c with
    | none => raise .badChar p s
    | some b =>
      match nextNode s.nodes root cur b with
      | none => raise .incomplete p s
      | some n =>
        match s.nodes[n]? with
        | none => raise .incomplete p s
        | some (.internal _ _ _) => treeDecode root cs (p + 1) n start s
        | some (.leaf _ sym) =>
          if s.caps.out.toNat < s.outLen.toNat + 1 then raise .capacity start s
          else treeDecode root cs (p + 1) root (p + 1) (s.emit [sym])

/-- TDECODE once a tree, VALID or EMPTY, is there (R241, R243). -/
def treeDecodeFrom (s : State) : Result :=
  if s.bitLen.toNat = 0 then done .noData { s with outLen := 0#32 }
  else if s.tree = .empty then raise .incomplete 0 { s with outLen := 0#32 }
  else treeDecode s.root.toNat s.bitChars 0 s.root.toNat 0 { s with outLen := 0#32 }

/-- TDECODE (R241). -/
def execTdecode (s : State) : Result :=
  match s.tree with
  | .none => raise .badSeq 0 s
  | .building => raise .badSeq 0 s
  | .empty => treeDecodeFrom s
  | .valid => treeDecodeFrom s

/-! ## RDECODE -/

/-- RDECODE's loop (R245) over the bit characters from index `p` on: `acc` is the accumulator, `start` the index of its
first bit. The test runs after each bit, so the empty code never matches (R247). -/
def tableDecode : List Byte → (p : Nat) → Code → (start : Nat) → State → Result
  | [], _, acc, start, s => if acc ≠ [] then raise .incomplete start s else done .ok s
  | c :: cs, p, acc, start, s =>
    match bitOf c with
    | none => raise .badChar p s
    | some b =>
      match ctReverse (acc ++ [b]) s.ct with
      | none => tableDecode cs (p + 1) (acc ++ [b]) start s
      | some (_, e) =>
        if s.caps.out.toNat < s.outLen.toNat + s.symLen.toNat then raise .capacity start s
        else tableDecode cs (p + 1) [] (p + 1) (s.emit e.sym)

/-- RDECODE (R245). -/
def execRdecode (s : State) : Result :=
  if s.bitLen.toNat = 0 then done .noData { s with outLen := 0#32 }
  else tableDecode s.bitChars 0 [] 0 { s with outLen := 0#32 }

end Sys2Proof.Machine
end

