-- ==== Sys2Proof/Machine/FrontEnd.lean ====
section
/-! DEFINITION. The Frequency Counter and the Block Segmenter: FCOUNT, SEGLEN, SEGMENT, FT_GET
(41_frequency_segmenter.md). -/

namespace Sys2Proof.Machine

open Sys2Proof

/-! ## FCOUNT -/

/-- FCOUNT's loop (R141): counts the symbols from text position `pos` on into `ft`. The second component is the position
of the symbol at which the table was full, if there is one. -/
def countSymbols (cap len : Nat) : List Symbol → Nat → List FtEntry → List FtEntry × Option Nat
  | [], _, ft => (ft, none)
  | k :: ks, pos, ft =>
    if ftHas k ft = false ∧ ft.length = cap then (ft, some pos)
    else countSymbols cap len ks (pos + len) (ftCount k ft)

/-- FCOUNT (R141). -/
def execFcount (s : State) : Result :=
  if s.txtLen.toNat % s.symLen.toNat ≠ 0 then raise .badSeq 0 s
  else
    match countSymbols s.caps.sym.toNat s.symLen.toNat s.textSymbols 0 [] with
    | (ft, some pos) => raise .capacity pos { s with ft := ft, sl := none }
    | (ft, none) => done (okOrNoData s.textSymbols.isEmpty) { s with ft := ft, sl := none }

/-! ## SEGLEN -/

/-- The histogram n of a text: the counts `n_c` of the characters c = 0 … 255 (R145). -/
def histogram (text : List Byte) : List Nat :=
  (List.range 256).map (fun c => text.countP (fun x => x.toNat = c))

/-- `Π_c n_c^(n_c)` over the characters with `n_c > 0` (R147). -/
def selfPowers (n : List Nat) : Nat := ((n.filter (fun k => 0 < k)).map (fun k => k ^ k)).prod

/-- The test of rule R147: `k^N · Π_c n_c^(n_c) ≤ N^N`, that is `k ≤ 2^H`. -/
def blockLenTest (n : List Nat) (k : Nat) : Bool := k ^ n.sum * selfPowers n ≤ n.sum ^ n.sum

/-- The greatest k with 1 ≤ k ≤ m that passes the test, 1 if none does. -/
def greatestPassing (test : Nat → Bool) : Nat → Nat
  | 0 => 1
  | m + 1 => if test (m + 1) then m + 1 else greatestPassing test m

/-- `BlockLen(n)` (R146, R147). No k above 256 passes (R148), so the search starts at LMAX. -/
def blockLen (n : List Nat) : Nat := greatestPassing (blockLenTest n) Config.lmax

/-- SEGLEN (R145): the empty text gives 1. -/
def execSeglen (s : State) : Result :=
  if s.txtLen.toNat = 0 then done .noData { s with blkLen := 1#32 }
  else done .ok { s with blkLen := word (blockLen (histogram s.text)) }

/-! ## SEGMENT -/

/-- `ceil(len / l) · l` (R150). -/
def paddedLength (len l : Nat) : Nat := (len + l - 1) / l * l

/-- SEGMENT (R150). -/
def execSegment (s : State) : Result :=
  let l := s.blkLen.toNat
  let len := s.txtLen.toNat
  let p := paddedLength len l
  if l = 0 ∨ Config.lmax < l then raise .badOperand 0 s
  else if s.caps.txt.toNat < p then raise .capacity len s
  else
    let padded := s.storeAll .txt len (List.replicate (p - len) charSpace)
    done (okOrNoData (p = 0)) (State.setSymLen s.blkLen { padded with txtLen := word p })

/-! ## FT_GET -/

/-- FT_GET imm (R152). -/
def execFtGet (imm : Nat) (s : State) : Result :=
  match s.ft[imm]? with
  | none => raise .badOperand 0 s
  | some e => done .ok { s.stageSymbol e.sym with kCnt := word e.cnt }

end Sys2Proof.Machine
end

