-- ==== Sys2Proof/Machine/Huffman.lean ====
section
/-! DEFINITION. The Huffman Tree Builder with its priority queue: HINIT, HSTEP, HBUILD, HCODES, ND_GET, PQ_GET
(42_huffman.md). -/

namespace Sys2Proof.Machine

open Sys2Proof

/-! ## The priority queue -/

/-- Pop order: ascending in the pair (frequency, node index) (R32). -/
def popsBefore (nodes : List Node) (i j : Nat) : Bool :=
  freqOf nodes i < freqOf nodes j || (freqOf nodes i = freqOf nodes j && i < j)

/-- The first in pop order of `best` and the members `q`. -/
def firstToPop (nodes : List Node) (best : Nat) : List Nat → Nat
  | [] => best
  | i :: q => firstToPop nodes (if popsBefore nodes i best then i else best) q

/-- `popmin(PQ)`: the first member in pop order and the queue without it (R32). -/
def popMin (nodes : List Node) (queue : List Nat) : Option (Nat × List Nat) :=
  match queue with
  | [] => none
  | i :: q =>
    let m := firstToPop nodes i q
    some (m, queue.filter (fun j => j ≠ m))

/-- Insertion into a list in pop order. -/
def insertInPopOrder (nodes : List Node) (i : Nat) : List Nat → List Nat
  | [] => [i]
  | j :: q => if popsBefore nodes i j then i :: j :: q else j :: insertInPopOrder nodes i q

/-- The members of the queue in pop order (R32). -/
def popOrder (nodes : List Node) (queue : List Nat) : List Nat :=
  queue.foldr (insertInPopOrder nodes) []

/-! ## HINIT -/

/-- The leaf of an FT entry; its symbol is one character, since SYMLEN = 1 (R161). -/
def leafOf (e : FtEntry) : Node := .leaf e.cnt (e.sym.headD 0#8)

/-- HINIT's pseudocode up to its `done` (R161). -/
def startTree (s : State) : State :=
  { s with
    nodes := s.ft.map leafOf
    queue := List.range s.ft.length
    root := if s.ft.length = 1 then 0#32 else NIL
    tree := if s.ft.length = 0 then .empty else if s.ft.length = 1 then .valid else .building }

/-- HINIT (R161). -/
def execHinit (s : State) : Result :=
  if s.symLen ≠ 1#32 then raise .badSeq 0 s
  else done (okOrNoData s.ft.isEmpty) (startTree s)

/-! ## HSTEP -/

/-- HSTEP's pseudocode up to its `done` (R163): the first node popped becomes the left child, the second the right.
`none` when the queue has fewer than two members, which no reachable BUILDING state has (R31; log entry 9). -/
def mergeStep (s : State) : Option State :=
  match popMin s.nodes s.queue with
  | none => none
  | some (a, q) =>
    match popMin s.nodes q with
    | none => none
    | some (b, q') =>
      let i := s.nodes.length
      some { s with
        nodes := s.nodes ++ [.internal (freqOf s.nodes a + freqOf s.nodes b) a b]
        queue := q' ++ [i]
        root := if q' = [] then word i else s.root
        tree := if q' = [] then .valid else s.tree }

/-- HSTEP (R163). -/
def execHstep (s : State) : Result :=
  if s.tree ≠ .building then raise .badSeq 0 s
  else
    match mergeStep s with
    | none => raise .badSeq 0 s
    | some t => done .ok t

/-! ## HBUILD -/

/-- `while STATUS.TREE = BUILDING: …` (R164), at most `n` times round. -/
def mergeWhileBuilding : Nat → State → State
  | 0, s => s
  | n + 1, s =>
    if s.tree ≠ .building then s
    else
      match mergeStep s with
      | none => s
      | some t => mergeWhileBuilding n t

/-- HBUILD (R164). The loop runs FT_N − 1 times, so FT_N is bound enough. -/
def execHbuild (s : State) : Result :=
  if s.symLen ≠ 1#32 then raise .badSeq 0 s
  else done (okOrNoData s.ft.isEmpty) (mergeWhileBuilding s.ft.length (startTree s))

/-! ## HCODES -/

/-- `walk(i, path)` (R170): the leaves below record `i` with their paths, left before right. Children have lower indices
(R30), so a walk from a record is no deeper than the arena is long, which is what `depth` is. -/
def leafPaths (nodes : List Node) : Nat → Nat → Code → List CtEntry
  | 0, _, _ => []
  | depth + 1, i, path =>
    match nodes[i]? with
    | none => []
    | some (.leaf _ c) => [⟨[c], path⟩]
    | some (.internal _ l r) =>
      leafPaths nodes depth l (path ++ [false]) ++ leafPaths nodes depth r (path ++ [true])

/-- The code table of the tree (R170); a tree that is one leaf has the code "0" (R171). -/
def treeCodes (nodes : List Node) (root : Nat) : List CtEntry :=
  match nodes[root]? with
  | some (.leaf _ c) => [⟨[c], [false]⟩]
  | _ => ctOf (leafPaths nodes nodes.length root [])

/-- HCODES (R170). -/
def execHcodes (s : State) : Result :=
  match s.tree with
  | .none => raise .badSeq 0 s
  | .building => raise .badSeq 0 s
  | .empty => done .noData { s with ct := [] }
  | .valid => done .ok { s with ct := treeCodes s.nodes s.root.toNat }

/-! ## Read-out -/

/-- ND_GET imm (R175). -/
def execNdGet (imm : Nat) (s : State) : Result :=
  match s.nodes[imm]? with
  | none => raise .badOperand 0 s
  | some (.leaf f c) =>
    done .ok { s with nTag := 0#32, nFreq := word f, nSym := c.setWidth 32, nLeft := NIL, nRight := NIL }
  | some (.internal f l r) =>
    done .ok { s with nTag := 1#32, nFreq := word f, nSym := 0#32, nLeft := word l, nRight := word r }

/-- PQ_GET imm (R176). -/
def execPqGet (imm : Nat) (s : State) : Result :=
  match (popOrder s.nodes s.queue)[imm]? with
  | none => raise .badOperand 0 s
  | some i => done .ok { s with kIdx := word i }

end Sys2Proof.Machine
end

