-- ==== Sys2Proof/Machine/ShannonFano.lean ====
section
/-! DEFINITION. The Shannon-Fano recursive partitioner: SFSORT, SFPART, SFBUILD, SL_GET (43_shannon_fano.md). -/

namespace Sys2Proof.Machine

open Sys2Proof

/-! ## The sort -/

/-- `FT_CNT[i]`; 0 beyond the table, where no list element points (log entry 9). -/
def cntOf (ft : List FtEntry) (i : Nat) : Nat :=
  match ft[i]? with
  | some e => e.cnt
  | none => 0

/-- The sort key (R191): higher count first, among equal counts lower entry index first. -/
def sortsBefore (ft : List FtEntry) (i j : Nat) : Bool :=
  cntOf ft j < cntOf ft i || (cntOf ft i = cntOf ft j && i < j)

/-- Insertion into a list sorted by the key. -/
def insertSorted (ft : List FtEntry) (i : Nat) : List Nat → List Nat
  | [] => [i]
  | j :: l => if sortsBefore ft i j then i :: j :: l else j :: insertSorted ft i l

/-- The permutation SL of 0 … FT_N−1 (R191). -/
def sortedList (ft : List FtEntry) : List Nat := (List.range ft.length).foldr (insertSorted ft) []

/-- SFSORT (R191). -/
def execSfsort (s : State) : Result :=
  done (okOrNoData s.ft.isEmpty) { s with sl := some (sortedList s.ft) }

/-! ## The partition -/

/-- `|T − 2·C|` (R195). -/
def imbalance (total cum : Nat) : Nat := ((total : Int) - 2 * (cum : Int)).natAbs

/-- The split search of rule R195 from index `i` on: `cum` is `C_(i−1)`, the counts left to add are the argument; only a
strictly smaller imbalance replaces the best, so the first minimum wins. The last count is never added, since i ≤ m − 1. -/
def splitSearch (total : Nat) : List Nat → (i cum best bestd : Nat) → Nat
  | [], _, _, best, _ => best
  | [_], _, _, best, _ => best
  | c :: c' :: cs, i, cum, best, bestd =>
    if imbalance total (cum + c) < bestd then
      splitSearch total (c' :: cs) (i + 1) (cum + c) i (imbalance total (cum + c))
    else splitSearch total (c' :: cs) (i + 1) (cum + c) best bestd

/-- `split` of a range whose counts are given (R195); used for ranges of two or more. -/
def splitIndex (counts : List Nat) : Nat :=
  match counts with
  | [] => 1
  | c :: cs => splitSearch counts.sum cs 2 c 1 (imbalance counts.sum c)

/-- `part(lo, hi, code)` (R193) on the blocks of the range, which are FT entries. Each part has fewer blocks than its
caller (R198), so the number of blocks bounds the depth. -/
def partition : Nat → List FtEntry → Code → List CtEntry
  | 0, _, _ => []
  | _ + 1, [], _ => []
  | _ + 1, [b], code => [⟨b.sym, code⟩]
  | depth + 1, b :: b' :: bs, code =>
    let i := splitIndex ((b :: b' :: bs).map FtEntry.cnt)
    partition depth ((b :: b' :: bs).take i) (code ++ [false]) ++
      partition depth ((b :: b' :: bs).drop i) (code ++ [true])

/-- The blocks in the order of a sorted list. -/
def blocksOf (ft : List FtEntry) (sl : List Nat) : List FtEntry := sl.filterMap (fun i => ft[i]?)

/-- SFPART's table (R192): a single block gets the code "0" at the top level only (R194). -/
def partitionCodes (blocks : List FtEntry) : List CtEntry :=
  match blocks with
  | [b] => [⟨b.sym, [false]⟩]
  | _ => ctOf (partition blocks.length blocks [])

/-- SFPART's pseudocode from `CT <- empty` on, with its `done` (R192). -/
def finishPartition (sl : List Nat) (s : State) : Result :=
  done (okOrNoData s.ft.isEmpty) { s with ct := partitionCodes (blocksOf s.ft sl) }

/-- SFPART (R192). -/
def execSfpart (s : State) : Result :=
  match s.sl with
  | none => raise .badSeq 0 s
  | some l => finishPartition l s

/-- SFBUILD (R200). -/
def execSfbuild (s : State) : Result :=
  finishPartition (sortedList s.ft) { s with sl := some (sortedList s.ft) }

/-- SL_GET imm (R201). -/
def execSlGet (imm : Nat) (s : State) : Result :=
  match s.sl with
  | none => raise .badSeq 0 s
  | some l =>
    match l[imm]? with
    | none => raise .badOperand 0 s
    | some e => done .ok { s with kIdx := word e }

end Sys2Proof.Machine
end

