-- ==== Sys2Proof/Machine/Dispatch.lean ====
section
/-! DEFINITION. One arm per command: each is one direct call of the command's meaning. -/

namespace Sys2Proof.Machine

open Sys2Proof

def exec (i : Instr) (s : State) : Host.Outcome State Fault Refusal :=
  match i with
  | .nop => Sys2Proof.Machine.execNop s
  | .clear => Sys2Proof.Machine.execClear s
  | .fcount => Sys2Proof.Machine.execFcount s
  | .seglen => Sys2Proof.Machine.execSeglen s
  | .segment => Sys2Proof.Machine.execSegment s
  | .ftGet imm => Sys2Proof.Machine.execFtGet imm s
  | .hinit => Sys2Proof.Machine.execHinit s
  | .hstep => Sys2Proof.Machine.execHstep s
  | .hbuild => Sys2Proof.Machine.execHbuild s
  | .hcodes => Sys2Proof.Machine.execHcodes s
  | .ndGet imm => Sys2Proof.Machine.execNdGet imm s
  | .pqGet imm => Sys2Proof.Machine.execPqGet imm s
  | .sfsort => Sys2Proof.Machine.execSfsort s
  | .sfpart => Sys2Proof.Machine.execSfpart s
  | .sfbuild => Sys2Proof.Machine.execSfbuild s
  | .slGet imm => Sys2Proof.Machine.execSlGet imm s
  | .ctClear => Sys2Proof.Machine.execCtClear s
  | .ctAdd => Sys2Proof.Machine.execCtAdd s
  | .ctGet imm => Sys2Proof.Machine.execCtGet imm s
  | .ctFwd => Sys2Proof.Machine.execCtFwd s
  | .ctRev => Sys2Proof.Machine.execCtRev s
  | .encode => Sys2Proof.Machine.execEncode s
  | .tdecode => Sys2Proof.Machine.execTdecode s
  | .rdecode => Sys2Proof.Machine.execRdecode s

end Sys2Proof.Machine
end

