-- ==== Sys2Proof/Machine/Transact.lean ====
section
/-! DEFINITION. One transaction performed to its end (20_memory.md R80, R81, R88). -/

namespace Sys2Proof.Machine

open Sys2Proof

/-- A `Cmd(w)` transaction (R81): the word is decoded and the command executed, or ends with ILLEGAL (R105). -/
def runCommand (w : Word) (s : State) : Result :=
  match decode w with
  | .command i => exec i s
  | .illegal _ => takeIllegal s

/-- One transaction of the total order of rule R84. -/
def perform (t : Transaction) (s : State) : Result :=
  match t with
  | .cmd w => runCommand w s
  | .access a => .next (performAccess a s)
  | .reset => .next (hardwareReset s)

end Sys2Proof.Machine
end

