-- ==== Sys2Proof/Machine/Step.lean ====
section
/-! DEFINITION. One step of the block: the host's next transaction, performed to its end (20_memory.md R80, R81, R84).
There is no program counter and nothing is fetched from memory (10_state.md R21, R87). -/

namespace Sys2Proof.Machine

open Sys2Proof

/-- One step: the next transaction of the host's list; with none pending the block is idle and stays as it is (R282). -/
def step (s : State) : Host.Outcome State Fault Refusal :=
  match s.nextTransaction with
  | none => .next s
  | some (t, s') => perform t s'

/-- The state in which the host's next transaction is `Cmd` with the given opcode-table word (log entry 1). -/
def State.withFetchWord (s : State) (nbits w : Nat) : State :=
  { s with pending := .cmd (tableWord nbits w) :: s.pending }

end Sys2Proof.Machine
end

