-- ==== Sys2Proof/Machine/HostSide.lean ====
section
/-! DEFINITION. What the spec gives the host: the assembler's mnemonics, directives and macro-commands (30_encoding.md
R108 to R110), the persisted code table with the procedures that write and load it (44_code_table.md R232 to R234), and the
data flows (70_reset_and_hazards.md R293).
Each procedure is the list of transactions the host performs. No rule here is part of a step of the block. -/

namespace Sys2Proof.Machine

open Sys2Proof

/-! ## Assembler -/

/-- The mnemonic of a command (R108). -/
def mnemonic : Instr → String
  | .nop => "NOP"
  | .clear => "CLEAR"
  | .fcount => "FCOUNT"
  | .seglen => "SEGLEN"
  | .segment => "SEGMENT"
  | .ftGet _ => "FT_GET"
  | .hinit => "HINIT"
  | .hstep => "HSTEP"
  | .hbuild => "HBUILD"
  | .hcodes => "HCODES"
  | .ndGet _ => "ND_GET"
  | .pqGet _ => "PQ_GET"
  | .sfsort => "SFSORT"
  | .sfpart => "SFPART"
  | .sfbuild => "SFBUILD"
  | .slGet _ => "SL_GET"
  | .ctClear => "CT_CLEAR"
  | .ctAdd => "CT_ADD"
  | .ctGet _ => "CT_GET"
  | .ctFwd => "CT_FWD"
  | .ctRev => "CT_REV"
  | .encode => "ENCODE"
  | .tdecode => "TDECODE"
  | .rdecode => "RDECODE"

/-- The `Cmd` transaction of a command. -/
def command (i : Instr) : Transaction := .cmd (encode i)

/-- The addresses of the registers a directive names (R45). -/
def addrTxtLen : BitVec 8 := 0x04
/-- BIT_LEN's address (R45). -/
def addrBitLen : BitVec 8 := 0x05
/-- K_CLEN's address (R45). -/
def addrKClen : BitVec 8 := 0x0D
/-- SYMLEN's address (R45). -/
def addrSymLen : BitVec 8 := 0x02

/-- `CsrWr(a, v)`; the directive `.csr` (R109). -/
def csrDirective (a : BitVec 8) (v : Nat) : Transaction := .access (.csrWr a (word v))

/-- `BufWr(SPACE, i, ci)` for the characters from index `i` on (R109). -/
def writeChars (sp : Space) (i : Nat) : List Byte → List Transaction
  | [] => []
  | c :: cs => .access (.bufWr (spaceId sp) i (c.setWidth 32)) :: writeChars sp (i + 1) cs

/-- The directive `.text` (R109). -/
def textDirective (cs : List Byte) : List Transaction :=
  writeChars .txt 0 cs ++ [csrDirective addrTxtLen cs.length]

/-- The directive `.bits` (R109). -/
def bitsDirective (cs : List Byte) : List Transaction :=
  writeChars .bit 0 cs ++ [csrDirective addrBitLen cs.length]

/-- The directive `.ksym` (R109). -/
def ksymDirective (cs : List Byte) : List Transaction := writeChars .kSym 0 cs

/-- The directive `.kcode` (R109). -/
def kcodeDirective (cs : List Byte) : List Transaction :=
  writeChars .kCode 0 cs ++ [csrDirective addrKClen cs.length]

/-- The directive `.entry`: `.ksym`, `.kcode`, CT_ADD (R109). -/
def entryDirective (sym code : List Byte) : List Transaction :=
  ksymDirective sym ++ kcodeDirective code ++ [command .ctAdd]

/-- The read that the directive `.expect` checks (R109). -/
def expectDirective (a : BitVec 8) : Transaction := .access (.csrRd a)

/-- The reads that the directive `.expectbuf` checks, from element `i` on, `n` of them (R109). -/
def expectBufDirective (sp : Space) (i n : Nat) : List Transaction :=
  (List.range n).map (fun j => .access (.bufRd (spaceId sp) (i + j)))

/-- The macro HENC: Huffman encode (R110). -/
def henc : List Transaction := [command .fcount, command .hbuild, command .hcodes, command .encode]

/-- The macro SFENC: Shannon-Fano encode with the computed block length (R110). -/
def sfenc : List Transaction :=
  [command .seglen, command .segment, command .fcount, command .sfbuild, command .encode]

/-- The macro SFENC.L: Shannon-Fano encode with the BLKLEN the host wrote (R110). It is none of the seven flows of R293, which
calls each of those a macro of R110: the model takes R110's three names as all there are, and gives the flows as lists
without a name of the assembler's (DESIGN CHOICE, log entry 16). -/
def sfencL : List Transaction := [command .segment, command .fcount, command .sfbuild, command .encode]

/-! ## The persisted code table -/

/-- Colon, 0x3A (R9). -/
def charColon : Byte := 0x3A#8

/-- Line feed, 0x0A, the line terminator (R9, R232). -/
def charLineFeed : Byte := 0x0A#8

/-- A table line without its terminator: symbol, colon, space, code characters (R232). -/
def lineBody (e : CtEntry) : List Byte := e.sym ++ charColon :: charSpace :: codeChars e.code

/-- The persisted form of a table: its lines in <lex order, each with its terminator (R232, R233). -/
def tableText (ct : List CtEntry) : List Byte := ct.flatMap (fun e => lineBody e ++ [charLineFeed])

/-- The least index at which a colon-space stands, counting from `p` (R234). -/
def colonSpace (p : Nat) : List Byte → Option Nat
  | [] => none
  | [_] => none
  | a :: b :: cs => if a = charColon ∧ b = charSpace then some p else colonSpace (p + 1) (b :: cs)

/-- A line split "at the first colon-space" into symbol and code text; `none` where the line is malformed for symbols of
`symLen` characters (R234). -/
def parseLine (symLen : Nat) (line : List Byte) : Option (Symbol × List Byte) :=
  match colonSpace 0 line with
  | none => none
  | some p => if p = symLen then some (line.take p, line.drop (p + 2)) else none

/-- The lines of a text, without their terminators: `cur` holds the line in progress. R232 ends every line with its terminator
and the spec says nothing of a text that lacks the last one: characters after the last terminator are taken as a line
(DESIGN CHOICE, log entry 15). -/
def splitLines (cur : List Byte) : List Byte → List (List Byte)
  | [] => if cur = [] then [] else [cur]
  | c :: cs => if c = charLineFeed then cur :: splitLines [] cs else splitLines (cur ++ [c]) cs

/-- Loading a line: the symbol and the code text are staged and CT_ADD issued; a malformed line is not loaded (R234). -/
def loadLine (symLen : Nat) (line : List Byte) : List Transaction :=
  match parseLine symLen line with
  | none => []
  | some (sym, code) => entryDirective sym code

/-- The symbol length of a line: where its first colon-space stands, if that is a legal SYMLEN, 1 to LMAX (R26, R234). -/
def lineSymLen (line : List Byte) : Option Nat :=
  match colonSpace 0 line with
  | none => none
  | some p => if 1 ≤ p ∧ p ≤ Config.lmax then some p else none

/-- The block length the host learns "from the symbol length of the lines" (R234): that of the first line that has one. Which
line decides where they differ is the model's choice (DESIGN CHOICE, log entry 17); the others are then malformed. -/
def learnedSymLen (text : List Byte) : Option Nat := (splitLines [] text).findSome? lineSymLen

/-- Loading a persisted table of symbols of `symLen` characters (R234, R293): SYMLEN first, since its write empties CT, then
CT_CLEAR, then each line. The write of SYMLEN, in parentheses in R293, is always issued, also where SYMLEN holds the value
(DESIGN CHOICE, log entry 18). -/
def loadTable (symLen : Nat) (text : List Byte) : List Transaction :=
  csrDirective addrSymLen symLen :: command .ctClear :: (splitLines [] text).flatMap (loadLine symLen)

/-- Loading a table whose block length the host does not know, as a Shannon-Fano table's (R234): the length is learned from the
lines and written to SYMLEN before loading. A text no line of which has a symbol length has no line to load: CT is emptied
and SYMLEN left alone (log entry 17). -/
def loadTableLearning (text : List Byte) : List Transaction :=
  match learnedSymLen text with
  | none => [command .ctClear]
  | some symLen => loadTable symLen text

/-- Writing a table (R233), in the order R293 gives: for each rank CT_GET, then the reads of K_SYM, of K_CLEN and of K_CODE;
`ct` is what the host learns on the way. -/
def persistTable (ct : List CtEntry) (rank : Nat) : List Transaction :=
  match ct with
  | [] => []
  | e :: es =>
    command (.ctGet rank) ::
      (expectBufDirective .kSym 0 e.sym.length ++
        expectDirective addrKClen :: (expectBufDirective .kCode 0 e.code.length ++ persistTable es (rank + 1)))

/-! ## The data flows (R293; log entry 16)

Each is the list of the table's column "commands, in order". What its column "precondition" asks for, the host has done
before. "Huffman encode" is the macro HENC, "Shannon-Fano encode, L from entropy" the macro SFENC, and "persist a table"
`persistTable`. -/

/-- Huffman decode with the tree retained. -/
def huffmanDecodeTreeFlow : List Transaction := [command .tdecode]

/-- Huffman decode with the table. -/
def huffmanDecodeTableFlow : List Transaction := [command .rdecode]

/-- Shannon-Fano encode with a fixed block length: SYMLEN is written, which clears what is keyed by symbols, and the text is
not padded. The write, in parentheses in R293, is always issued, also where SYMLEN holds the value (DESIGN CHOICE, log
entry 18). -/
def shannonFanoFixedFlow (symLen : Nat) : List Transaction :=
  [csrDirective addrSymLen symLen, command .fcount, command .sfbuild, command .encode]

/-- Decode from a persisted table: the table is loaded, the bits written, and RDECODE issued. -/
def decodePersistedFlow (symLen : Nat) (text bits : List Byte) : List Transaction :=
  loadTable symLen text ++ bitsDirective bits ++ [command .rdecode]

end Sys2Proof.Machine
end

