-- ==== Sys2Proof/Safety.lean ====
section
/-! DEFINITION. The terms the claims are stated in: how a command ended, the invariants the spec states of the block
between commands (10_state.md R26 to R44), prefix-freeness, and what a clean run is (60_exceptions.md R261). -/

namespace Sys2Proof.Machine

open Sys2Proof

set_option autoImplicit false

/-! ## How a command ended -/

/-- The command that took `s` to `t` ended with code `c` and position `pos` (R268, R81): CODE and ERRPOS are written, ERR
is set by an error-class code and otherwise left, and the transaction returned the new STATUS. -/
structure Ended (s t : State) (c : Completion) (pos : Nat) : Prop where
  code : t.code = c
  errPos : t.errPos = BitVec.ofNat 32 pos
  err : t.err = (s.err || c.isError)
  response : t.response = some t.statusWord

/-- `s` with the record of how a command ended taken from `t`: CODE, ERR, ERRPOS and the value returned. -/
def State.endedAs (s t : State) : State :=
  { s with code := t.code, err := t.err, errPos := t.errPos, response := t.response }

/-- `t` is `s` but for the record of how the command ended: STATUS.CODE, STATUS.ERR, ERRPOS and what the host was
returned. -/
def OnlyEndingChanged (s t : State) : Prop := t = s.endedAs t

/-- A clean run leaves ERR clear: "a claim about a run of the block takes "ERR = 0 at the end" as the analogue of "no
fault recorded"" (R261). -/
def State.clean (s : State) : Bool := !s.err

/-- The completion codes each command can end with (R275). -/
def codesOfCommand : Instr → List Completion
  | .nop | .clear | .ctClear | .ctFwd => [.ok]
  | .fcount => [.ok, .noData, .badSeq, .capacity]
  | .seglen => [.ok, .noData]
  | .segment => [.ok, .noData, .badOperand, .capacity]
  | .ftGet _ | .ndGet _ | .pqGet _ | .ctGet _ => [.ok, .badOperand]
  | .hinit | .hbuild => [.ok, .noData, .badSeq]
  | .hstep => [.ok, .badSeq]
  | .hcodes => [.ok, .noData, .badSeq]
  | .sfsort | .sfbuild => [.ok, .noData]
  | .sfpart => [.ok, .noData, .badSeq]
  | .slGet _ => [.ok, .badSeq, .badOperand]
  | .ctAdd => [.ok, .badChar, .duplicate, .capacity]
  | .ctRev => [.ok, .badChar]
  | .encode => [.ok, .noData, .badSeq, .noSymbol, .capacity]
  | .tdecode => [.ok, .noData, .badSeq, .incomplete, .badChar, .capacity]
  | .rdecode => [.ok, .noData, .incomplete, .badChar, .capacity]

/-- Which stops are precondition stops (R269): every BADSEQ, BADOPERAND, DUPLICATE and ILLEGAL, CAPACITY in SEGMENT and
CT_ADD, BADCHAR in CT_ADD and CT_REV. -/
def preconditionStop (i : Instr) (c : Completion) : Bool :=
  match c with
  | .badSeq | .badOperand | .duplicate | .illegal => true
  | .capacity => i = .segment || i = .ctAdd
  | .badChar => i = .ctAdd || i = .ctRev
  | .ok | .noData | .noSymbol | .incomplete => false

/-- What a command may change beside the record of its ending: its destinations, as its rule lists them. All other
registers, structures and buffers of `t` are those of `s`. -/
def ChangesOnlyDestinations (i : Instr) (s t : State) : Prop :=
  let s' := s.endedAs t
  match i with
  | .nop => t = s'
  | .clear => t = { t with
      caps := s.caps, txt := s.txt, bit := s.bit, out := s.out, kSym := s.kSym, kCode := s.kCode,
      resets := s.resets, pending := s.pending }
  | .fcount => t = { s' with ft := t.ft, sl := t.sl }
  | .seglen => t = { s' with blkLen := t.blkLen }
  | .segment => t = { s' with
      txt := t.txt, txtLen := t.txtLen, symLen := t.symLen, ft := t.ft, sl := t.sl, tree := t.tree,
      nodes := t.nodes, queue := t.queue, root := t.root, ct := t.ct }
  | .ftGet _ => t = { s' with kSym := t.kSym, kCnt := t.kCnt }
  | .hinit | .hstep | .hbuild => t = { s' with nodes := t.nodes, queue := t.queue, root := t.root, tree := t.tree }
  | .hcodes => t = { s' with ct := t.ct }
  | .ndGet _ => t = { s' with nTag := t.nTag, nFreq := t.nFreq, nSym := t.nSym, nLeft := t.nLeft, nRight := t.nRight }
  | .pqGet _ => t = { s' with kIdx := t.kIdx }
  | .sfsort => t = { s' with sl := t.sl }
  | .sfpart => t = { s' with ct := t.ct }
  | .sfbuild => t = { s' with sl := t.sl, ct := t.ct }
  | .slGet _ => t = { s' with kIdx := t.kIdx }
  | .ctClear => t = { s' with ct := t.ct }
  | .ctAdd => t = { s' with ct := t.ct }
  | .ctGet _ => t = { s' with kSym := t.kSym, kCode := t.kCode, kClen := t.kClen }
  | .ctFwd => t = { s' with kCode := t.kCode, kClen := t.kClen, kIdx := t.kIdx, hit := t.hit }
  | .ctRev => t = { s' with kSym := t.kSym, kIdx := t.kIdx, hit := t.hit }
  | .encode => t = { s' with bit := t.bit, bitLen := t.bitLen }
  | .tdecode | .rdecode => t = { s' with out := t.out, outLen := t.outLen }

/-- The buffer elements a command that took `s` to `t` may have stored to: SEGMENT the padding (R150), ENCODE its output
(R224), the decoders theirs (R241, R245), the table-access commands the staged symbol and code (R152, R215, R217, R219).
Every other command stores nothing. -/
def StoresTo (i : Instr) (s t : State) (sp : Space) (k : Nat) : Prop :=
  match i with
  | .segment => sp = .txt ∧ s.txtLen.toNat ≤ k ∧ k < paddedLength s.txtLen.toNat s.blkLen.toNat
  | .encode => sp = .bit ∧ k < t.bitLen.toNat
  | .tdecode | .rdecode => sp = .out ∧ k < t.outLen.toNat
  | .ftGet _ | .ctRev => sp = .kSym ∧ k < s.symLen.toNat
  | .ctGet _ => (sp = .kSym ∧ k < s.symLen.toNat) ∨ (sp = .kCode ∧ k < t.kClen.toNat)
  | .ctFwd => sp = .kCode ∧ k < t.kClen.toNat
  | .nop | .clear | .fcount | .seglen | .hinit | .hstep | .hbuild | .hcodes | .ndGet _ | .pqGet _ | .sfsort
  | .sfpart | .sfbuild | .slGet _ | .ctClear | .ctAdd => False

/-! ## Sequences of commands -/

/-- Commands executed one after the other, each on what the one before it left (R84). -/
def execAll : List Instr → State → Result
  | [], s => .next s
  | i :: is, s =>
    match exec i s with
    | .next t => execAll is t
    | r => r

/-! ## Codes -/

/-- A set of codes, listed, is prefix-free: no member is a prefix of another member (R11). -/
def PrefixFree (codes : List Code) : Prop := codes.Pairwise (fun c d => ¬ c <+: d ∧ ¬ d <+: c)

/-- Symbols in strictly ascending <lex order (R10). -/
def SymbolsAscend (syms : List Symbol) : Prop := syms.Pairwise (fun a b => symLt a b = true)

/-! ## The invariants -/

/-- The constraints of rule R6 on an instance's capacities. -/
structure CapacitiesLegal (c : Capacities) : Prop where
  txt : 1 ≤ c.txt.toNat
  bit : 1 ≤ c.bit.toNat
  out : 1 ≤ c.out.toNat
  symLow : 256 ≤ c.sym.toNat
  symHigh : c.sym.toNat ≤ 2 ^ 23

/-- The legal values of the length registers (R26, R28, R42). -/
structure LengthsLegal (s : State) : Prop where
  symLenPos : 1 ≤ s.symLen.toNat
  symLenMax : s.symLen.toNat ≤ 256
  txtLen : s.txtLen.toNat ≤ s.caps.txt.toNat
  bitLen : s.bitLen.toNat ≤ s.caps.bit.toNat
  outLen : s.outLen.toNat ≤ s.caps.out.toNat
  kClen : s.kClen.toNat ≤ codeMax s.caps

/-- The written elements of a space are listed once each, indices rising. -/
def MemoriesCanonical (s : State) : Prop := ∀ sp : Space, Memory.wf (s.memory sp)

/-- Every written element lies inside its space (R70). -/
def MemoriesInside (s : State) : Prop := ∀ (sp : Space) (c : Host.Cell), c ∈ s.memory sp → c.1 < spaceSize s.caps sp

/-- The invariants of FT (R29) with its size (R6, R16). -/
structure FtInvariant (s : State) : Prop where
  ascend : SymbolsAscend (s.ft.map FtEntry.sym)
  symLength : ∀ e ∈ s.ft, e.sym.length = s.symLen.toNat
  positive : ∀ e ∈ s.ft, 1 ≤ e.cnt
  size : s.ft.length ≤ s.caps.sym.toNat
  total : ftTotal s.ft ≤ s.caps.txt.toNat

/-- A valid SL is the permutation of 0 … FT_N−1 sorted by count descending, entry index ascending (R33, R191). -/
def SlInvariant (s : State) : Prop :=
  ∀ l, s.sl = some l →
    l.Perm (List.range s.ft.length) ∧ l.Pairwise (fun i j => sortsBefore s.ft i j = true)

/-- The invariants of CT (R41) with its size (R40) and symbol length (R212). -/
structure CtInvariant (s : State) : Prop where
  ascend : SymbolsAscend (s.ct.map CtEntry.sym)
  symLength : ∀ e ∈ s.ct, e.sym.length = s.symLen.toNat
  codesDiffer : (s.ct.map CtEntry.code).Nodup
  codeLength : ∀ e ∈ s.ct, e.code.length ≤ codeMax s.caps
  size : s.ct.length ≤ s.caps.sym.toNat

/-- Record `i` has record `k` as a child. -/
def ChildOf (nodes : List Node) (k i : Nat) : Prop :=
  ∃ f l r, nodes[i]? = some (Node.internal f l r) ∧ (k = l ∨ k = r)

/-- The invariants of the node arena (R30) and of the queue (R32) while there are nodes: `n` is the number of leaves. -/
structure Forest (n : Nat) (nodes : List Node) (queue : List Nat) : Prop where
  leavesPos : 1 ≤ n
  leavesMax : n ≤ 256
  leaves : ∀ i, i < n → ∃ f c, nodes[i]? = some (Node.leaf f c)
  leavesAscend : ∀ (i j f g : Nat) (c d : Byte), i < j → nodes[i]? = some (Node.leaf f c) →
    nodes[j]? = some (Node.leaf g d) → c.toNat < d.toNat
  internals : ∀ i, n ≤ i → i < nodes.length → ∃ l r, nodes[i]? = some (Node.internal (freqOf nodes l + freqOf nodes r) l r) ∧
    l < i ∧ r < i ∧ l ≠ r
  oneParent : ∀ k i j, ChildOf nodes k i → ChildOf nodes k j → i = j
  count : queue.length + nodes.length = 2 * n
  queueRising : queue.Pairwise (· < ·)
  queueRoots : ∀ k, k ∈ queue ↔ k < nodes.length ∧ ∀ i, ¬ ChildOf nodes k i
  mass : (queue.map (freqOf nodes)).sum < 2 ^ 32
  freqs : ∀ m ∈ nodes, m.freq < 2 ^ 32

/-- The states of the Huffman tree (R31). -/
structure TreeInvariant (s : State) : Prop where
  bare : s.tree = .none ∨ s.tree = .empty → s.nodes = [] ∧ s.queue = [] ∧ s.root = NIL
  overCharacters : s.tree ≠ .none → s.symLen = 1#32
  forest : s.tree = .building ∨ s.tree = .valid → ∃ n, Forest n s.nodes s.queue
  building : s.tree = .building → 2 ≤ s.queue.length ∧ s.root = NIL
  valid : s.tree = .valid → s.queue = [s.nodes.length - 1] ∧ s.root = BitVec.ofNat 32 (s.nodes.length - 1)

/-- What holds of the block between any two transactions, from any legal instance's reset on. -/
structure Invariant (s : State) : Prop where
  caps : CapacitiesLegal s.caps
  lengths : LengthsLegal s
  canonical : MemoriesCanonical s
  inside : MemoriesInside s
  ft : FtInvariant s
  sl : SlInvariant s
  ct : CtInvariant s
  tree : TreeInvariant s

/-! ## The tree as paths -/

/-- Where the bits lead from record `i`, left on 0 and right on 1; `none` where a bit leads past a leaf (R170, R241). -/
def follow (nodes : List Node) (i : Nat) : Code → Option Nat
  | [] => some i
  | b :: bs =>
    match nodes[i]? with
    | some (.internal _ l r) => follow nodes (if b then r else l) bs
    | _ => none

/-- Read from the root, `code` ends at a leaf of character `x`: a non-empty root path, or the one bit 0 where the root is
itself the leaf (R241, R242). -/
def EndsAtLeaf (s : State) (x : Byte) (code : Code) : Prop :=
  (∃ f, s.nodes[s.root.toNat]? = some (Node.leaf f x) ∧ code = [false]) ∨
  (∃ k f, code ≠ [] ∧ follow s.nodes s.root.toNat code = some k ∧ s.nodes[k]? = some (Node.leaf f x))

/-- The leaves' characters in the order of the arena. -/
def leafSymbols (nodes : List Node) : List Symbol :=
  nodes.filterMap (fun n => match n with
    | .leaf _ c => some [c]
    | .internal _ _ _ => none)

/-! ## The code table as a map -/

/-- The codes of a sequence of symbols through CT, one for each (R224). -/
def CodesOf (ct : List CtEntry) (syms : List Symbol) (codes : List Code) : Prop :=
  List.Forall₂ (fun k c => (⟨k, c⟩ : CtEntry) ∈ ct) syms codes

/-- RDECODE matches a code at the moment its last bit is read: the code is not empty (R247), and no other non-empty code of
CT is a prefix of it (R246). -/
def MatchedFirst (ct : List CtEntry) (code : Code) : Prop :=
  code ≠ [] ∧ ∀ d ∈ ct.map CtEntry.code, d ≠ [] → d <+: code → d = code

/-- CT can be decoded unambiguously: its codes are prefix-free and none is empty (R225, R306). -/
def Decodable (ct : List CtEntry) : Prop :=
  PrefixFree (ct.map CtEntry.code) ∧ ∀ e ∈ ct, e.code ≠ []

end Sys2Proof.Machine
end

