-- ==== Sys2Proof/Certificates/Slice0/Obligations.lean ====
section
/-! DEFINITION. The statements for the provers, from the numbered rules of spec/. -/

open Sys2Proof Sys2Proof.Machine

set_option autoImplicit false

/-! ## Encoding -/

/-- Words written out from the opcode map of 30_encoding.md R104 and the formats R101, R102 decode to their commands. -/
def Obligations.SpecWordsDecode : Prop :=
  decode 0x00000000#32 = .command .nop ∧
  decode 0x00000012#32 = .command .segment ∧
  decode 0x00000113#32 = .command (.ftGet 1) ∧
  decode 0x00000021#32 = .command .hstep ∧
  decode 0x00000424#32 = .command (.ndGet 4) ∧
  decode 0x00000233#32 = .command (.slGet 2) ∧
  decode 0x00000041#32 = .command .ctAdd ∧
  decode 0xFFFFFF42#32 = .command (.ctGet 16777215) ∧
  decode 0x00000051#32 = .command .rdecode ∧
  decode 0x00000100#32 = .illegal .operandOfFormatN

/-- Decoding the word of a well-formed command gives the command back, every operand at every value the immediate
admits. -/
def Obligations.DecodeOfEncodeIsTheCommand : Prop :=
  ∀ i : Instr, i.wellFormed = true → decode (encode i) = .command i

/-- A word that decodes to a command is the one word of that command, so no two words decode to the same command with the
same operand (R106). -/
def Obligations.EncodeOfDecodeIsTheWord : Prop :=
  ∀ (w : Word) (i : Instr), decode w = .command i → i.wellFormed = true ∧ encode i = w

/-- Rule R105: which words are illegal, and what an illegal word does. -/
def Obligations.IllegalWordsAndTheirEffect : Prop :=
  (∀ w : Word, (∃ why, decode w = .illegal why) ↔
    (let op := w.toNat % 256
     (0x02 ≤ op ∧ op ≤ 0x0F) ∨ (0x14 ≤ op ∧ op ≤ 0x1F) ∨ (0x26 ≤ op ∧ op ≤ 0x2F) ∨ (0x34 ≤ op ∧ op ≤ 0x3F) ∨
     (0x46 ≤ op ∧ op ≤ 0x4F) ∨ (0x52 ≤ op ∧ op ≤ 0xFF) ∨
     (op ∈ [0x00, 0x01, 0x10, 0x11, 0x12, 0x20, 0x21, 0x22, 0x23, 0x30, 0x31, 0x32, 0x40, 0x41, 0x43, 0x44, 0x45, 0x50,
       0x51] ∧ w.toNat / 256 ≠ 0))) ∧
  (∀ (s : State) (w : Word) (rest : List Transaction), (∃ why, decode w = .illegal why) → s.pending = .cmd w :: rest →
    ∃ t, step s = .next t ∧ Ended s t .illegal 0 ∧ OnlyEndingChanged { s with pending := rest } t)

/-! ## Steps -/

/-- A step whose next transaction is the word of a command runs that command on the state with the transaction taken off
the host's list; with the word placed by `withFetchWord` it runs the command on the state itself. That the list
stands in State is the model's choice (log entry 1). -/
def Obligations.StepRunsTheDecodedCommand : Prop :=
  (∀ (s : State) (w : Word) (rest : List Transaction) (i : Instr), s.pending = .cmd w :: rest →
    decode w = .command i → step s = exec i { s with pending := rest }) ∧
  (∀ (s : State) (w : Word) (i : Instr), decode w = .command i → step (s.withFetchWord 32 w.toNat) = exec i s)

/-- Every step answers a next state: no command fails to end and the block refuses nothing (R13, R15). The capacities of the
instance are constants (R44): no step changes them. -/
def Obligations.EveryStepAnswersNext : Prop :=
  ∀ s : State, ∃ t, step s = .next t ∧ t.caps = s.caps

/-! ## Reset and the host's transactions -/

/-- Rule R290 with R50: what reset leaves, whatever the block held, and what the reference instance starts from. The
elements of the buffer spaces are unspecified and nothing is said of them. -/
def Obligations.ResetLeavesTheResetValues : Prop :=
  (∀ (s : State) (rest : List Transaction), s.pending = .reset :: rest →
    ∃ t, step s = .next t ∧ t.statusWord = 0#32 ∧ t.errPos = 0#32 ∧ t.symLen = 1#32 ∧ t.blkLen = 1#32 ∧
      t.txtLen = 0#32 ∧ t.bitLen = 0#32 ∧ t.outLen = 0#32 ∧ t.ft = [] ∧ t.ct = [] ∧ t.nodes = [] ∧ t.queue = [] ∧
      t.root = 0xFFFFFFFF#32 ∧ t.kClen = 0#32 ∧ t.kCnt = 0#32 ∧ t.kIdx = 0#32 ∧ t.nTag = 0#32 ∧ t.nFreq = 0#32 ∧
      t.nSym = 0#32 ∧ t.nLeft = 0xFFFFFFFF#32 ∧ t.nRight = 0xFFFFFFFF#32 ∧ t.caps = s.caps ∧ t.pending = rest) ∧
  (let t := State.reset
   t.statusWord = 0#32 ∧ t.errPos = 0#32 ∧ t.symLen = 1#32 ∧ t.blkLen = 1#32 ∧ t.txtLen = 0#32 ∧ t.bitLen = 0#32 ∧
   t.outLen = 0#32 ∧ t.ft = [] ∧ t.ct = [] ∧ t.nodes = [] ∧ t.queue = [] ∧ t.root = 0xFFFFFFFF#32 ∧ t.kClen = 0#32 ∧
   t.kCnt = 0#32 ∧ t.kIdx = 0#32 ∧ t.nTag = 0#32 ∧ t.nFreq = 0#32 ∧ t.nSym = 0#32 ∧ t.nLeft = 0xFFFFFFFF#32 ∧
   t.nRight = 0xFFFFFFFF#32 ∧ t.caps.txt = 65536#32 ∧ t.caps.bit = 1048576#32 ∧ t.caps.out = 65536#32 ∧
   t.caps.sym = 1024#32)

/-- Rules R45, R46, R23: what a read of each control register returns, STATUS by its fields; a reserved address returns 0; a
read changes nothing. -/
def Obligations.RegisterReadsFollowTheMap : Prop :=
  ∀ (s : State) (a : BitVec 8) (rest : List Transaction), s.pending = .access (.csrRd a) :: rest →
    ∃ v t, step s = .next t ∧ t = { s with pending := rest, response := some v } ∧
      (a = 0x00 → v.extractLsb' 0 4 = s.code.value ∧ v.extractLsb' 4 1 = BitVec.ofBool s.err ∧
        v.extractLsb' 5 1 = BitVec.ofBool s.hit ∧ v.extractLsb' 6 2 = s.tree.value ∧
        v.extractLsb' 8 1 = BitVec.ofBool s.sl.isSome ∧ v.extractLsb' 9 23 = 0#23 ∧ v = s.statusWord) ∧
      (a = 0x01 → v = s.errPos) ∧ (a = 0x02 → v = s.symLen) ∧ (a = 0x03 → v = s.blkLen) ∧
      (a = 0x04 → v = s.txtLen) ∧ (a = 0x05 → v = s.bitLen) ∧ (a = 0x06 → v = s.outLen) ∧
      (a = 0x07 → v = BitVec.ofNat 32 s.ft.length) ∧ (a = 0x08 → v = BitVec.ofNat 32 ((s.ft.map FtEntry.cnt).sum)) ∧
      (a = 0x09 → v = BitVec.ofNat 32 s.ct.length) ∧ (a = 0x0A → v = BitVec.ofNat 32 s.nodes.length) ∧
      (a = 0x0B → v = s.root) ∧ (a = 0x0C → v = BitVec.ofNat 32 s.queue.length) ∧ (a = 0x0D → v = s.kClen) ∧
      (a = 0x0E → v = s.kCnt) ∧ (a = 0x0F → v = s.kIdx) ∧ (a = 0x10 → v = s.nTag) ∧ (a = 0x11 → v = s.nFreq) ∧
      (a = 0x12 → v = s.nSym) ∧ (a = 0x13 → v = s.nLeft) ∧ (a = 0x14 → v = s.nRight) ∧ (a = 0x18 → v = s.caps.txt) ∧
      (a = 0x19 → v = s.caps.bit) ∧ (a = 0x1A → v = s.caps.out) ∧ (a = 0x1B → v = s.caps.sym) ∧
      ((0x15 ≤ a.toNat ∧ a.toNat ≤ 0x17) ∨ 0x1C ≤ a.toNat → v = 0#32)

/-- Rule R26: a host write of a legal value to SYMLEN stores it and clears everything keyed by symbols, also when the value
is the one held; nothing else changes. A write of 0 or of a value above 256 changes nothing. SEGMENT's write of SYMLEN
clears the same. -/
def Obligations.SymLenWriteClearsSymbolKeyed : Prop :=
  (∀ (s : State) (v : Word) (rest : List Transaction), s.pending = .access (.csrWr 0x02 v) :: rest →
    (1 ≤ v.toNat ∧ v.toNat ≤ 256 →
      step s = .next { s with
          symLen := v, ft := [], sl := none, tree := .none, nodes := [], queue := [], root := 0xFFFFFFFF#32,
          ct := [], pending := rest, response := none }) ∧
    (v.toNat = 0 ∨ 256 < v.toNat → step s = .next { s with pending := rest, response := none })) ∧
  ∀ (s t : State), exec .segment s = .next t → t.code = .ok ∨ t.code = .noData →
    t.symLen = s.blkLen ∧ t.ft = [] ∧ t.sl = none ∧ t.tree = .none ∧ t.nodes = [] ∧ t.queue = [] ∧
    t.root = 0xFFFFFFFF#32 ∧ t.ct = []

/-- Rule R47: a host write to SYMLEN, TXT_LEN, BIT_LEN or K_CLEN of a value outside the legal range is ignored whole, BLKLEN
takes every value, a legal value is stored with no side effect but SYMLEN's (R26), and a write to a read-only or reserved
address is ignored. -/
def Obligations.RegisterWritesTakeLegalValuesOnly : Prop :=
  ∀ (s : State) (a : BitVec 8) (v : Word) (rest : List Transaction), s.pending = .access (.csrWr a v) :: rest →
    let u := { s with pending := rest, response := none }
    (a = 0x02 → v.toNat = 0 ∨ 256 < v.toNat → step s = .next u) ∧
    (a = 0x03 → step s = .next { u with blkLen := v }) ∧
    (a = 0x04 → v.toNat ≤ s.caps.txt.toNat → step s = .next { u with txtLen := v }) ∧
    (a = 0x04 → s.caps.txt.toNat < v.toNat → step s = .next u) ∧
    (a = 0x05 → v.toNat ≤ s.caps.bit.toNat → step s = .next { u with bitLen := v }) ∧
    (a = 0x05 → s.caps.bit.toNat < v.toNat → step s = .next u) ∧
    (a = 0x0D → v.toNat ≤ s.caps.sym.toNat - 1 → step s = .next { u with kClen := v }) ∧
    (a = 0x0D → s.caps.sym.toNat - 1 < v.toNat → step s = .next u) ∧
    (a ∉ [0x02, 0x03, 0x04, 0x05, 0x0D] → step s = .next u)

/-- Rule R83, with the 32-bit returned value of log entry 8 (the spec leaves the bus width open): `BufWr` stores the
low eight bits in the one element it names and nothing else changes; `BufRd` returns the
element zero-extended and changes nothing; at a reserved space or at or above the space's element count, and for a write
to OUT, a write is ignored and a read returns 0. -/
def Obligations.BufferAccessesReachOneElement : Prop :=
  (∀ (s : State) (id : BitVec 8) (k : Nat) (v : Word) (rest : List Transaction),
    s.pending = .access (.bufWr id k v) :: rest →
    ∃ t, step s = .next t ∧
      t = { s with
          pending := rest, response := none, txt := t.txt, bit := t.bit, out := t.out, kSym := t.kSym,
          kCode := t.kCode } ∧
      ∀ (sp : Space) (j : Nat), t.element sp j =
        if (sp = .txt ∧ id = 0 ∧ k < s.caps.txt.toNat ∨ sp = .bit ∧ id = 1 ∧ k < s.caps.bit.toNat ∨
            sp = .kSym ∧ id = 3 ∧ k < 256 ∨ sp = .kCode ∧ id = 4 ∧ k < s.caps.sym.toNat - 1) ∧ j = k
        then v.extractLsb' 0 8 else s.element sp j) ∧
  (∀ (s : State) (id : BitVec 8) (k : Nat) (rest : List Transaction), s.pending = .access (.bufRd id k) :: rest →
    ∃ v, step s = .next { s with pending := rest, response := some v } ∧
      (id = 0 → k < s.caps.txt.toNat → v = (s.element .txt k).setWidth 32) ∧
      (id = 1 → k < s.caps.bit.toNat → v = (s.element .bit k).setWidth 32) ∧
      (id = 2 → k < s.caps.out.toNat → v = (s.element .out k).setWidth 32) ∧
      (id = 3 → k < 256 → v = (s.element .kSym k).setWidth 32) ∧
      (id = 4 → k < s.caps.sym.toNat - 1 → v = (s.element .kCode k).setWidth 32) ∧
      (id = 0 → s.caps.txt.toNat ≤ k → v = 0#32) ∧ (id = 1 → s.caps.bit.toNat ≤ k → v = 0#32) ∧
      (id = 2 → s.caps.out.toNat ≤ k → v = 0#32) ∧ (id = 3 → 256 ≤ k → v = 0#32) ∧
      (id = 4 → s.caps.sym.toNat - 1 ≤ k → v = 0#32) ∧ (5 ≤ id.toNat → v = 0#32))

/-- No host transaction that is not a command changes CODE, ERR, HIT or ERRPOS (R23, R82). -/
def Obligations.AccessesKeepTheCompletionRecord : Prop :=
  ∀ (s : State) (a : Access) (rest : List Transaction), s.pending = .access a :: rest →
    ∃ t, step s = .next t ∧ t.code = s.code ∧ t.err = s.err ∧ t.hit = s.hit ∧ t.errPos = s.errPos ∧
      t.pending = rest ∧ t.caps = s.caps ∧ t.out = s.out

/-! ## How commands end -/

/-- Rule R275: the codes each command can end with, and ILLEGAL for an illegal word. -/
def Obligations.CommandsEndOnlyWithTheirCodes : Prop :=
  (∀ (i : Instr) (s t : State), exec i s = .next t → t.code ∈ codesOfCommand i) ∧
  (∀ (w : Word) (s t : State), (∃ why, decode w = .illegal why) → runCommand w s = .next t → t.code = .illegal)

/-- Rule R261: an error-class code sets ERR, an illegal word's too; a success-class code leaves it, and only reset and CLEAR
clear it. -/
def Obligations.ErrIsStickyUntilResetOrClear : Prop :=
  (∀ (i : Instr) (s t : State), exec i s = .next t →
    (t.code ∉ [.ok, .noData] → t.err = true) ∧
    (t.code ∈ [.ok, .noData] → i ≠ .clear → t.err = s.err) ∧
    (i = .clear → t.err = false)) ∧
  (∀ (w : Word) (s t : State), (∃ why, decode w = .illegal why) → runCommand w s = .next t → t.err = true) ∧
  (∀ (s t : State), step s = .next t → s.err = true → t.err = false →
    (∃ rest, s.pending = .reset :: rest) ∨
    (∃ w rest, s.pending = .cmd w :: rest ∧ decode w = .command .clear))

/-- What every command leaves as the record of its end (R268, R24, R81): ERRPOS is 0 after OK and NODATA and after the
codes without a position, and the host is returned the new STATUS, in the model's own field (log entry 2). -/
def Obligations.EveryCommandRecordsItsEnd : Prop :=
  ∀ (i : Instr) (s t : State), exec i s = .next t →
    t.response = some t.statusWord ∧
    (t.code ∈ [.ok, .noData, .badSeq, .badOperand, .duplicate] → t.errPos = 0#32)

/-- The first kind of rule R269: a precondition stop leaves the whole state but STATUS.CODE, STATUS.ERR and ERRPOS as
before. -/
def Obligations.PreconditionStopsChangeNothing : Prop :=
  ∀ (i : Instr) (s t : State), exec i s = .next t → preconditionStop i t.code = true → OnlyEndingChanged s t

/-- No command changes a register or structure that its rule does not list among its destinations. -/
def Obligations.CommandsChangeOnlyTheirDestinations : Prop :=
  ∀ (i : Instr) (s t : State), exec i s = .next t → ChangesOnlyDestinations i s t

/-- No command changes a buffer element outside the range its rule stores to; sixteen commands store nothing at all. -/
def Obligations.BufferElementsChangeOnlyWhereStored : Prop :=
  ∀ (i : Instr) (s t : State), Invariant s → exec i s = .next t →
    ∀ (sp : Space) (k : Nat), ¬ StoresTo i s t sp k → t.element sp k = s.element sp k

/-- Rule R270: exactly when a command ends with BADSEQ, and that nothing changes then. -/
def Obligations.BadSeqExactlyInTheseCases : Prop :=
  ∀ (i : Instr) (s t : State), Invariant s → exec i s = .next t →
    (t.code = .badSeq → OnlyEndingChanged s t) ∧
    (t.code = .badSeq ↔
      ((i = .fcount ∨ i = .encode) ∧ ¬ s.symLen.toNat ∣ s.txtLen.toNat) ∨
      ((i = .hinit ∨ i = .hbuild) ∧ s.symLen ≠ 1#32) ∨
      (i = .hstep ∧ s.tree ≠ .building) ∨
      ((i = .hcodes ∨ i = .tdecode) ∧ (s.tree = .none ∨ s.tree = .building)) ∨
      ((i = .sfpart ∨ ∃ imm, i = .slGet imm) ∧ s.sl = none))

/-- Rule R271: exactly when a command ends with BADOPERAND, and that nothing changes then; SL_GET tests SLV first
(R201). -/
def Obligations.BadOperandExactlyInTheseCases : Prop :=
  ∀ (i : Instr) (s t : State), Invariant s → exec i s = .next t →
    (t.code = .badOperand → OnlyEndingChanged s t) ∧
    (t.code = .badOperand ↔
      (∃ imm, i = .ftGet imm ∧ s.ft.length ≤ imm) ∨
      (∃ imm, i = .ndGet imm ∧ s.nodes.length ≤ imm) ∨
      (∃ imm, i = .pqGet imm ∧ s.queue.length ≤ imm) ∨
      (∃ imm, i = .slGet imm ∧ s.sl ≠ none ∧ s.ft.length ≤ imm) ∨
      (∃ imm, i = .ctGet imm ∧ s.ct.length ≤ imm) ∨
      (i = .segment ∧ (s.blkLen.toNat = 0 ∨ 256 < s.blkLen.toNat)))

/-- Rule R263: exactly when a command ends with NODATA: its primary input is empty, its preconditions having passed; and
the empty result each command then leaves. -/
def Obligations.NoDataExactlyOnEmptyInput : Prop :=
  ∀ (i : Instr) (s t : State), Invariant s → exec i s = .next t →
    (t.code = .noData ↔
      ((i = .fcount ∨ i = .seglen ∨ i = .encode) ∧ s.txtLen = 0#32) ∨
      (i = .segment ∧ s.txtLen = 0#32 ∧ 1 ≤ s.blkLen.toNat ∧ s.blkLen.toNat ≤ 256) ∨
      ((i = .hinit ∨ i = .hbuild) ∧ s.symLen = 1#32 ∧ s.ft = []) ∨
      (i = .hcodes ∧ s.tree = .empty) ∨
      ((i = .sfsort ∨ i = .sfbuild) ∧ s.ft = []) ∨
      (i = .sfpart ∧ s.sl ≠ none ∧ s.ft = []) ∨
      (i = .tdecode ∧ (s.tree = .empty ∨ s.tree = .valid) ∧ s.bitLen = 0#32) ∨
      (i = .rdecode ∧ s.bitLen = 0#32)) ∧
    (t.code = .noData →
      (i = .fcount → t.ft = []) ∧ (i = .seglen → t.blkLen = 1#32) ∧
      (i = .segment → t.txtLen = 0#32 ∧ t.symLen = s.blkLen) ∧
      (i = .hinit ∨ i = .hbuild → t.tree = .empty ∧ t.nodes = []) ∧ (i = .hcodes → t.ct = []) ∧
      (i = .sfsort → t.sl = some []) ∧ (i = .sfpart ∨ i = .sfbuild → t.ct = []) ∧ (i = .encode → t.bitLen = 0#32) ∧
      (i = .tdecode ∨ i = .rdecode → t.outLen = 0#32))

/-! ## Control commands -/

/-- Rules R131, R211: NOP changes nothing but the record of its end; CT_CLEAR empties the code table and nothing else. -/
def Obligations.NopAndCtClear : Prop :=
  decode 0x00000000#32 = .command .nop ∧
  (∀ s : State, ∃ t, exec .nop s = .next t ∧ Ended s t .ok 0 ∧ OnlyEndingChanged s t) ∧
  decode 0x00000040#32 = .command .ctClear ∧
  ∀ s : State, ∃ t, exec .ctClear s = .next t ∧ Ended s t .ok 0 ∧
    t = { s.endedAs t with ct := [] }

/-- Rule R132: CLEAR puts every register at its reset value, keeps every buffer element, and ends with STATUS = 0. -/
def Obligations.ClearResetsRegistersKeepsBuffers : Prop :=
  decode 0x00000001#32 = .command .clear ∧
  ∀ s : State, ∃ t, exec .clear s = .next t ∧ t.response = some 0#32 ∧
    t.code = .ok ∧ t.err = false ∧ t.hit = false ∧ t.tree = .none ∧ t.sl = none ∧ t.statusWord = 0#32 ∧
    t.errPos = 0#32 ∧ t.symLen = 1#32 ∧ t.blkLen = 1#32 ∧ t.txtLen = 0#32 ∧ t.bitLen = 0#32 ∧ t.outLen = 0#32 ∧
    t.ft = [] ∧ t.ct = [] ∧ t.nodes = [] ∧ t.queue = [] ∧ t.root = 0xFFFFFFFF#32 ∧ t.kClen = 0#32 ∧ t.kCnt = 0#32 ∧
    t.kIdx = 0#32 ∧ t.nTag = 0#32 ∧ t.nFreq = 0#32 ∧ t.nSym = 0#32 ∧ t.nLeft = 0xFFFFFFFF#32 ∧
    t.nRight = 0xFFFFFFFF#32 ∧ t.caps = s.caps ∧ t.pending = s.pending ∧
    ∀ (sp : Space) (k : Nat), t.element sp k = s.element sp k

/-! ## Frequency Counter and Block Segmenter -/

/-- Rules R141, R142: FCOUNT's table holds each distinct symbol of the text once, with its count, in <lex order; it stops
with CAPACITY at the first symbol that would be the (SYM_CAP + 1)-th distinct one, with the table of the symbols before it. -/
def Obligations.FcountCountsTheSymbols : Prop :=
  decode 0x00000010#32 = .command .fcount ∧
  (∀ s : State, s.txtLen.toNat % s.symLen.toNat = 0 → s.textSymbols.dedup.length ≤ s.caps.sym.toNat →
    ∃ t, exec .fcount s = .next t ∧ Ended s t (if s.textSymbols = [] then .noData else .ok) 0 ∧
      t = { s.endedAs t with ft := t.ft, sl := none } ∧
      SymbolsAscend (t.ft.map FtEntry.sym) ∧
      (∀ e : FtEntry, e ∈ t.ft ↔ e.sym ∈ s.textSymbols ∧ e.cnt = s.textSymbols.count e.sym) ∧
      (t.ft.map FtEntry.cnt).sum = s.txtLen.toNat / s.symLen.toNat) ∧
  (∀ s : State, s.txtLen.toNat % s.symLen.toNat ≠ 0 →
    ∃ t, exec .fcount s = .next t ∧ Ended s t .badSeq 0 ∧ OnlyEndingChanged s t) ∧
  (∀ (s : State) (before after : List Symbol) (k : Symbol), s.txtLen.toNat % s.symLen.toNat = 0 →
    s.textSymbols = before ++ k :: after → k ∉ before → before.dedup.length = s.caps.sym.toNat →
    ∃ t, exec .fcount s = .next t ∧ Ended s t .capacity (before.length * s.symLen.toNat) ∧
      t = { s.endedAs t with ft := t.ft, sl := none } ∧
      SymbolsAscend (t.ft.map FtEntry.sym) ∧
      (∀ e : FtEntry, e ∈ t.ft ↔ e.sym ∈ before ∧ e.cnt = before.count e.sym) ∧
      (t.ft.map FtEntry.cnt).sum = before.length)

/-- Rules R145, R147: SEGLEN writes the greatest integer k ≥ 1 with k^N · Π n_c^(n_c) ≤ N^N, over all integers and not
only those the model searches (log entry 12); the empty text gives 1 and NODATA. -/
def Obligations.SeglenIsTheGreatestPassingInteger : Prop :=
  decode 0x00000011#32 = .command .seglen ∧
  (∀ s : State, s.txtLen = 0#32 → ∃ t, exec .seglen s = .next t ∧ Ended s t .noData 0 ∧
    t = { s.endedAs t with blkLen := 1#32 }) ∧
  (∀ s : State, s.txtLen ≠ 0#32 → ∃ t, exec .seglen s = .next t ∧ Ended s t .ok 0 ∧
    t = { s.endedAs t with blkLen := t.blkLen } ∧
    (let n : Nat → Nat := fun c => (s.text.filter (fun x => x.toNat = c)).length
     let passes : Nat → Prop := fun k =>
       k ^ s.txtLen.toNat * (Finset.range 256).prod (fun c => n c ^ n c) ≤ s.txtLen.toNat ^ s.txtLen.toNat
     1 ≤ t.blkLen.toNat ∧ passes t.blkLen.toNat ∧ ∀ k : Nat, passes k → k ≤ t.blkLen.toNat))

/-- Rule R146: BLKLEN is the mathematical floor of the real number 2^H, H = −Σ p(c)·log2 p(c) over the observed
characters. -/
def Obligations.SeglenIsTheFloorOfTwoToTheEntropy : Prop :=
  ∀ (s t : State), s.txtLen ≠ 0#32 → exec .seglen s = .next t →
    (let p : Nat → ℝ := fun c => ((s.text.filter (fun x => x.toNat = c)).length : ℝ) / (s.txtLen.toNat : ℝ)
     let observed := (Finset.range 256).filter (fun c => (s.text.filter (fun x => x.toNat = c)).length ≠ 0)
     let H : ℝ := - observed.sum (fun c => p c * Real.logb 2 (p c))
     t.blkLen.toNat = Nat.floor ((2 : ℝ) ^ H))

/-- Rule R148, the range: 1 ≤ BlockLen ≤ d ≤ min(256, N), with d the number of distinct characters, so a SEGMENT that
follows SEGLEN never raises BADOPERAND. -/
def Obligations.SeglenRange : Prop :=
  ∀ (s t : State), exec .seglen s = .next t →
    1 ≤ t.blkLen.toNat ∧ t.blkLen.toNat ≤ 256 ∧
    (s.txtLen ≠ 0#32 → t.blkLen.toNat ≤ s.text.dedup.length ∧ s.text.dedup.length ≤ min 256 s.txtLen.toNat) ∧
    ∀ u, exec .segment t = .next u → u.code ≠ .badOperand

/-- Rules R150, R151: SEGMENT pads the text with spaces to the least multiple of L = BLKLEN, writes SYMLEN, and clears
everything keyed by symbols; BLKLEN out of range is BADOPERAND, then a padded length above TXT_CAP is CAPACITY with
ERRPOS = TXT_LEN, and nothing else changes. -/
def Obligations.SegmentPadsTheText : Prop :=
  decode 0x00000012#32 = .command .segment ∧
  (∀ (s : State) (p : Nat), 1 ≤ s.blkLen.toNat → s.blkLen.toNat ≤ 256 →
    s.blkLen.toNat ∣ p → s.txtLen.toNat ≤ p → p < s.txtLen.toNat + s.blkLen.toNat → p ≤ s.caps.txt.toNat →
    ∃ t, exec .segment s = .next t ∧ Ended s t (if p = 0 then .noData else .ok) 0 ∧
      t = { s.endedAs t with
          txt := t.txt, txtLen := BitVec.ofNat 32 p, symLen := s.blkLen, ft := [], sl := none, tree := .none,
          nodes := [], queue := [], root := 0xFFFFFFFF#32, ct := [] } ∧
      t.text = s.text ++ List.replicate (p - s.txtLen.toNat) 0x20#8 ∧
      ∀ k, k < s.txtLen.toNat ∨ p ≤ k → t.element .txt k = s.element .txt k) ∧
  ∀ s : State,
    (s.blkLen.toNat = 0 ∨ 256 < s.blkLen.toNat →
      ∃ t, exec .segment s = .next t ∧ Ended s t .badOperand 0 ∧ OnlyEndingChanged s t) ∧
    (∀ p, 1 ≤ s.blkLen.toNat → s.blkLen.toNat ≤ 256 → s.blkLen.toNat ∣ p → s.txtLen.toNat ≤ p →
      p < s.txtLen.toNat + s.blkLen.toNat → s.caps.txt.toNat < p →
      ∃ t, exec .segment s = .next t ∧ Ended s t .capacity s.txtLen.toNat ∧ OnlyEndingChanged s t)

/-- Rule R152: FT_GET stages entry `imm` of FT, or ends with BADOPERAND. -/
def Obligations.FtGetStagesTheEntry : Prop :=
  (∀ imm, imm < 2 ^ 24 → decode (BitVec.ofNat 32 (0x13 + 256 * imm)) = .command (.ftGet imm)) ∧
  ∀ (s : State) (imm : Nat), Invariant s →
    (∀ e, s.ft[imm]? = some e →
      ∃ t, exec (.ftGet imm) s = .next t ∧ Ended s t .ok 0 ∧
        t = { s.endedAs t with
            kSym := t.kSym, kCnt := BitVec.ofNat 32 e.cnt } ∧
        t.elements .kSym 0 s.symLen.toNat = e.sym ∧
        ∀ k, s.symLen.toNat ≤ k → t.element .kSym k = s.element .kSym k) ∧
    (s.ft.length ≤ imm → ∃ t, exec (.ftGet imm) s = .next t ∧ Ended s t .badOperand 0 ∧ OnlyEndingChanged s t)

/-! ## Huffman Tree Builder -/

/-- Rule R161: HINIT makes one leaf per FT entry, puts them all in the queue, and sets TREE and ROOT. -/
def Obligations.HinitMakesOneLeafPerEntry : Prop :=
  decode 0x00000020#32 = .command .hinit ∧
  ∀ s : State, Invariant s →
    (s.symLen = 1#32 →
      ∃ t, exec .hinit s = .next t ∧ Ended s t (if s.ft = [] then .noData else .ok) 0 ∧
        t = { s.endedAs t with
            nodes := t.nodes, queue := t.queue, root := t.root, tree := t.tree } ∧
        t.nodes.length = s.ft.length ∧
        (∀ (k : Nat) (e : FtEntry), s.ft[k]? = some e → ∃ c, e.sym = [c] ∧ t.nodes[k]? = some (Node.leaf e.cnt c)) ∧
        (∀ k, k ∈ t.queue ↔ k < s.ft.length) ∧ t.queue.length = s.ft.length ∧
        (s.ft.length = 0 → t.tree = .empty ∧ t.root = 0xFFFFFFFF#32) ∧
        (s.ft.length = 1 → t.tree = .valid ∧ t.root = 0#32) ∧
        (2 ≤ s.ft.length → t.tree = .building ∧ t.root = 0xFFFFFFFF#32)) ∧
    (s.symLen ≠ 1#32 → ∃ t, exec .hinit s = .next t ∧ Ended s t .badSeq 0 ∧ OnlyEndingChanged s t)

/-- Rule R163 with the pop order of R32: HSTEP merges the two members of the queue that come first in ascending
(frequency, index), the first as left child. -/
def Obligations.HstepMergesTheTwoLowest : Prop :=
  decode 0x00000021#32 = .command .hstep ∧
  ∀ s : State, Invariant s →
    (s.tree = .building →
      ∃ t a b, exec .hstep s = .next t ∧ Ended s t .ok 0 ∧
        t = { s.endedAs t with
            nodes := t.nodes, queue := t.queue, root := t.root, tree := t.tree } ∧
        a ∈ s.queue ∧ b ∈ s.queue ∧ a ≠ b ∧
        (let first : Nat → Nat → Prop := fun i j =>
           freqOf s.nodes i < freqOf s.nodes j ∨ (freqOf s.nodes i = freqOf s.nodes j ∧ i < j)
         first a b ∧ ∀ k ∈ s.queue, k ≠ a → k ≠ b → first b k) ∧
        t.nodes = s.nodes ++ [.internal (freqOf s.nodes a + freqOf s.nodes b) a b] ∧
        (∀ k, k ∈ t.queue ↔ (k ∈ s.queue ∧ k ≠ a ∧ k ≠ b) ∨ k = s.nodes.length) ∧
        t.queue.length + 1 = s.queue.length ∧
        (s.queue.length = 2 → t.tree = .valid ∧ t.root = BitVec.ofNat 32 s.nodes.length) ∧
        (2 < s.queue.length → t.tree = .building ∧ t.root = 0xFFFFFFFF#32)) ∧
    (s.tree ≠ .building → ∃ t, exec .hstep s = .next t ∧ Ended s t .badSeq 0 ∧ OnlyEndingChanged s t)

/-- Rule R164: HBUILD leaves the state that HINIT followed by FT_N − 1 HSTEP commands leaves. -/
def Obligations.HbuildIsHinitThenHsteps : Prop :=
  decode 0x00000022#32 = .command .hbuild ∧
  ∀ s : State, Invariant s →
    (s.symLen = 1#32 → ∃ t, exec .hbuild s = .next t ∧
      execAll (.hinit :: List.replicate (s.ft.length - 1) .hstep) s = .next t ∧
      t.code = (if s.ft = [] then .noData else .ok) ∧ (s.ft = [] → t.tree = .empty) ∧ (s.ft ≠ [] → t.tree = .valid)) ∧
    (s.symLen ≠ 1#32 → ∃ t, exec .hbuild s = .next t ∧ Ended s t .badSeq 0 ∧ OnlyEndingChanged s t)

/-- Rules R165, R31: the build ends, for every non-empty table, in a complete tree of 2·FT_N − 1 records with one member in
the queue, the root, whose frequency is FT_TOTAL; one entry gives the one-leaf tree. -/
def Obligations.HbuildGivesACompleteTree : Prop :=
  ∀ s : State, Invariant s → s.symLen = 1#32 → s.ft ≠ [] →
    ∃ t, exec .hbuild s = .next t ∧ t.tree = .valid ∧ t.nodes.length = 2 * s.ft.length - 1 ∧
      t.root = BitVec.ofNat 32 (t.nodes.length - 1) ∧ t.queue = [t.nodes.length - 1] ∧
      freqOf t.nodes (t.nodes.length - 1) = (s.ft.map FtEntry.cnt).sum ∧
      leafSymbols t.nodes = s.ft.map FtEntry.sym

/-- Rules R170, R171: HCODES gives every leaf its root path as code, and the one-leaf tree the code "0". -/
def Obligations.HcodesGivesRootPaths : Prop :=
  decode 0x00000023#32 = .command .hcodes ∧
  ∀ s : State, Invariant s →
    (s.tree = .valid →
      ∃ t, exec .hcodes s = .next t ∧ Ended s t .ok 0 ∧
        t = { s.endedAs t with ct := t.ct } ∧
        SymbolsAscend (t.ct.map CtEntry.sym) ∧
        (∀ f c, s.nodes[s.root.toNat]? = some (Node.leaf f c) → t.ct = [⟨[c], [false]⟩]) ∧
        (∀ f l r, s.nodes[s.root.toNat]? = some (Node.internal f l r) →
          ∀ e : CtEntry, e ∈ t.ct ↔ ∃ k g c, follow s.nodes s.root.toNat e.code = some k ∧
            s.nodes[k]? = some (Node.leaf g c) ∧ e.sym = [c])) ∧
    (s.tree = .empty → ∃ t, exec .hcodes s = .next t ∧ Ended s t .noData 0 ∧
      t = { s.endedAs t with ct := [] }) ∧
    (s.tree = .none ∨ s.tree = .building →
      ∃ t, exec .hcodes s = .next t ∧ Ended s t .badSeq 0 ∧ OnlyEndingChanged s t)

/-- Rule R172: after HCODES ends with OK, CT is prefix-free, has exactly one entry per leaf, each code is as long as its
leaf is deep, and for two or more leaves every code has at least one bit. -/
def Obligations.HuffmanTableIsPrefixFree : Prop :=
  ∀ (s t : State), Invariant s → exec .hcodes s = .next t → t.code = .ok →
    PrefixFree (t.ct.map CtEntry.code) ∧
    t.ct.map CtEntry.sym = leafSymbols s.nodes ∧
    (2 ≤ t.ct.length → ∀ e ∈ t.ct, 1 ≤ e.code.length ∧
      ∃ k g c, follow s.nodes s.root.toNat e.code = some k ∧ s.nodes[k]? = some (Node.leaf g c) ∧ e.sym = [c])

/-- Rule R175: ND_GET shows record `imm`, or ends with BADOPERAND. -/
def Obligations.NdGetShowsTheRecord : Prop :=
  (∀ imm, imm < 2 ^ 24 → decode (BitVec.ofNat 32 (0x24 + 256 * imm)) = .command (.ndGet imm)) ∧
  ∀ (s : State) (imm : Nat),
    (∀ f c, s.nodes[imm]? = some (Node.leaf f c) →
      ∃ t, exec (.ndGet imm) s = .next t ∧ Ended s t .ok 0 ∧
        t = { s.endedAs t with
            nTag := 0#32, nFreq := BitVec.ofNat 32 f, nSym := BitVec.ofNat 32 c.toNat, nLeft := 0xFFFFFFFF#32,
            nRight := 0xFFFFFFFF#32 }) ∧
    (∀ f l r, s.nodes[imm]? = some (Node.internal f l r) →
      ∃ t, exec (.ndGet imm) s = .next t ∧ Ended s t .ok 0 ∧
        t = { s.endedAs t with
            nTag := 1#32, nFreq := BitVec.ofNat 32 f, nSym := 0#32, nLeft := BitVec.ofNat 32 l,
            nRight := BitVec.ofNat 32 r }) ∧
    (s.nodes.length ≤ imm → ∃ t, exec (.ndGet imm) s = .next t ∧ Ended s t .badOperand 0 ∧ OnlyEndingChanged s t)

/-- Rule R176: PQ_GET gives the member of the queue that has exactly `imm` members before it in pop order, or ends with
BADOPERAND. -/
def Obligations.PqGetGivesTheMemberOfThatRank : Prop :=
  (∀ imm, imm < 2 ^ 24 → decode (BitVec.ofNat 32 (0x25 + 256 * imm)) = .command (.pqGet imm)) ∧
  ∀ (s : State) (imm : Nat), Invariant s →
    (imm < s.queue.length →
      ∃ t k, exec (.pqGet imm) s = .next t ∧ Ended s t .ok 0 ∧
        t = { s.endedAs t with
          kIdx := BitVec.ofNat 32 k } ∧
        k ∈ s.queue ∧
        (s.queue.filter (fun j => freqOf s.nodes j < freqOf s.nodes k ∨
          (freqOf s.nodes j = freqOf s.nodes k ∧ j < k))).length = imm) ∧
    (s.queue.length ≤ imm → ∃ t, exec (.pqGet imm) s = .next t ∧ Ended s t .badOperand 0 ∧ OnlyEndingChanged s t)

/-! ## Shannon-Fano partitioner -/

/-- Rule R191: SFSORT computes the permutation sorted by count descending, entry index ascending, and sets SLV. -/
def Obligations.SfsortSortsByCountThenIndex : Prop :=
  decode 0x00000030#32 = .command .sfsort ∧
  ∀ s : State, ∃ t l, exec .sfsort s = .next t ∧ Ended s t (if s.ft = [] then .noData else .ok) 0 ∧
    t = { s.endedAs t with sl := some l } ∧
    l.Perm (List.range s.ft.length) ∧
    ∀ (j k a b : Nat) (d e : FtEntry), j < k → l[j]? = some a → l[k]? = some b → s.ft[a]? = some d → s.ft[b]? = some e →
      e.cnt < d.cnt ∨ (d.cnt = e.cnt ∧ a < b)

/-- Rule R195: the split of a range of two or more counts is the least index in 1 … m−1 at which |T − 2·C_i| is minimal. -/
def Obligations.SplitIsTheFirstMinimum : Prop :=
  ∀ counts : List Nat, 2 ≤ counts.length →
    (let d : Nat → Int := fun i => |(counts.sum : Int) - 2 * ((counts.take i).sum : Int)|
     let i := splitIndex counts
     1 ≤ i ∧ i ≤ counts.length - 1 ∧
     ∀ j, 1 ≤ j → j ≤ counts.length - 1 → d i ≤ d j ∧ (j < i → d i < d j))

/-- Rules R192 to R194: SFPART gives each block of the sorted list its code, a lone block "0"; and below any code shared by
two or more blocks, the blocks are a range of the sorted list, of which the part before the split takes a '0' next and the
rest a '1', and a part of one block ends there. -/
def Obligations.SfpartSplitsEveryRange : Prop :=
  decode 0x00000031#32 = .command .sfpart ∧
  ∀ s : State, Invariant s →
    (∀ l, s.sl = some l →
      ∃ t, exec .sfpart s = .next t ∧ Ended s t (if s.ft = [] then .noData else .ok) 0 ∧
        t = { s.endedAs t with ct := t.ct } ∧
        t.ct.map CtEntry.sym = s.ft.map FtEntry.sym ∧
        (s.ft.length = 1 → t.ct.map CtEntry.code = [[false]]) ∧
        (2 ≤ s.ft.length → ∃ codes : List Code, codes.length = l.length ∧
          (∀ (j a : Nat) (e : FtEntry) (c : Code), l[j]? = some a → s.ft[a]? = some e → codes[j]? = some c →
            (⟨e.sym, c⟩ : CtEntry) ∈ t.ct) ∧
          ∀ (p : Code) (lo hi : Nat), lo + 2 ≤ hi → hi ≤ l.length →
            (∀ (j : Nat) (c : Code), codes[j]? = some c → (p <+: c ↔ lo ≤ j ∧ j < hi)) →
            (let i := splitIndex (((l.drop lo).take (hi - lo)).map (cntOf s.ft))
             ∀ (j : Nat) (c : Code), codes[j]? = some c →
               ((p ++ [false]) <+: c ↔ lo ≤ j ∧ j < lo + i) ∧ ((p ++ [true]) <+: c ↔ lo + i ≤ j ∧ j < hi) ∧
               (i = 1 → j = lo → c = p ++ [false]) ∧ (lo + i + 1 = hi → j = lo + i → c = p ++ [true])))) ∧
    (s.sl = none → ∃ t, exec .sfpart s = .next t ∧ Ended s t .badSeq 0 ∧ OnlyEndingChanged s t)

/-- Rules R198, R199: after SFPART ends with OK, CT has exactly one entry per FT entry and is prefix-free, no code is longer
than FT_N − 1 (one bit for a single entry) and none is empty. -/
def Obligations.ShannonFanoTableIsPrefixFree : Prop :=
  ∀ (s t : State), Invariant s → exec .sfpart s = .next t → t.code = .ok →
    PrefixFree (t.ct.map CtEntry.code) ∧ t.ct.map CtEntry.sym = s.ft.map FtEntry.sym ∧
    (∀ e ∈ t.ct, 1 ≤ e.code.length) ∧ (∀ e ∈ t.ct, 2 ≤ s.ft.length → e.code.length ≤ s.ft.length - 1)

/-- Rule R200: SFBUILD's final state equals that of SFSORT followed by SFPART, and it never raises BADSEQ. -/
def Obligations.SfbuildIsSfsortThenSfpart : Prop :=
  decode 0x00000032#32 = .command .sfbuild ∧
  ∀ s : State, ∃ t, exec .sfbuild s = .next t ∧ execAll [.sfsort, .sfpart] s = .next t ∧
    t.sl ≠ none ∧ t.code = (if s.ft = [] then .noData else .ok)

/-- Rule R201: SL_GET gives element `imm` of the sorted list; SLV is tested before the operand. -/
def Obligations.SlGetGivesTheElement : Prop :=
  (∀ imm, imm < 2 ^ 24 → decode (BitVec.ofNat 32 (0x33 + 256 * imm)) = .command (.slGet imm)) ∧
  ∀ (s : State) (imm : Nat), Invariant s →
    (∀ l a, s.sl = some l → l[imm]? = some a →
      ∃ t, exec (.slGet imm) s = .next t ∧ Ended s t .ok 0 ∧
        t = { s.endedAs t with
          kIdx := BitVec.ofNat 32 a }) ∧
    (s.sl = none → ∃ t, exec (.slGet imm) s = .next t ∧ Ended s t .badSeq 0 ∧ OnlyEndingChanged s t) ∧
    (s.sl ≠ none → s.ft.length ≤ imm →
      ∃ t, exec (.slGet imm) s = .next t ∧ Ended s t .badOperand 0 ∧ OnlyEndingChanged s t)

/-! ## Code table and lookup engine -/

/-- Rule R212: CT_ADD loads the staged entry at its <lex position, or stops with BADCHAR, DUPLICATE or CAPACITY, checked in
that order. -/
def Obligations.CtAddLoadsTheStagedEntry : Prop :=
  decode 0x00000041#32 = .command .ctAdd ∧
  ∀ s : State, Invariant s →
    (∀ code : Code, s.stagedCodeChars = code.map (fun b => if b then 0x31#8 else 0x30#8) →
      s.stagedSymbol ∉ s.ct.map CtEntry.sym → code ∉ s.ct.map CtEntry.code → s.ct.length < s.caps.sym.toNat →
      ∃ t, exec .ctAdd s = .next t ∧ Ended s t .ok 0 ∧
        t = { s.endedAs t with ct := t.ct } ∧
        SymbolsAscend (t.ct.map CtEntry.sym) ∧ t.ct.length = s.ct.length + 1 ∧
        ∀ e, e ∈ t.ct ↔ e ∈ s.ct ∨ e = ⟨s.stagedSymbol, code⟩) ∧
    (∀ j, j < s.kClen.toNat → s.element .kCode j ≠ 0x30#8 → s.element .kCode j ≠ 0x31#8 →
      (∀ k, k < j → s.element .kCode k = 0x30#8 ∨ s.element .kCode k = 0x31#8) →
      ∃ t, exec .ctAdd s = .next t ∧ Ended s t .badChar j ∧ OnlyEndingChanged s t) ∧
    (∀ code : Code, s.stagedCodeChars = code.map (fun b => if b then 0x31#8 else 0x30#8) →
      s.stagedSymbol ∈ s.ct.map CtEntry.sym ∨ code ∈ s.ct.map CtEntry.code →
      ∃ t, exec .ctAdd s = .next t ∧ Ended s t .duplicate 0 ∧ OnlyEndingChanged s t) ∧
    (∀ code : Code, s.stagedCodeChars = code.map (fun b => if b then 0x31#8 else 0x30#8) →
      s.stagedSymbol ∉ s.ct.map CtEntry.sym → code ∉ s.ct.map CtEntry.code → s.ct.length = s.caps.sym.toNat →
      ∃ t, exec .ctAdd s = .next t ∧ Ended s t .capacity 0 ∧ OnlyEndingChanged s t)

/-- Rule R215: CT_GET stages entry `imm` of CT, or ends with BADOPERAND. -/
def Obligations.CtGetStagesTheEntry : Prop :=
  (∀ imm, imm < 2 ^ 24 → decode (BitVec.ofNat 32 (0x42 + 256 * imm)) = .command (.ctGet imm)) ∧
  ∀ (s : State) (imm : Nat), Invariant s →
    (∀ e, s.ct[imm]? = some e →
      ∃ t, exec (.ctGet imm) s = .next t ∧ Ended s t .ok 0 ∧
        t = { s.endedAs t with
            kSym := t.kSym, kCode := t.kCode, kClen := BitVec.ofNat 32 e.code.length } ∧
        t.elements .kSym 0 s.symLen.toNat = e.sym ∧
        t.elements .kCode 0 e.code.length = e.code.map (fun b => if b then 0x31#8 else 0x30#8) ∧
        (∀ k, s.symLen.toNat ≤ k → t.element .kSym k = s.element .kSym k) ∧
        (∀ k, e.code.length ≤ k → t.element .kCode k = s.element .kCode k)) ∧
    (s.ct.length ≤ imm → ∃ t, exec (.ctGet imm) s = .next t ∧ Ended s t .badOperand 0 ∧ OnlyEndingChanged s t)

/-- Rule R217: CT_FWD finds the entry of the staged symbol and stages its code and rank; an absent key only clears HIT. -/
def Obligations.CtFwdFindsTheCode : Prop :=
  decode 0x00000043#32 = .command .ctFwd ∧
  ∀ s : State, Invariant s →
    (∀ (r : Nat) (e : CtEntry), s.ct[r]? = some e → e.sym = s.stagedSymbol →
      ∃ t, exec .ctFwd s = .next t ∧ Ended s t .ok 0 ∧
        t = { s.endedAs t with
            kCode := t.kCode, kClen := BitVec.ofNat 32 e.code.length, kIdx := BitVec.ofNat 32 r, hit := true } ∧
        t.elements .kCode 0 e.code.length = e.code.map (fun b => if b then 0x31#8 else 0x30#8) ∧
        ∀ k, e.code.length ≤ k → t.element .kCode k = s.element .kCode k) ∧
    (s.stagedSymbol ∉ s.ct.map CtEntry.sym →
      ∃ t, exec .ctFwd s = .next t ∧ Ended s t .ok 0 ∧
        t = { s.endedAs t with hit := false })

/-- Rule R219: CT_REV finds the entry whose whole code equals the staged code and stages its symbol and rank; an absent key
only clears HIT; a staged element that is no bit stops it with nothing changed. -/
def Obligations.CtRevFindsTheSymbol : Prop :=
  decode 0x00000044#32 = .command .ctRev ∧
  ∀ s : State, Invariant s →
    (∀ (r : Nat) (e : CtEntry), s.ct[r]? = some e →
      s.stagedCodeChars = e.code.map (fun b => if b then 0x31#8 else 0x30#8) →
      ∃ t, exec .ctRev s = .next t ∧ Ended s t .ok 0 ∧
        t = { s.endedAs t with
            kSym := t.kSym, kIdx := BitVec.ofNat 32 r, hit := true } ∧
        t.elements .kSym 0 s.symLen.toNat = e.sym ∧
        ∀ k, s.symLen.toNat ≤ k → t.element .kSym k = s.element .kSym k) ∧
    (∀ code : Code, s.stagedCodeChars = code.map (fun b => if b then 0x31#8 else 0x30#8) →
      code ∉ s.ct.map CtEntry.code →
      ∃ t, exec .ctRev s = .next t ∧ Ended s t .ok 0 ∧
        t = { s.endedAs t with hit := false }) ∧
    (∀ j, j < s.kClen.toNat → s.element .kCode j ≠ 0x30#8 → s.element .kCode j ≠ 0x31#8 →
      (∀ k, k < j → s.element .kCode k = 0x30#8 ∨ s.element .kCode k = 0x31#8) →
      ∃ t, exec .ctRev s = .next t ∧ Ended s t .badChar j ∧ OnlyEndingChanged s t)

/-- Rule R224: ENCODE writes the concatenation of the codes of the text's symbols, and nothing beyond it; at a symbol
without an entry it stops with NOSYMBOL, at a code that does not fit with CAPACITY, ERRPOS the symbol's text index and BIT
the encoding of the symbols before it. -/
def Obligations.EncodeConcatenatesTheCodes : Prop :=
  decode 0x00000045#32 = .command .encode ∧
  (∀ (s : State) (codes : List Code), Invariant s → s.txtLen.toNat % s.symLen.toNat = 0 →
    CodesOf s.ct s.textSymbols codes → codes.flatten.length ≤ s.caps.bit.toNat →
    ∃ t, exec .encode s = .next t ∧ Ended s t (if s.textSymbols = [] then .noData else .ok) 0 ∧
      t = { s.endedAs t with
          bit := t.bit, bitLen := BitVec.ofNat 32 codes.flatten.length } ∧
      t.bitChars = codes.flatten.map (fun b => if b then 0x31#8 else 0x30#8) ∧
      ∀ k, codes.flatten.length ≤ k → t.element .bit k = s.element .bit k) ∧
  (∀ s : State, s.txtLen.toNat % s.symLen.toNat ≠ 0 →
    ∃ t, exec .encode s = .next t ∧ Ended s t .badSeq 0 ∧ OnlyEndingChanged s t) ∧
  (∀ (s : State) (before after : List Symbol) (k : Symbol) (codes : List Code), Invariant s →
    s.txtLen.toNat % s.symLen.toNat = 0 → s.textSymbols = before ++ k :: after → CodesOf s.ct before codes →
    codes.flatten.length ≤ s.caps.bit.toNat →
    ∀ c : Completion,
      (c = .noSymbol ∧ k ∉ s.ct.map CtEntry.sym) ∨
      (c = .capacity ∧ ∃ d, (⟨k, d⟩ : CtEntry) ∈ s.ct ∧ s.caps.bit.toNat < codes.flatten.length + d.length) →
      ∃ t, exec .encode s = .next t ∧ Ended s t c (before.length * s.symLen.toNat) ∧
        t = { s.endedAs t with
            bit := t.bit, bitLen := BitVec.ofNat 32 codes.flatten.length } ∧
        t.bitChars = codes.flatten.map (fun b => if b then 0x31#8 else 0x30#8) ∧
        ∀ j, codes.flatten.length ≤ j → t.element .bit j = s.element .bit j)

/-! ## Decoders -/

/-- Rule R245, on every content of BIT and every table: after whole first matches whose symbols fit OUT, the input ends
(OK), ends inside an unmatched tail (INCOMPLETE at the tail's first bit), has an element that is no bit (BADCHAR at the
element), or completes a match that does not fit (CAPACITY at its first bit); OUT holds exactly the symbols decoded before,
and nothing beyond is written. -/
def Obligations.RdecodeEmitsTheFirstMatches : Prop :=
  decode 0x00000051#32 = .command .rdecode ∧
  ∀ (s : State) (syms : List Symbol) (codes : List Code) (tail : Code) (rest : List Byte) (c : Completion) (pos : Nat),
    Invariant s → CodesOf s.ct syms codes → (∀ d ∈ codes, MatchedFirst s.ct d) →
    syms.length * s.symLen.toNat ≤ s.caps.out.toNat →
    s.bitChars = (codes.flatten ++ tail).map (fun b => if b then 0x31#8 else 0x30#8) ++ rest →
    (c = (if s.bitLen = 0#32 then .noData else .ok) ∧ tail = [] ∧ rest = [] ∧ pos = 0) ∨
    ((∀ d, d ≠ [] → d <+: tail → d ∉ s.ct.map CtEntry.code) ∧
      ((c = .incomplete ∧ rest = [] ∧ tail ≠ [] ∧ pos = codes.flatten.length) ∨
       (c = .badChar ∧ pos = codes.flatten.length + tail.length ∧
         ∃ x xs, rest = x :: xs ∧ x ≠ 0x30#8 ∧ x ≠ 0x31#8))) ∨
    (c = .capacity ∧ tail ∈ s.ct.map CtEntry.code ∧ MatchedFirst s.ct tail ∧ pos = codes.flatten.length ∧
      s.caps.out.toNat < (syms.length + 1) * s.symLen.toNat) →
    ∃ t, exec .rdecode s = .next t ∧ Ended s t c pos ∧
      t = { s.endedAs t with
          out := t.out, outLen := BitVec.ofNat 32 (syms.length * s.symLen.toNat) } ∧
      t.decoded = syms.flatten ∧
      ∀ k, syms.length * s.symLen.toNat ≤ k → t.element .out k = s.element .out k

/-- Rules R246, R247: an entry whose code is empty, or has another entry's non-empty code as a proper prefix, is never
matched: RDECODE runs as if the table had no such entry. -/
def Obligations.ShadowedCodesAreNeverMatched : Prop :=
  ∀ (s t : State) (keep : CtEntry → Bool),
    (∀ e ∈ s.ct, keep e = false → e.code = [] ∨ ∃ d ∈ s.ct, d.code ≠ [] ∧ d.code <+: e.code ∧ d.code ≠ e.code) →
    exec .rdecode s = .next t →
    exec .rdecode { s with ct := s.ct.filter keep } = .next { t with ct := s.ct.filter keep }

/-- Rule R241, on every content of BIT: without a finished tree TDECODE is BADSEQ; after whole root paths whose leaves fit OUT
(for the one-leaf tree, '0's), the input ends (OK), ends inside a path (INCOMPLETE at the path's first bit), has an element
that is no bit (BADCHAR), has a '1' on the one-leaf tree (INCOMPLETE there), or completes a path whose leaf does not fit
(CAPACITY at the path's first bit); OUT holds exactly the characters decoded before. -/
def Obligations.TdecodeFollowsTheTree : Prop :=
  decode 0x00000050#32 = .command .tdecode ∧
  (∀ s : State, s.tree = .none ∨ s.tree = .building →
    ∃ t, exec .tdecode s = .next t ∧ Ended s t .badSeq 0 ∧ OnlyEndingChanged s t) ∧
  (∀ s : State, s.tree = .empty →
    ∃ t, exec .tdecode s = .next t ∧ Ended s t (if s.bitLen = 0#32 then .noData else .incomplete) 0 ∧
      t = { s.endedAs t with outLen := 0#32 }) ∧
  ∀ (s : State) (chars : List Byte) (codes : List Code) (tail : Code) (rest : List Byte) (c : Completion) (pos : Nat),
    Invariant s → s.tree = .valid → List.Forall₂ (EndsAtLeaf s) chars codes →
    s.bitChars = (codes.flatten ++ tail).map (fun b => if b then 0x31#8 else 0x30#8) ++ rest →
    chars.length ≤ s.caps.out.toNat →
    (c = (if s.bitLen = 0#32 then .noData else .ok) ∧ tail = [] ∧ rest = [] ∧ pos = 0) ∨
    ((∃ k f l r, follow s.nodes s.root.toNat tail = some k ∧ s.nodes[k]? = some (Node.internal f l r)) ∧
      c = .incomplete ∧ rest = [] ∧ tail ≠ [] ∧ pos = codes.flatten.length) ∨
    ((tail = [] ∨ ∃ k f l r, follow s.nodes s.root.toNat tail = some k ∧ s.nodes[k]? = some (Node.internal f l r)) ∧
      c = .badChar ∧ pos = codes.flatten.length + tail.length ∧ ∃ x xs, rest = x :: xs ∧ x ≠ 0x30#8 ∧ x ≠ 0x31#8) ∨
    ((∃ f x, s.nodes[s.root.toNat]? = some (Node.leaf f x)) ∧ c = .incomplete ∧ tail = [] ∧
      pos = codes.flatten.length ∧ ∃ xs, rest = 0x31#8 :: xs) ∨
    (c = .capacity ∧ (∃ x, EndsAtLeaf s x tail) ∧ pos = codes.flatten.length ∧ chars.length = s.caps.out.toNat) →
    ∃ t, exec .tdecode s = .next t ∧ Ended s t c pos ∧
      t = { s.endedAs t with
          out := t.out, outLen := BitVec.ofNat 32 chars.length } ∧
      t.decoded = chars ∧ ∀ k, chars.length ≤ k → t.element .out k = s.element .out k

/-- Rules R242, R243: TDECODE on the one-leaf tree stops with INCOMPLETE at the first '1', and on the EMPTY tree stops with
INCOMPLETE at 0 on any non-empty bit string, before it looks at an element. -/
def Obligations.TdecodeOnDegenerateTrees : Prop :=
  (∀ (s : State) (f n : Nat) (x : Byte) (rest : List Byte), Invariant s → s.tree = .valid →
    s.nodes[s.root.toNat]? = some (Node.leaf f x) → s.bitChars = List.replicate n 0x30#8 ++ 0x31#8 :: rest →
    n ≤ s.caps.out.toNat →
    ∃ t, exec .tdecode s = .next t ∧ Ended s t .incomplete n ∧ t.decoded = List.replicate n x ∧ t.outLen.toNat = n) ∧
  (∀ s : State, s.tree = .empty → s.bitLen ≠ 0#32 →
    ∃ t, exec .tdecode s = .next t ∧ Ended s t .incomplete 0 ∧
      t = { s.endedAs t with outLen := 0#32 })

/-! ## Headlines -/

/-- Rule R249: with a valid tree of two or more leaves and the table HCODES made from it, the two decoders leave the same
state on every content of BIT, the failing ones included; on the one-leaf tree they leave the same decoded text, and the
same code and position but where TDECODE stops at a '1' before an element that is no bit, at which RDECODE stops. -/
def Obligations.TheTwoDecodersAgree : Prop :=
  ∀ (s t : State), Invariant s → s.tree = .valid → exec .hcodes s = .next t →
    ∃ u v, exec .tdecode t = .next u ∧ exec .rdecode t = .next v ∧
      (2 ≤ s.nodes.length → u = v) ∧ u.outLen = v.outLen ∧ u.out = v.out ∧
      ((u.code = v.code ∧ u.errPos = v.errPos) ∨
       (u.code = .incomplete ∧ v.code = .badChar ∧ u.errPos.toNat < v.errPos.toNat ∧
        t.element .bit u.errPos.toNat = 0x31#8 ∧ t.element .bit v.errPos.toNat ≠ 0x30#8 ∧
        t.element .bit v.errPos.toNat ≠ 0x31#8))

/-- The round trip of any table, a host-loaded one too (R225, R306): when CT is prefix-free and has no empty code, what ENCODE
wrote without a stop RDECODE turns back into the text. -/
def Obligations.EncodeThenRdecodeOnAnyDecodableTable : Prop :=
  ∀ (s u : State), Invariant s → Decodable s.ct → exec .encode s = .next u → u.code = .ok ∨ u.code = .noData →
    s.txtLen.toNat ≤ s.caps.out.toNat →
    ∃ t, exec .rdecode u = .next t ∧ t.decoded = s.text ∧ t.code = (if s.txtLen = 0#32 then .noData else .ok)

/-- Rule R248 (a), the round trip of the Huffman path: FCOUNT, HBUILD, HCODES, ENCODE, then either decoder, gives the text
back, unless ENCODE ran out of room; the code is OK, or NODATA for the empty text. -/
def Obligations.HuffmanRoundTrip : Prop :=
  ∀ (s u : State) (d : Instr), Invariant s → s.symLen = 1#32 → (d = .tdecode ∨ d = .rdecode) →
    execAll [.fcount, .hbuild, .hcodes, .encode] s = .next u → u.code ≠ .capacity →
    s.txtLen.toNat ≤ s.caps.out.toNat →
    ∃ t, exec d u = .next t ∧ t.decoded = s.text ∧ t.code = (if s.txtLen = 0#32 then .noData else .ok)

/-- Rule R248 (b), the round trip of the Shannon-Fano path, with the block length of SEGLEN or one the host wrote: when no
command of the list recorded an error, RDECODE gives the text back, padded with spaces to a multiple of BLKLEN. -/
def Obligations.ShannonFanoRoundTrip : Prop :=
  ∀ (s u : State) (before : List Instr), Invariant s → s.err = false → (before = [.seglen] ∨ before = []) →
    execAll (before ++ [.segment, .fcount, .sfbuild, .encode]) s = .next u → u.err = false →
    u.txtLen.toNat ≤ u.caps.out.toNat →
    ∃ t n, exec .rdecode u = .next t ∧ t.decoded = s.text ++ List.replicate n 0x20#8 ∧ n < u.blkLen.toNat ∧
      u.blkLen.toNat ∣ s.txtLen.toNat + n ∧ t.code = (if s.txtLen = 0#32 then .noData else .ok)

/-- The invariant of the block between transactions holds of the reset state. -/
def Obligations.InvariantAtReset : Prop := Invariant State.reset

/-- The invariant of the block between transactions (10_state.md R26 to R33, R41): every step keeps it, whatever the
transaction. -/
def Obligations.InvariantKeptByEveryStep : Prop :=
  ∀ (s s' : State), Invariant s → step s = .next s' → Invariant s'

/-- The canonical form of the five memories alone: every step keeps it, in every state, with no other premise. The
form is the model's choice (log entry 3). -/
def Obligations.CanonicalMemoriesKeptByEveryStep : Prop :=
  ∀ (s s' : State), MemoriesCanonical s → step s = .next s' → MemoriesCanonical s'

/-! ## The persisted table -/

/-- Rules R232 to R235: a written table splits into its lines again, and each line of an entry whose symbol contains no
colon-space parses back to the entry's symbol and code characters; from a table of one or more entries the host learns
their symbol length. -/
def Obligations.PersistedTableReloads : Prop :=
  ∀ (ct : List CtEntry) (symLen : Nat), 1 ≤ symLen → (∀ e ∈ ct, e.sym.length = symLen) →
    (∀ e ∈ ct, 0x0A#8 ∉ e.sym) → (∀ e ∈ ct, ¬ [0x3A#8, 0x20#8] <:+: e.sym) →
    splitLines [] (tableText ct) = ct.map lineBody ∧
    (∀ e ∈ ct, parseLine symLen (lineBody e) = some (e.sym, e.code.map (fun b => if b then 0x31#8 else 0x30#8))) ∧
    (ct ≠ [] → symLen ≤ 256 → learnedSymLen (tableText ct) = some symLen)
end

