-- ==== Sys2Proof/Laws/BlockLength.lean ====
section
/-! SUPPORT. The block length search and the histogram it is taken from. -/

namespace Sys2Proof.Machine

open Sys2Proof

set_option autoImplicit false

/-- The search from `m` down answers the greatest index in 1 … `m` that passes the test, 1 if none does. -/
theorem greatestPassing_spec (test : Nat → Bool) (m : Nat) :
    1 ≤ greatestPassing test m ∧ greatestPassing test m ≤ max 1 m ∧
    (∀ k, 1 ≤ k → k ≤ m → test k = true → k ≤ greatestPassing test m) ∧
    (test 1 = true → test (greatestPassing test m) = true) := by
  induction m with
  | zero => exact ⟨Nat.le_refl _, by simp [greatestPassing], fun k h1 h2 => by omega, fun h => h⟩
  | succ m ih =>
    obtain ⟨h1, h2, h3, h4⟩ := ih
    unfold greatestPassing
    split
    · rename_i h
      exact ⟨by omega, by omega, fun k _ hk _ => hk, fun _ => h⟩
    · rename_i h
      refine ⟨h1, by omega, fun k hk1 hk2 hk3 => ?_, h4⟩
      by_cases hk : k = m + 1
      · subst hk; exact absurd hk3 h
      · exact h3 k hk1 (by omega) hk3

/-- SEGLEN's result stands in 1 … 256. -/
theorem blockLen_range (n : List Nat) : 1 ≤ blockLen n ∧ blockLen n ≤ 256 := by
  have h := greatestPassing_spec (blockLenTest n) 256
  have h2 : max 1 256 = 256 := rfl
  exact ⟨h.1, h2 ▸ h.2.1⟩

/-- The counts of a histogram add up to the length of the text. -/
theorem histogram_sum (text : List Byte) : (histogram text).sum = text.length := by
  induction text with
  | nil =>
    have h : ∀ m, ((List.range m).map (fun c => ([] : List Byte).countP (fun y => y.toNat = c))).sum = 0 := by
      intro m; simp
    exact h 256
  | cons x xs ih =>
    have h : ∀ m, x.toNat < m → ((List.range m).map (fun c => (x :: xs).countP (fun y => y.toNat = c))).sum =
        ((List.range m).map (fun c => xs.countP (fun y => y.toNat = c))).sum + 1 := by
      intro m
      induction m with
      | zero => omega
      | succ m ihm =>
        intro hx
        rw [List.range_succ, List.map_append, List.map_append, List.sum_append, List.sum_append]
        by_cases hxm : x.toNat = m
        · have hlt : ((List.range m).map (fun c => (x :: xs).countP (fun y => y.toNat = c))) =
              ((List.range m).map (fun c => xs.countP (fun y => y.toNat = c))) := by
            apply List.map_congr_left
            intro c hc
            have := List.mem_range.1 hc
            rw [List.countP_cons_of_neg]
            simp; omega
          rw [hlt]
          simp [hxm]
          omega
        · rw [ihm (by omega)]
          simp [hxm]
          omega
    have := h 256 x.isLt
    rw [List.length_cons, ← ih]
    exact this

end Sys2Proof.Machine
end

