-- ==== Sys2Proof/Laws/Encoding.lean ====
section
/-! SUPPORT. The fields of an encoded word and what each field of a word decides: the lemmas that a proof about decoding
cites, so that it never unfolds a concatenation. -/

namespace Sys2Proof

set_option autoImplicit false

/-- The opcode field of a command's word is the command's opcode. -/
theorem opcodeField_encode (i : Instr) : opcodeField (encode i) = i.opcode := by
  apply BitVec.eq_of_getLsbD_eq
  intro k hk
  have h := BitVec.getLsbD_append (x := i.operand) (y := i.opcode) (i := k)
  simpa [opcodeField, encode, hk] using h

/-- The operand field of a command's word is the command's operand. -/
theorem operandField_encode (i : Instr) : operandField (encode i) = i.operand := by
  apply BitVec.eq_of_getLsbD_eq
  intro k hk
  have h := BitVec.getLsbD_append (x := i.operand) (y := i.opcode) (i := 8 + k)
  simpa [operandField, encode, hk] using h

/-- A word is its two fields. -/
theorem word_eq_fields (w : Word) : operandField w ++ opcodeField w = w := by
  apply BitVec.eq_of_getLsbD_eq
  intro k hk
  refine (BitVec.getLsbD_append (x := operandField w) (y := opcodeField w) (i := k)).trans ?_
  by_cases h : k < 8
  · simp [opcodeField, h]
  · have h' : k - 8 < 24 := by omega
    have h'' : 8 + (k - 8) = k := by omega
    simp [operandField, h, h', h'']

/-- Two words with the same fields are the same word. -/
theorem word_ext {v w : Word} (h1 : opcodeField v = opcodeField w) (h2 : operandField v = operandField w) : v = w := by
  rw [← word_eq_fields v, ← word_eq_fields w, h1, h2]

/-- The opcode field as a number. -/
theorem opcodeField_toNat (w : Word) : (opcodeField w).toNat = w.toNat % 256 := by
  simp [opcodeField]

/-- The operand field as a number. -/
theorem operandField_toNat (w : Word) : (operandField w).toNat = w.toNat / 256 := by
  have : w.toNat < 2 ^ 32 := w.isLt
  simp [operandField, Nat.shiftRight_eq_div_pow]
  omega

/-- A format N opcode decodes to its command exactly when the operand field is zero. -/
theorem formatN_eq_command {operand : BitVec 24} {i j : Instr} :
    formatN operand i = .command j ↔ operand = 0#24 ∧ i = j := by
  unfold formatN
  split <;> simp_all

/-- A format N opcode is illegal exactly when the operand field is not zero. -/
theorem formatN_eq_illegal {operand : BitVec 24} {i : Instr} {why : IllegalWord} :
    formatN operand i = .illegal why ↔ operand ≠ 0#24 ∧ why = .operandOfFormatN := by
  unfold formatN
  split
  · simp_all
  · rename_i h
    simp only [Decoded.illegal.injEq, ne_eq, h, not_false_eq_true, true_and]
    exact eq_comm

/-- An opcode-table word of 32 bits is the word. -/
theorem tableWord_32 (w : Word) : tableWord 32 w.toNat = w := by
  apply BitVec.eq_of_toNat_eq
  have : w.toNat < 4294967296 := w.isLt
  simp [tableWord, Nat.mod_eq_of_lt this]

/-- The immediate of a well-formed command survives its 24 bits. -/
theorem ofNat24_toNat {imm : Nat} (h : imm < immBound) : (BitVec.ofNat 24 imm).toNat = imm := by
  unfold immBound at h
  simp [BitVec.toNat_ofNat]
  omega

/-- An immediate read back from its 24 bits is below the bound. -/
theorem toNat_lt_immBound (x : BitVec 24) : x.toNat < immBound := x.isLt

end Sys2Proof
end

