-- ==== Sys2Proof/Laws/State.lean ====
section
/-! SUPPORT. One lemma per field of State per shared update, true by rfl, so that no proof unfolds a record update. -/

namespace Sys2Proof.Machine

open Sys2Proof

set_option autoImplicit false

/-! ## The end of a command -/

@[simp] theorem State.ended_code (s : State) (c : Completion) (pos : Nat) : (s.ended c pos).code = c := rfl
@[simp] theorem State.ended_err (s : State) (c : Completion) (pos : Nat) : (s.ended c pos).err = nextErr c s.err := rfl
@[simp] theorem State.ended_hit (s : State) (c : Completion) (pos : Nat) : (s.ended c pos).hit = s.hit := rfl
@[simp] theorem State.ended_tree (s : State) (c : Completion) (pos : Nat) : (s.ended c pos).tree = s.tree := rfl
@[simp] theorem State.ended_errPos (s : State) (c : Completion) (pos : Nat) : (s.ended c pos).errPos = word pos := rfl
@[simp] theorem State.ended_symLen (s : State) (c : Completion) (pos : Nat) : (s.ended c pos).symLen = s.symLen := rfl
@[simp] theorem State.ended_blkLen (s : State) (c : Completion) (pos : Nat) : (s.ended c pos).blkLen = s.blkLen := rfl
@[simp] theorem State.ended_txtLen (s : State) (c : Completion) (pos : Nat) : (s.ended c pos).txtLen = s.txtLen := rfl
@[simp] theorem State.ended_bitLen (s : State) (c : Completion) (pos : Nat) : (s.ended c pos).bitLen = s.bitLen := rfl
@[simp] theorem State.ended_outLen (s : State) (c : Completion) (pos : Nat) : (s.ended c pos).outLen = s.outLen := rfl
@[simp] theorem State.ended_ft (s : State) (c : Completion) (pos : Nat) : (s.ended c pos).ft = s.ft := rfl
@[simp] theorem State.ended_nodes (s : State) (c : Completion) (pos : Nat) : (s.ended c pos).nodes = s.nodes := rfl
@[simp] theorem State.ended_root (s : State) (c : Completion) (pos : Nat) : (s.ended c pos).root = s.root := rfl
@[simp] theorem State.ended_queue (s : State) (c : Completion) (pos : Nat) : (s.ended c pos).queue = s.queue := rfl
@[simp] theorem State.ended_sl (s : State) (c : Completion) (pos : Nat) : (s.ended c pos).sl = s.sl := rfl
@[simp] theorem State.ended_ct (s : State) (c : Completion) (pos : Nat) : (s.ended c pos).ct = s.ct := rfl
@[simp] theorem State.ended_kClen (s : State) (c : Completion) (pos : Nat) : (s.ended c pos).kClen = s.kClen := rfl
@[simp] theorem State.ended_kCnt (s : State) (c : Completion) (pos : Nat) : (s.ended c pos).kCnt = s.kCnt := rfl
@[simp] theorem State.ended_kIdx (s : State) (c : Completion) (pos : Nat) : (s.ended c pos).kIdx = s.kIdx := rfl
@[simp] theorem State.ended_nTag (s : State) (c : Completion) (pos : Nat) : (s.ended c pos).nTag = s.nTag := rfl
@[simp] theorem State.ended_nFreq (s : State) (c : Completion) (pos : Nat) : (s.ended c pos).nFreq = s.nFreq := rfl
@[simp] theorem State.ended_nSym (s : State) (c : Completion) (pos : Nat) : (s.ended c pos).nSym = s.nSym := rfl
@[simp] theorem State.ended_nLeft (s : State) (c : Completion) (pos : Nat) : (s.ended c pos).nLeft = s.nLeft := rfl
@[simp] theorem State.ended_nRight (s : State) (c : Completion) (pos : Nat) : (s.ended c pos).nRight = s.nRight := rfl
@[simp] theorem State.ended_caps (s : State) (c : Completion) (pos : Nat) : (s.ended c pos).caps = s.caps := rfl
@[simp] theorem State.ended_txt (s : State) (c : Completion) (pos : Nat) : (s.ended c pos).txt = s.txt := rfl
@[simp] theorem State.ended_bit (s : State) (c : Completion) (pos : Nat) : (s.ended c pos).bit = s.bit := rfl
@[simp] theorem State.ended_out (s : State) (c : Completion) (pos : Nat) : (s.ended c pos).out = s.out := rfl
@[simp] theorem State.ended_kSym (s : State) (c : Completion) (pos : Nat) : (s.ended c pos).kSym = s.kSym := rfl
@[simp] theorem State.ended_kCode (s : State) (c : Completion) (pos : Nat) : (s.ended c pos).kCode = s.kCode := rfl
@[simp] theorem State.ended_resets (s : State) (c : Completion) (pos : Nat) : (s.ended c pos).resets = s.resets := rfl
@[simp] theorem State.ended_pending (s : State) (c : Completion) (pos : Nat) : (s.ended c pos).pending = s.pending := rfl

@[simp] theorem State.ended_response (s : State) (c : Completion) (pos : Nat) :
    (s.ended c pos).response = some (s.ended c pos).statusWord := rfl

/-! ## `ClearSymbolKeyed()` -/

@[simp] theorem State.clearSymbolKeyed_code (s : State) : (s.clearSymbolKeyed).code = s.code := rfl
@[simp] theorem State.clearSymbolKeyed_err (s : State) : (s.clearSymbolKeyed).err = s.err := rfl
@[simp] theorem State.clearSymbolKeyed_hit (s : State) : (s.clearSymbolKeyed).hit = s.hit := rfl
@[simp] theorem State.clearSymbolKeyed_tree (s : State) : (s.clearSymbolKeyed).tree = .none := rfl
@[simp] theorem State.clearSymbolKeyed_errPos (s : State) : (s.clearSymbolKeyed).errPos = s.errPos := rfl
@[simp] theorem State.clearSymbolKeyed_symLen (s : State) : (s.clearSymbolKeyed).symLen = s.symLen := rfl
@[simp] theorem State.clearSymbolKeyed_blkLen (s : State) : (s.clearSymbolKeyed).blkLen = s.blkLen := rfl
@[simp] theorem State.clearSymbolKeyed_txtLen (s : State) : (s.clearSymbolKeyed).txtLen = s.txtLen := rfl
@[simp] theorem State.clearSymbolKeyed_bitLen (s : State) : (s.clearSymbolKeyed).bitLen = s.bitLen := rfl
@[simp] theorem State.clearSymbolKeyed_outLen (s : State) : (s.clearSymbolKeyed).outLen = s.outLen := rfl
@[simp] theorem State.clearSymbolKeyed_ft (s : State) : (s.clearSymbolKeyed).ft = [] := rfl
@[simp] theorem State.clearSymbolKeyed_nodes (s : State) : (s.clearSymbolKeyed).nodes = [] := rfl
@[simp] theorem State.clearSymbolKeyed_root (s : State) : (s.clearSymbolKeyed).root = NIL := rfl
@[simp] theorem State.clearSymbolKeyed_queue (s : State) : (s.clearSymbolKeyed).queue = [] := rfl
@[simp] theorem State.clearSymbolKeyed_sl (s : State) : (s.clearSymbolKeyed).sl = none := rfl
@[simp] theorem State.clearSymbolKeyed_ct (s : State) : (s.clearSymbolKeyed).ct = [] := rfl
@[simp] theorem State.clearSymbolKeyed_kClen (s : State) : (s.clearSymbolKeyed).kClen = s.kClen := rfl
@[simp] theorem State.clearSymbolKeyed_kCnt (s : State) : (s.clearSymbolKeyed).kCnt = s.kCnt := rfl
@[simp] theorem State.clearSymbolKeyed_kIdx (s : State) : (s.clearSymbolKeyed).kIdx = s.kIdx := rfl
@[simp] theorem State.clearSymbolKeyed_nTag (s : State) : (s.clearSymbolKeyed).nTag = s.nTag := rfl
@[simp] theorem State.clearSymbolKeyed_nFreq (s : State) : (s.clearSymbolKeyed).nFreq = s.nFreq := rfl
@[simp] theorem State.clearSymbolKeyed_nSym (s : State) : (s.clearSymbolKeyed).nSym = s.nSym := rfl
@[simp] theorem State.clearSymbolKeyed_nLeft (s : State) : (s.clearSymbolKeyed).nLeft = s.nLeft := rfl
@[simp] theorem State.clearSymbolKeyed_nRight (s : State) : (s.clearSymbolKeyed).nRight = s.nRight := rfl
@[simp] theorem State.clearSymbolKeyed_caps (s : State) : (s.clearSymbolKeyed).caps = s.caps := rfl
@[simp] theorem State.clearSymbolKeyed_txt (s : State) : (s.clearSymbolKeyed).txt = s.txt := rfl
@[simp] theorem State.clearSymbolKeyed_bit (s : State) : (s.clearSymbolKeyed).bit = s.bit := rfl
@[simp] theorem State.clearSymbolKeyed_out (s : State) : (s.clearSymbolKeyed).out = s.out := rfl
@[simp] theorem State.clearSymbolKeyed_kSym (s : State) : (s.clearSymbolKeyed).kSym = s.kSym := rfl
@[simp] theorem State.clearSymbolKeyed_kCode (s : State) : (s.clearSymbolKeyed).kCode = s.kCode := rfl
@[simp] theorem State.clearSymbolKeyed_resets (s : State) : (s.clearSymbolKeyed).resets = s.resets := rfl
@[simp] theorem State.clearSymbolKeyed_pending (s : State) : (s.clearSymbolKeyed).pending = s.pending := rfl
@[simp] theorem State.clearSymbolKeyed_response (s : State) : (s.clearSymbolKeyed).response = s.response := rfl

/-! ## A SYMLEN write -/

@[simp] theorem State.setSymLen_code (v : Word) (s : State) : (State.setSymLen v s).code = s.code := rfl
@[simp] theorem State.setSymLen_err (v : Word) (s : State) : (State.setSymLen v s).err = s.err := rfl
@[simp] theorem State.setSymLen_hit (v : Word) (s : State) : (State.setSymLen v s).hit = s.hit := rfl
@[simp] theorem State.setSymLen_tree (v : Word) (s : State) : (State.setSymLen v s).tree = .none := rfl
@[simp] theorem State.setSymLen_errPos (v : Word) (s : State) : (State.setSymLen v s).errPos = s.errPos := rfl
@[simp] theorem State.setSymLen_symLen (v : Word) (s : State) : (State.setSymLen v s).symLen = v := rfl
@[simp] theorem State.setSymLen_blkLen (v : Word) (s : State) : (State.setSymLen v s).blkLen = s.blkLen := rfl
@[simp] theorem State.setSymLen_txtLen (v : Word) (s : State) : (State.setSymLen v s).txtLen = s.txtLen := rfl
@[simp] theorem State.setSymLen_bitLen (v : Word) (s : State) : (State.setSymLen v s).bitLen = s.bitLen := rfl
@[simp] theorem State.setSymLen_outLen (v : Word) (s : State) : (State.setSymLen v s).outLen = s.outLen := rfl
@[simp] theorem State.setSymLen_ft (v : Word) (s : State) : (State.setSymLen v s).ft = [] := rfl
@[simp] theorem State.setSymLen_nodes (v : Word) (s : State) : (State.setSymLen v s).nodes = [] := rfl
@[simp] theorem State.setSymLen_root (v : Word) (s : State) : (State.setSymLen v s).root = NIL := rfl
@[simp] theorem State.setSymLen_queue (v : Word) (s : State) : (State.setSymLen v s).queue = [] := rfl
@[simp] theorem State.setSymLen_sl (v : Word) (s : State) : (State.setSymLen v s).sl = none := rfl
@[simp] theorem State.setSymLen_ct (v : Word) (s : State) : (State.setSymLen v s).ct = [] := rfl
@[simp] theorem State.setSymLen_kClen (v : Word) (s : State) : (State.setSymLen v s).kClen = s.kClen := rfl
@[simp] theorem State.setSymLen_kCnt (v : Word) (s : State) : (State.setSymLen v s).kCnt = s.kCnt := rfl
@[simp] theorem State.setSymLen_kIdx (v : Word) (s : State) : (State.setSymLen v s).kIdx = s.kIdx := rfl
@[simp] theorem State.setSymLen_nTag (v : Word) (s : State) : (State.setSymLen v s).nTag = s.nTag := rfl
@[simp] theorem State.setSymLen_nFreq (v : Word) (s : State) : (State.setSymLen v s).nFreq = s.nFreq := rfl
@[simp] theorem State.setSymLen_nSym (v : Word) (s : State) : (State.setSymLen v s).nSym = s.nSym := rfl
@[simp] theorem State.setSymLen_nLeft (v : Word) (s : State) : (State.setSymLen v s).nLeft = s.nLeft := rfl
@[simp] theorem State.setSymLen_nRight (v : Word) (s : State) : (State.setSymLen v s).nRight = s.nRight := rfl
@[simp] theorem State.setSymLen_caps (v : Word) (s : State) : (State.setSymLen v s).caps = s.caps := rfl
@[simp] theorem State.setSymLen_txt (v : Word) (s : State) : (State.setSymLen v s).txt = s.txt := rfl
@[simp] theorem State.setSymLen_bit (v : Word) (s : State) : (State.setSymLen v s).bit = s.bit := rfl
@[simp] theorem State.setSymLen_out (v : Word) (s : State) : (State.setSymLen v s).out = s.out := rfl
@[simp] theorem State.setSymLen_kSym (v : Word) (s : State) : (State.setSymLen v s).kSym = s.kSym := rfl
@[simp] theorem State.setSymLen_kCode (v : Word) (s : State) : (State.setSymLen v s).kCode = s.kCode := rfl
@[simp] theorem State.setSymLen_resets (v : Word) (s : State) : (State.setSymLen v s).resets = s.resets := rfl
@[simp] theorem State.setSymLen_pending (v : Word) (s : State) : (State.setSymLen v s).pending = s.pending := rfl
@[simp] theorem State.setSymLen_response (v : Word) (s : State) : (State.setSymLen v s).response = s.response := rfl

/-! ## The memory of one space -/

@[simp] theorem State.setMemory_code (sp : Space) (m : Memory) (s : State) : (State.setMemory sp m s).code = s.code := by
  cases sp <;> rfl
@[simp] theorem State.setMemory_err (sp : Space) (m : Memory) (s : State) : (State.setMemory sp m s).err = s.err := by
  cases sp <;> rfl
@[simp] theorem State.setMemory_hit (sp : Space) (m : Memory) (s : State) : (State.setMemory sp m s).hit = s.hit := by
  cases sp <;> rfl
@[simp] theorem State.setMemory_tree (sp : Space) (m : Memory) (s : State) : (State.setMemory sp m s).tree = s.tree := by
  cases sp <;> rfl
@[simp] theorem State.setMemory_errPos (sp : Space) (m : Memory) (s : State) : (State.setMemory sp m s).errPos = s.errPos := by
  cases sp <;> rfl
@[simp] theorem State.setMemory_symLen (sp : Space) (m : Memory) (s : State) : (State.setMemory sp m s).symLen = s.symLen := by
  cases sp <;> rfl
@[simp] theorem State.setMemory_blkLen (sp : Space) (m : Memory) (s : State) : (State.setMemory sp m s).blkLen = s.blkLen := by
  cases sp <;> rfl
@[simp] theorem State.setMemory_txtLen (sp : Space) (m : Memory) (s : State) : (State.setMemory sp m s).txtLen = s.txtLen := by
  cases sp <;> rfl
@[simp] theorem State.setMemory_bitLen (sp : Space) (m : Memory) (s : State) : (State.setMemory sp m s).bitLen = s.bitLen := by
  cases sp <;> rfl
@[simp] theorem State.setMemory_outLen (sp : Space) (m : Memory) (s : State) : (State.setMemory sp m s).outLen = s.outLen := by
  cases sp <;> rfl
@[simp] theorem State.setMemory_ft (sp : Space) (m : Memory) (s : State) : (State.setMemory sp m s).ft = s.ft := by
  cases sp <;> rfl
@[simp] theorem State.setMemory_nodes (sp : Space) (m : Memory) (s : State) : (State.setMemory sp m s).nodes = s.nodes := by
  cases sp <;> rfl
@[simp] theorem State.setMemory_root (sp : Space) (m : Memory) (s : State) : (State.setMemory sp m s).root = s.root := by
  cases sp <;> rfl
@[simp] theorem State.setMemory_queue (sp : Space) (m : Memory) (s : State) : (State.setMemory sp m s).queue = s.queue := by
  cases sp <;> rfl
@[simp] theorem State.setMemory_sl (sp : Space) (m : Memory) (s : State) : (State.setMemory sp m s).sl = s.sl := by
  cases sp <;> rfl
@[simp] theorem State.setMemory_ct (sp : Space) (m : Memory) (s : State) : (State.setMemory sp m s).ct = s.ct := by
  cases sp <;> rfl
@[simp] theorem State.setMemory_kClen (sp : Space) (m : Memory) (s : State) : (State.setMemory sp m s).kClen = s.kClen := by
  cases sp <;> rfl
@[simp] theorem State.setMemory_kCnt (sp : Space) (m : Memory) (s : State) : (State.setMemory sp m s).kCnt = s.kCnt := by
  cases sp <;> rfl
@[simp] theorem State.setMemory_kIdx (sp : Space) (m : Memory) (s : State) : (State.setMemory sp m s).kIdx = s.kIdx := by
  cases sp <;> rfl
@[simp] theorem State.setMemory_nTag (sp : Space) (m : Memory) (s : State) : (State.setMemory sp m s).nTag = s.nTag := by
  cases sp <;> rfl
@[simp] theorem State.setMemory_nFreq (sp : Space) (m : Memory) (s : State) : (State.setMemory sp m s).nFreq = s.nFreq := by
  cases sp <;> rfl
@[simp] theorem State.setMemory_nSym (sp : Space) (m : Memory) (s : State) : (State.setMemory sp m s).nSym = s.nSym := by
  cases sp <;> rfl
@[simp] theorem State.setMemory_nLeft (sp : Space) (m : Memory) (s : State) : (State.setMemory sp m s).nLeft = s.nLeft := by
  cases sp <;> rfl
@[simp] theorem State.setMemory_nRight (sp : Space) (m : Memory) (s : State) : (State.setMemory sp m s).nRight = s.nRight := by
  cases sp <;> rfl
@[simp] theorem State.setMemory_caps (sp : Space) (m : Memory) (s : State) : (State.setMemory sp m s).caps = s.caps := by
  cases sp <;> rfl
@[simp] theorem State.setMemory_resets (sp : Space) (m : Memory) (s : State) : (State.setMemory sp m s).resets = s.resets := by
  cases sp <;> rfl
@[simp] theorem State.setMemory_pending (sp : Space) (m : Memory) (s : State) : (State.setMemory sp m s).pending = s.pending := by
  cases sp <;> rfl
@[simp] theorem State.setMemory_response (sp : Space) (m : Memory) (s : State) : (State.setMemory sp m s).response = s.response := by
  cases sp <;> rfl

/-- A space's memory after the memory of a space was replaced. -/
@[simp] theorem State.memory_setMemory (sp sp' : Space) (m : Memory) (s : State) :
    (State.setMemory sp m s).memory sp' = if sp' = sp then m else s.memory sp' := by
  cases sp <;> cases sp' <;> rfl

@[simp] theorem State.setMemory_setMemory (sp : Space) (m m' : Memory) (s : State) :
    State.setMemory sp m' (State.setMemory sp m s) = State.setMemory sp m' s := by
  cases sp <;> rfl

@[simp] theorem State.setMemory_memory (sp : Space) (s : State) : State.setMemory sp (s.memory sp) s = s := by
  cases sp <;> rfl

@[simp] theorem State.memory_ended (s : State) (c : Completion) (pos : Nat) (sp : Space) :
    (s.ended c pos).memory sp = s.memory sp := by
  cases sp <;> rfl

@[simp] theorem State.memory_setSymLen (s : State) (v : Word) (sp : Space) :
    (State.setSymLen v s).memory sp = s.memory sp := by
  cases sp <;> rfl

end Sys2Proof.Machine
end

