-- ==== Sys2Proof/Laws/Memory.lean ====
section
/-! SUPPORT. The laws of memory and of buffer elements: read after write, the canonical form, and what storing a run of
characters does to every element and to every other field. -/

namespace Sys2Proof.Machine

open Sys2Proof

set_option autoImplicit false

/-! ## One memory -/

theorem Memory.read_write_same (m : Memory) (i : Nat) (v : Byte) : (Memory.write i v m).read i = some v := by
  induction m with
  | nil => simp [Memory.write, Memory.read]
  | cons c m ih =>
    unfold Memory.write
    split
    · simp [Memory.read]
    · split
      · simp [Memory.read]
      · rename_i _ h
        simp [Memory.read, Ne.symm h, ih]

theorem Memory.read_write_other (m : Memory) (i j : Nat) (v : Byte) (h : j ≠ i) :
    (Memory.write i v m).read j = m.read j := by
  induction m with
  | nil => simp [Memory.write, Memory.read, h.symm]
  | cons c m ih =>
    unfold Memory.write
    split
    · simp [Memory.read, h.symm]
    · split
      · rename_i _ hc
        simp [Memory.read, h.symm, ← hc]
      · simp [Memory.read, ih]

/-- A listed cell after a write is the written one or was listed before. -/
theorem Memory.mem_write {m : Memory} {i : Nat} {v : Byte} {c : Host.Cell} (h : c ∈ Memory.write i v m) :
    c = (i, v) ∨ c ∈ m := by
  induction m with
  | nil => simpa [Memory.write] using h
  | cons d m ih =>
    unfold Memory.write at h
    split at h
    · simpa using h
    · split at h
      · simp only [List.mem_cons] at h ⊢
        rcases h with h | h <;> simp [h]
      · simp only [List.mem_cons] at h ⊢
        rcases h with h | h
        · simp [h]
        · rcases ih h with h | h <;> simp [h]

/-- A write keeps the canonical form. -/
theorem Memory.write_wf {m : Memory} (i : Nat) (v : Byte) (h : m.wf) : (Memory.write i v m).wf := by
  induction m with
  | nil => simp [Memory.write, Memory.wf]
  | cons c m ih =>
    have hm := List.pairwise_cons.1 h
    unfold Memory.write
    split
    · rename_i hi
      refine List.pairwise_cons.2 ⟨?_, h⟩
      intro d hd
      rcases List.mem_cons.1 hd with rfl | hd
      · exact hi
      · exact Nat.lt_trans hi (hm.1 d hd)
    · split
      · rename_i hi
        refine List.pairwise_cons.2 ⟨?_, hm.2⟩
        intro d hd
        simpa [hi] using hm.1 d hd
      · rename_i h1 h2
        refine List.pairwise_cons.2 ⟨?_, ih hm.2⟩
        intro d hd
        rcases Memory.mem_write hd with rfl | hd
        · exact Nat.lt_of_le_of_ne (Nat.not_lt.1 h1) (Ne.symm h2)
        · exact hm.1 d hd

/-- Writing a run of characters from index `k` on. -/
def Memory.writeAll (k : Nat) : List Byte → Memory → Memory
  | [], m => m
  | v :: vs, m => Memory.writeAll (k + 1) vs (Memory.write k v m)

theorem Memory.read_writeAll (vs : List Byte) (k : Nat) (m : Memory) (j : Nat) :
    (Memory.writeAll k vs m).read j = if k ≤ j ∧ j < k + vs.length then vs[j - k]? else m.read j := by
  induction vs generalizing k m with
  | nil =>
    have : ¬ (k ≤ j ∧ j < k + ([] : List Byte).length) := by simp
    rw [if_neg this]; rfl
  | cons v vs ih =>
    rw [Memory.writeAll, ih]
    by_cases hj : j = k
    · subst hj
      simp [Memory.read_write_same]
    · rw [Memory.read_write_other _ _ _ _ hj]
      by_cases h : k + 1 ≤ j ∧ j < k + 1 + vs.length
      · rw [if_pos h, if_pos (by simp; omega)]
        have : j - k = j - (k + 1) + 1 := by omega
        rw [this, List.getElem?_cons_succ]
      · rw [if_neg h, if_neg (by simp; omega)]

theorem Memory.writeAll_wf {vs : List Byte} {k : Nat} {m : Memory} (h : m.wf) : (Memory.writeAll k vs m).wf := by
  induction vs generalizing k m with
  | nil => exact h
  | cons v vs ih => exact ih (Memory.write_wf k v h)

theorem Memory.mem_writeAll {vs : List Byte} {k : Nat} {m : Memory} {c : Host.Cell}
    (h : c ∈ Memory.writeAll k vs m) : (k ≤ c.1 ∧ c.1 < k + vs.length) ∨ c ∈ m := by
  induction vs generalizing k m with
  | nil => exact .inr h
  | cons v vs ih =>
    rcases ih h with h | h
    · left; simp only [List.length_cons]; omega
    · rcases Memory.mem_write h with rfl | h
      · left; simp
      · exact .inr h

/-! ## Elements of a state -/

theorem State.element_eq_of_memory {s t : State} {sp : Space} (hm : t.memory sp = s.memory sp)
    (hr : t.resets = s.resets) (i : Nat) : t.element sp i = s.element sp i := by
  simp [State.element, hm, hr]

theorem State.elements_eq_of_memory {s t : State} {sp : Space} (hm : t.memory sp = s.memory sp)
    (hr : t.resets = s.resets) (k n : Nat) : t.elements sp k n = s.elements sp k n := by
  simp [State.elements, State.element, hm, hr]

@[simp] theorem State.elements_length (s : State) (sp : Space) (k n : Nat) : (s.elements sp k n).length = n := by
  simp [State.elements]

@[simp] theorem State.element_ended (s : State) (c : Completion) (pos : Nat) (sp : Space) (i : Nat) :
    (s.ended c pos).element sp i = s.element sp i :=
  State.element_eq_of_memory (by simp) (by simp) i

@[simp] theorem State.elements_ended (s : State) (c : Completion) (pos : Nat) (sp : Space) (k n : Nat) :
    (s.ended c pos).elements sp k n = s.elements sp k n :=
  State.elements_eq_of_memory (by simp) (by simp) k n

/-- Storing a run of characters is one replacement of the space's memory. -/
theorem State.storeAll_eq_setMemory (vs : List Byte) (sp : Space) (k : Nat) (s : State) :
    State.storeAll sp k vs s = State.setMemory sp (Memory.writeAll k vs (s.memory sp)) s := by
  induction vs generalizing k s with
  | nil => simp [State.storeAll, Memory.writeAll]
  | cons v vs ih => simp [State.storeAll, ih, State.store, Memory.writeAll]

/-- What storing a run of characters does to every element: the run stands from `k` on and every other element is as
before. -/
theorem State.element_storeAll (vs : List Byte) (sp sp' : Space) (k j : Nat) (s : State) :
    (State.storeAll sp k vs s).element sp' j =
      if sp' = sp ∧ k ≤ j ∧ j < k + vs.length then vs.getD (j - k) 0#8 else s.element sp' j := by
  rw [State.storeAll_eq_setMemory]
  by_cases hs : sp' = sp
  · subst hs
    by_cases h : k ≤ j ∧ j < k + vs.length
    · have hlt : j - k < vs.length := by omega
      simp [State.element, Memory.read_writeAll, h, List.getElem?_eq_getElem hlt]
    · rw [if_neg (by tauto)]
      simp [State.element, Memory.read_writeAll, h]
  · rw [if_neg (by tauto)]
    simp [State.element, hs]

/-- The stored run reads back. -/
theorem State.elements_storeAll_same (vs : List Byte) (sp : Space) (k : Nat) (s : State) :
    (State.storeAll sp k vs s).elements sp k vs.length = vs := by
  apply List.ext_getElem
  · simp
  · intro i h1 h2
    have hi : i < vs.length := h2
    simp [State.elements, State.element_storeAll, hi]

/-- Elements before and after a stored run, or in another space, read as before. -/
theorem State.elements_storeAll_other (vs : List Byte) (sp sp' : Space) (k a n : Nat) (s : State)
    (h : sp' ≠ sp ∨ a + n ≤ k ∨ k + vs.length ≤ a) :
    (State.storeAll sp k vs s).elements sp' a n = s.elements sp' a n := by
  unfold State.elements
  apply List.map_congr_left
  intro i hi
  rw [State.element_storeAll, if_neg]
  have := List.mem_range.1 hi
  rintro ⟨h1, h2, h3⟩
  rcases h with h | h | h
  · exact h h1
  · omega
  · omega

/-- Consecutive runs of elements join. -/
theorem State.elements_append (s : State) (sp : Space) (k m n : Nat) :
    s.elements sp k (m + n) = s.elements sp k m ++ s.elements sp (k + m) n := by
  simp [State.elements, List.range_add, Nat.add_assoc]

/-! ## The fields storing leaves alone -/

@[simp] theorem State.storeAll_code (vs : List Byte) (sp : Space) (k : Nat) (s : State) :
    (State.storeAll sp k vs s).code = s.code := by
  rw [State.storeAll_eq_setMemory, State.setMemory_code]
@[simp] theorem State.storeAll_err (vs : List Byte) (sp : Space) (k : Nat) (s : State) :
    (State.storeAll sp k vs s).err = s.err := by
  rw [State.storeAll_eq_setMemory, State.setMemory_err]
@[simp] theorem State.storeAll_hit (vs : List Byte) (sp : Space) (k : Nat) (s : State) :
    (State.storeAll sp k vs s).hit = s.hit := by
  rw [State.storeAll_eq_setMemory, State.setMemory_hit]
@[simp] theorem State.storeAll_tree (vs : List Byte) (sp : Space) (k : Nat) (s : State) :
    (State.storeAll sp k vs s).tree = s.tree := by
  rw [State.storeAll_eq_setMemory, State.setMemory_tree]
@[simp] theorem State.storeAll_errPos (vs : List Byte) (sp : Space) (k : Nat) (s : State) :
    (State.storeAll sp k vs s).errPos = s.errPos := by
  rw [State.storeAll_eq_setMemory, State.setMemory_errPos]
@[simp] theorem State.storeAll_symLen (vs : List Byte) (sp : Space) (k : Nat) (s : State) :
    (State.storeAll sp k vs s).symLen = s.symLen := by
  rw [State.storeAll_eq_setMemory, State.setMemory_symLen]
@[simp] theorem State.storeAll_blkLen (vs : List Byte) (sp : Space) (k : Nat) (s : State) :
    (State.storeAll sp k vs s).blkLen = s.blkLen := by
  rw [State.storeAll_eq_setMemory, State.setMemory_blkLen]
@[simp] theorem State.storeAll_txtLen (vs : List Byte) (sp : Space) (k : Nat) (s : State) :
    (State.storeAll sp k vs s).txtLen = s.txtLen := by
  rw [State.storeAll_eq_setMemory, State.setMemory_txtLen]
@[simp] theorem State.storeAll_bitLen (vs : List Byte) (sp : Space) (k : Nat) (s : State) :
    (State.storeAll sp k vs s).bitLen = s.bitLen := by
  rw [State.storeAll_eq_setMemory, State.setMemory_bitLen]
@[simp] theorem State.storeAll_outLen (vs : List Byte) (sp : Space) (k : Nat) (s : State) :
    (State.storeAll sp k vs s).outLen = s.outLen := by
  rw [State.storeAll_eq_setMemory, State.setMemory_outLen]
@[simp] theorem State.storeAll_ft (vs : List Byte) (sp : Space) (k : Nat) (s : State) :
    (State.storeAll sp k vs s).ft = s.ft := by
  rw [State.storeAll_eq_setMemory, State.setMemory_ft]
@[simp] theorem State.storeAll_nodes (vs : List Byte) (sp : Space) (k : Nat) (s : State) :
    (State.storeAll sp k vs s).nodes = s.nodes := by
  rw [State.storeAll_eq_setMemory, State.setMemory_nodes]
@[simp] theorem State.storeAll_root (vs : List Byte) (sp : Space) (k : Nat) (s : State) :
    (State.storeAll sp k vs s).root = s.root := by
  rw [State.storeAll_eq_setMemory, State.setMemory_root]
@[simp] theorem State.storeAll_queue (vs : List Byte) (sp : Space) (k : Nat) (s : State) :
    (State.storeAll sp k vs s).queue = s.queue := by
  rw [State.storeAll_eq_setMemory, State.setMemory_queue]
@[simp] theorem State.storeAll_sl (vs : List Byte) (sp : Space) (k : Nat) (s : State) :
    (State.storeAll sp k vs s).sl = s.sl := by
  rw [State.storeAll_eq_setMemory, State.setMemory_sl]
@[simp] theorem State.storeAll_ct (vs : List Byte) (sp : Space) (k : Nat) (s : State) :
    (State.storeAll sp k vs s).ct = s.ct := by
  rw [State.storeAll_eq_setMemory, State.setMemory_ct]
@[simp] theorem State.storeAll_kClen (vs : List Byte) (sp : Space) (k : Nat) (s : State) :
    (State.storeAll sp k vs s).kClen = s.kClen := by
  rw [State.storeAll_eq_setMemory, State.setMemory_kClen]
@[simp] theorem State.storeAll_kCnt (vs : List Byte) (sp : Space) (k : Nat) (s : State) :
    (State.storeAll sp k vs s).kCnt = s.kCnt := by
  rw [State.storeAll_eq_setMemory, State.setMemory_kCnt]
@[simp] theorem State.storeAll_kIdx (vs : List Byte) (sp : Space) (k : Nat) (s : State) :
    (State.storeAll sp k vs s).kIdx = s.kIdx := by
  rw [State.storeAll_eq_setMemory, State.setMemory_kIdx]
@[simp] theorem State.storeAll_nTag (vs : List Byte) (sp : Space) (k : Nat) (s : State) :
    (State.storeAll sp k vs s).nTag = s.nTag := by
  rw [State.storeAll_eq_setMemory, State.setMemory_nTag]
@[simp] theorem State.storeAll_nFreq (vs : List Byte) (sp : Space) (k : Nat) (s : State) :
    (State.storeAll sp k vs s).nFreq = s.nFreq := by
  rw [State.storeAll_eq_setMemory, State.setMemory_nFreq]
@[simp] theorem State.storeAll_nSym (vs : List Byte) (sp : Space) (k : Nat) (s : State) :
    (State.storeAll sp k vs s).nSym = s.nSym := by
  rw [State.storeAll_eq_setMemory, State.setMemory_nSym]
@[simp] theorem State.storeAll_nLeft (vs : List Byte) (sp : Space) (k : Nat) (s : State) :
    (State.storeAll sp k vs s).nLeft = s.nLeft := by
  rw [State.storeAll_eq_setMemory, State.setMemory_nLeft]
@[simp] theorem State.storeAll_nRight (vs : List Byte) (sp : Space) (k : Nat) (s : State) :
    (State.storeAll sp k vs s).nRight = s.nRight := by
  rw [State.storeAll_eq_setMemory, State.setMemory_nRight]
@[simp] theorem State.storeAll_caps (vs : List Byte) (sp : Space) (k : Nat) (s : State) :
    (State.storeAll sp k vs s).caps = s.caps := by
  rw [State.storeAll_eq_setMemory, State.setMemory_caps]
@[simp] theorem State.storeAll_resets (vs : List Byte) (sp : Space) (k : Nat) (s : State) :
    (State.storeAll sp k vs s).resets = s.resets := by
  rw [State.storeAll_eq_setMemory, State.setMemory_resets]
@[simp] theorem State.storeAll_pending (vs : List Byte) (sp : Space) (k : Nat) (s : State) :
    (State.storeAll sp k vs s).pending = s.pending := by
  rw [State.storeAll_eq_setMemory, State.setMemory_pending]
@[simp] theorem State.storeAll_response (vs : List Byte) (sp : Space) (k : Nat) (s : State) :
    (State.storeAll sp k vs s).response = s.response := by
  rw [State.storeAll_eq_setMemory, State.setMemory_response]

@[simp] theorem State.memory_storeAll (vs : List Byte) (sp sp' : Space) (k : Nat) (s : State) :
    (State.storeAll sp k vs s).memory sp' =
      if sp' = sp then Memory.writeAll k vs (s.memory sp) else s.memory sp' := by
  rw [State.storeAll_eq_setMemory, State.memory_setMemory]

end Sys2Proof.Machine
end

