-- ==== Sys2Proof/Laws/Endings.lean ====
section
/-! SUPPORT. The end of a command: `done`, `raise` and `takeIllegal` always answer a next state, and this is it. -/

namespace Sys2Proof.Machine

open Sys2Proof

set_option autoImplicit false

/-- `done` answers exactly the ended state. -/
theorem done_eq_next {c : Completion} {s t : State} : done c s = .next t ↔ s.ended c 0 = t := by
  simp [done]

/-- `raise` answers exactly the ended state. -/
theorem raise_eq_next {c : Completion} {pos : Nat} {s t : State} : raise c pos s = .next t ↔ s.ended c pos = t := by
  simp [raise]

/-- The record a command leaves of its end, for a command that had changed nothing of that record before. -/
theorem State.ended_Ended {s u : State} (c : Completion) (pos : Nat) (he : u.err = s.err) :
    Ended s (u.ended c pos) c pos :=
  ⟨rfl, rfl, by simp [nextErr, he], rfl⟩

/-- Ending changes nothing but the record of the end. -/
theorem State.ended_only (s : State) (c : Completion) (pos : Nat) : OnlyEndingChanged s (s.ended c pos) := rfl

/-- An ended state is the state it ended from with the record of the end. -/
theorem State.ended_eq (s : State) (c : Completion) (pos : Nat) :
    s.ended c pos = s.endedAs (s.ended c pos) := rfl

/-- A `raise` from an untouched state: its record, and nothing else changed. -/
theorem raise_only (c : Completion) (pos : Nat) (s : State) :
    ∃ t, raise c pos s = .next t ∧ Ended s t c pos ∧ OnlyEndingChanged s t :=
  ⟨_, rfl, State.ended_Ended c pos rfl, rfl⟩

/-- A second end overwrites the record of the first, but for ERR, which is sticky. -/
theorem State.ended_ended (s : State) (c d : Completion) (p q : Nat) :
    (s.ended c p).ended d q = { s with err := nextErr c s.err }.ended d q := rfl

/-- A success-class end leaves ERR. -/
theorem nextErr_success {c : Completion} (b : Bool) (h : c.isError = false) : nextErr c b = b := by
  simp [nextErr, h]

/-- The primary input decides between OK and NODATA. -/
theorem okOrNoData_isError (b : Bool) : (okOrNoData b).isError = false := by
  cases b <;> rfl

theorem okOrNoData_eq_noData (b : Bool) : okOrNoData b = .noData ↔ b = true := by
  cases b <;> simp [okOrNoData]

theorem okOrNoData_mem (b : Bool) : okOrNoData b = .ok ∨ okOrNoData b = .noData := by
  cases b <;> simp [okOrNoData]

/-- The bits of STATUS are its fields (R23). -/
theorem State.statusWord_fields (s : State) :
    s.statusWord.extractLsb' 0 4 = s.code.value ∧ s.statusWord.extractLsb' 4 1 = BitVec.ofBool s.err ∧
    s.statusWord.extractLsb' 5 1 = BitVec.ofBool s.hit ∧ s.statusWord.extractLsb' 6 2 = s.tree.value ∧
    s.statusWord.extractLsb' 8 1 = BitVec.ofBool s.slv ∧ s.statusWord.extractLsb' 9 23 = 0#23 := by
  unfold State.statusWord
  generalize s.code.value = c
  generalize s.err = e
  generalize s.hit = h
  generalize s.tree.value = t
  generalize s.slv = l
  revert c e h t l
  decide

end Sys2Proof.Machine
end

