-- ==== Sys2Proof/Laws/Staging.lean ====
section
/-! SUPPORT. What the four storing operations of the commands do: staging a symbol, staging a code, appending to OUT and
appending to BIT. Each is stated once as the whole next state with its elements. -/

namespace Sys2Proof.Machine

open Sys2Proof

set_option autoImplicit false

theorem chr_eq (b : Bool) : chr b = if b then 0x31#8 else 0x30#8 := rfl

theorem codeChars_eq (c : Code) : codeChars c = c.map (fun b => if b then 0x31#8 else 0x30#8) := rfl

@[simp] theorem codeChars_length (c : Code) : (codeChars c).length = c.length := by simp [codeChars]

theorem codeChars_append (c d : Code) : codeChars (c ++ d) = codeChars c ++ codeChars d := by simp [codeChars]

@[simp] theorem bitOf_chr (b : Bool) : bitOf (chr b) = some b := by cases b <;> rfl

theorem bitOf_eq_some {c : Byte} {b : Bool} : bitOf c = some b ↔ c = chr b := by
  unfold bitOf chr charZero charOne
  cases b <;> split <;> simp_all

theorem bitOf_eq_none {c : Byte} : bitOf c = none ↔ c ≠ 0x30#8 ∧ c ≠ 0x31#8 := by
  unfold bitOf charZero charOne
  split
  · simp_all
  · split <;> simp_all

/-- The characters of a code determine it. -/
theorem codeChars_injective {c d : Code} (h : codeChars c = codeChars d) : c = d := by
  have : Function.Injective chr := by
    intro a b h
    have := congrArg bitOf h
    simpa only [bitOf_chr, Option.some.injEq] using this
  exact List.map_injective_iff.2 this h

/-- A number below 2^32 is what a register shows of it. -/
theorem word_toNat {n : Nat} (h : n < 2 ^ 32) : (word n).toNat = n := by
  rw [word, BitVec.toNat_ofNat, Nat.mod_eq_of_lt h]

/-- A register shows itself. -/
theorem word_toNat_self (w : Word) : word w.toNat = w := by
  simp [word]

/-- Staging a symbol changes K_SYM from index 0 on and nothing else. -/
theorem State.stageSymbol_eq (sym : Symbol) (s : State) :
    s.stageSymbol sym = { s with kSym := Memory.writeAll 0 sym s.kSym } := by
  rw [State.stageSymbol, State.storeAll_eq_setMemory]; rfl

/-- Staging a code changes K_CODE from index 0 on and K_CLEN, and nothing else. -/
theorem State.stageCode_eq (c : Code) (s : State) :
    s.stageCode c = { s with kCode := Memory.writeAll 0 (codeChars c) s.kCode, kClen := word c.length } := by
  rw [State.stageCode, State.storeAll_eq_setMemory]; rfl

/-- Appending to OUT changes OUT from OUT_LEN on and OUT_LEN, and nothing else. -/
theorem State.emit_eq (cs : List Byte) (s : State) :
    s.emit cs = { s with
      out := Memory.writeAll s.outLen.toNat cs s.out, outLen := word (s.outLen.toNat + cs.length) } := by
  rw [State.emit, State.storeAll_eq_setMemory]; rfl

/-- Appending a code to BIT changes BIT from BIT_LEN on and BIT_LEN, and nothing else. -/
theorem State.appendBits_eq (c : Code) (s : State) :
    s.appendBits c = { s with
      bit := Memory.writeAll s.bitLen.toNat (codeChars c) s.bit, bitLen := word (s.bitLen.toNat + c.length) } := by
  rw [State.appendBits, State.storeAll_eq_setMemory]; rfl

/-- After an append to OUT that fits, the decoded text is the old one with the characters after it, and no element
beyond is touched. -/
theorem State.emit_decoded (cs : List Byte) (s : State) (h : s.outLen.toNat + cs.length < 2 ^ 32) :
    (s.emit cs).outLen.toNat = s.outLen.toNat + cs.length ∧ (s.emit cs).decoded = s.decoded ++ cs ∧
    ∀ k, s.outLen.toNat + cs.length ≤ k → (s.emit cs).element .out k = s.element .out k := by
  have hl : (s.emit cs).outLen.toNat = s.outLen.toNat + cs.length := word_toNat h
  have he : ∀ k n, (s.emit cs).elements .out k n = (s.storeAll .out s.outLen.toNat cs).elements .out k n := by
    intro k n; apply State.elements_eq_of_memory <;> rfl
  refine ⟨hl, ?_, ?_⟩
  · rw [State.decoded, hl, he, State.elements_append, Nat.zero_add, State.elements_storeAll_same,
      State.elements_storeAll_other _ _ _ _ _ _ _ (.inr (.inl (by omega)))]
    rfl
  · intro k hk
    have : (s.emit cs).element .out k = (s.storeAll .out s.outLen.toNat cs).element .out k := by
      apply State.element_eq_of_memory <;> rfl
    rw [this, State.element_storeAll, if_neg (by omega)]

/-- After an append to BIT that fits, the bit string is the old one with the code after it, and no element beyond is
touched. -/
theorem State.appendBits_bitChars (c : Code) (s : State) (h : s.bitLen.toNat + c.length < 2 ^ 32) :
    (s.appendBits c).bitLen.toNat = s.bitLen.toNat + c.length ∧
    (s.appendBits c).bitChars = s.bitChars ++ codeChars c ∧
    ∀ k, s.bitLen.toNat + c.length ≤ k → (s.appendBits c).element .bit k = s.element .bit k := by
  have hl : (s.appendBits c).bitLen.toNat = s.bitLen.toNat + c.length := word_toNat h
  have he : ∀ k n, (s.appendBits c).elements .bit k n =
      (s.storeAll .bit s.bitLen.toNat (codeChars c)).elements .bit k n := by
    intro k n; apply State.elements_eq_of_memory <;> rfl
  refine ⟨hl, ?_, ?_⟩
  · rw [State.bitChars, hl, he, State.elements_append, Nat.zero_add]
    conv_lhs => rw [← codeChars_length c]
    rw [State.elements_storeAll_same, State.elements_storeAll_other _ _ _ _ _ _ _ (.inr (.inl (by omega)))]
    rfl
  · intro k hk
    have : (s.appendBits c).element .bit k = (s.storeAll .bit s.bitLen.toNat (codeChars c)).element .bit k := by
      apply State.element_eq_of_memory <;> rfl
    rw [this, State.element_storeAll, if_neg (by rw [codeChars_length]; omega)]

/-- After a symbol is staged it reads back, and no element of K_SYM beyond it is touched. -/
theorem State.stageSymbol_elements (sym : Symbol) (s : State) :
    (s.stageSymbol sym).elements .kSym 0 sym.length = sym ∧
    ∀ k, sym.length ≤ k → (s.stageSymbol sym).element .kSym k = s.element .kSym k := by
  refine ⟨State.elements_storeAll_same sym .kSym 0 s, fun k hk => ?_⟩
  rw [State.stageSymbol, State.element_storeAll, if_neg (by omega)]

/-- After a code is staged its characters read back, and no element of K_CODE beyond them is touched. -/
theorem State.stageCode_elements (c : Code) (s : State) :
    (s.stageCode c).elements .kCode 0 c.length = codeChars c ∧
    ∀ k, c.length ≤ k → (s.stageCode c).element .kCode k = s.element .kCode k := by
  have he : ∀ k n, (s.stageCode c).elements .kCode k n = (s.storeAll .kCode 0 (codeChars c)).elements .kCode k n := by
    intro k n; apply State.elements_eq_of_memory <;> rfl
  refine ⟨?_, fun k hk => ?_⟩
  · rw [he]
    conv_lhs => rw [← codeChars_length c]
    exact State.elements_storeAll_same (codeChars c) .kCode 0 s
  · have : (s.stageCode c).element .kCode k = (s.storeAll .kCode 0 (codeChars c)).element .kCode k := by
      apply State.element_eq_of_memory <;> rfl
    rw [this, State.element_storeAll, if_neg (by rw [codeChars_length]; omega)]

/-! ## Which elements the four operations touch -/

theorem State.emit_element (cs : List Byte) (s : State) (sp : Space) (k : Nat)
    (h : ¬ (sp = .out ∧ s.outLen.toNat ≤ k ∧ k < s.outLen.toNat + cs.length)) :
    (s.emit cs).element sp k = s.element sp k := by
  have : (s.emit cs).element sp k = (s.storeAll .out s.outLen.toNat cs).element sp k := by
    apply State.element_eq_of_memory <;> cases sp <;> rfl
  rw [this, State.element_storeAll, if_neg h]

theorem State.appendBits_element (c : Code) (s : State) (sp : Space) (k : Nat)
    (h : ¬ (sp = .bit ∧ s.bitLen.toNat ≤ k ∧ k < s.bitLen.toNat + c.length)) :
    (s.appendBits c).element sp k = s.element sp k := by
  have : (s.appendBits c).element sp k = (s.storeAll .bit s.bitLen.toNat (codeChars c)).element sp k := by
    apply State.element_eq_of_memory <;> cases sp <;> rfl
  rw [this, State.element_storeAll, if_neg (by simpa using h)]

theorem State.stageSymbol_element (sym : Symbol) (s : State) (sp : Space) (k : Nat)
    (h : ¬ (sp = .kSym ∧ k < sym.length)) : (s.stageSymbol sym).element sp k = s.element sp k := by
  rw [State.stageSymbol, State.element_storeAll, if_neg (by simpa using h)]

theorem State.stageCode_element (c : Code) (s : State) (sp : Space) (k : Nat)
    (h : ¬ (sp = .kCode ∧ k < c.length)) : (s.stageCode c).element sp k = s.element sp k := by
  have : (s.stageCode c).element sp k = (s.storeAll .kCode 0 (codeChars c)).element sp k := by
    apply State.element_eq_of_memory <;> cases sp <;> rfl
  rw [this, State.element_storeAll, if_neg (by simpa using h)]

/-! ## The scan of a staged code -/

/-- The scan answers the bits exactly when the elements are the bits' characters. -/
theorem scanBits_eq_ok {j : Nat} {cs : List Byte} {c : Code} : scanBits j cs = .ok c ↔ cs = codeChars c := by
  induction cs generalizing j c with
  | nil => cases c <;> simp [scanBits, codeChars]
  | cons x xs ih =>
    unfold scanBits
    cases hx : bitOf x with
    | none =>
      cases c with
      | nil => simp [codeChars]
      | cons b c =>
        simp only [reduceCtorEq, false_iff, codeChars, List.map_cons]
        intro h
        rw [(List.cons.inj h).1, bitOf_chr] at hx
        cases hx
    | some b =>
      rw [bitOf_eq_some] at hx
      subst hx
      cases hr : scanBits (j + 1) xs with
      | error k =>
        simp only [reduceCtorEq, false_iff]
        cases c with
        | nil => simp [codeChars]
        | cons b' c =>
          intro h
          rw [codeChars, List.map_cons] at h
          rw [(ih (c := c)).2 (List.cons.inj h).2] at hr
          cases hr
      | ok bs =>
        have := (ih).1 hr
        subst this
        simp only [Except.ok.injEq]
        constructor
        · rintro rfl; rfl
        · intro h
          exact codeChars_injective (c := b :: bs) (d := c) (by rw [← h]; rfl)

/-- The scan answers an index exactly when that element is the first that is no bit. -/
theorem scanBits_eq_error {j k : Nat} {cs : List Byte} :
    scanBits j cs = .error k ↔
      ∃ (c : Code) (x : Byte) (xs : List Byte), cs = codeChars c ++ x :: xs ∧ bitOf x = none ∧ k = j + c.length := by
  induction cs generalizing j k with
  | nil => simp [scanBits]
  | cons y ys ih =>
    unfold scanBits
    cases hy : bitOf y with
    | none =>
      simp only [Except.error.injEq]
      constructor
      · rintro rfl; exact ⟨[], y, ys, rfl, hy, rfl⟩
      · rintro ⟨c, x, xs, h, hx, rfl⟩
        cases c with
        | nil => rfl
        | cons b c =>
          rw [codeChars, List.map_cons, List.cons_append] at h
          rw [(List.cons.inj h).1, bitOf_chr] at hy
          cases hy
    | some b =>
      have hy' := bitOf_eq_some.1 hy
      cases hr : scanBits (j + 1) ys with
      | error k' =>
        obtain ⟨c, x, xs, hc, hx, rfl⟩ := ih.1 hr
        simp only [Except.error.injEq]
        constructor
        · rintro rfl
          exact ⟨b :: c, x, xs, by rw [hc, hy']; rfl, hx, by simp; omega⟩
        · rintro ⟨c', x', xs', h, hx', rfl⟩
          cases c' with
          | nil =>
            rw [← (List.cons.inj h).1, hy] at hx'
            cases hx'
          | cons b' c' =>
            rw [codeChars, List.map_cons, List.cons_append] at h
            have h2 : scanBits (j + 1) ys = .error (j + 1 + c'.length) :=
              ih.2 ⟨c', x', xs', (List.cons.inj h).2, hx', rfl⟩
            rw [hr] at h2
            injection h2 with h2
            simp at h2 ⊢
            omega
      | ok bs =>
        simp only [reduceCtorEq, false_iff]
        rintro ⟨c', x', xs', h, hx', -⟩
        cases c' with
        | nil =>
          rw [← (List.cons.inj h).1, hy] at hx'
          cases hx'
        | cons b' c' =>
          rw [codeChars, List.map_cons, List.cons_append] at h
          rw [ih.2 ⟨c', x', xs', (List.cons.inj h).2, hx', rfl⟩] at hr
          cases hr

end Sys2Proof.Machine
end

