-- ==== Sys2Proof/Laws/HostSide.lean ====
section
/-! SUPPORT. The persisted table: where a text splits into lines, where a line splits, and what length is learned. -/

namespace Sys2Proof.Machine

open Sys2Proof

set_option autoImplicit false

/-- A line ends at its terminator. -/
theorem splitLines_line (line cur rest : List Byte) (h : charLineFeed ∉ line) :
    splitLines cur (line ++ charLineFeed :: rest) = (cur ++ line) :: splitLines [] rest := by
  induction line generalizing cur with
  | nil => simp [splitLines]
  | cons x xs ih =>
    simp only [List.mem_cons, not_or] at h
    rw [List.cons_append, splitLines, if_neg (fun hx => h.1 hx.symm), ih _ h.2]
    simp

/-- The first colon-space after a symbol that holds none is the one that follows it, whatever the symbol ends in. -/
theorem colonSpace_after (sym rest : List Byte) (p : Nat) (h : ¬ [charColon, charSpace] <:+: sym) :
    colonSpace p (sym ++ charColon :: charSpace :: rest) = some (p + sym.length) := by
  induction sym generalizing p with
  | nil => simp [colonSpace]
  | cons x xs ih =>
    have h2 : ¬ [charColon, charSpace] <:+: xs := fun hc => h (hc.trans (List.infix_cons (List.infix_refl _)))
    have key : ∃ y ys, xs ++ charColon :: charSpace :: rest = y :: ys ∧ ¬ (x = charColon ∧ y = charSpace) := by
      cases xs with
      | nil => exact ⟨_, _, rfl, by rintro ⟨-, h⟩; revert h; decide⟩
      | cons y ys => exact ⟨_, _, rfl, by rintro ⟨rfl, rfl⟩; exact h ⟨[], ys, rfl⟩⟩
    obtain ⟨y, ys, hy, hn⟩ := key
    have := ih (p + 1) h2
    rw [hy] at this
    rw [List.cons_append, hy, colonSpace, if_neg hn, this, List.length_cons]
    congr 1
    omega

/-- What is learned is a legal SYMLEN and the symbol length of a line of the text. -/
theorem learnedSymLen_eq_some {text : List Byte} {n : Nat} (h : learnedSymLen text = some n) :
    1 ≤ n ∧ n ≤ 256 ∧ ∃ line ∈ splitLines [] text, colonSpace 0 line = some n := by
  obtain ⟨line, hl, hn⟩ := List.exists_of_findSome?_eq_some h
  unfold lineSymLen at hn
  split at hn
  · cases hn
  · split at hn
    · cases hn
      exact ⟨by omega, by rename_i hp; exact hp.2, line, hl, by assumption⟩
    · cases hn

end Sys2Proof.Machine
end

