-- ==== Sys2Proof/Laws/Tables.lean ====
section
/-! SUPPORT. The order of symbols is a strict total order; counting a symbol, inserting an entry and looking one up, each
stated once in terms of membership and order. -/

namespace Sys2Proof.Machine

open Sys2Proof

set_option autoImplicit false

/-! ## The order of symbols (R10) -/

theorem symLt_irrefl (a : Symbol) : symLt a a = false := by
  induction a with
  | nil => rfl
  | cons x xs ih => simp [symLt, ih]

theorem symLt_trans {a b c : Symbol} (h1 : symLt a b = true) (h2 : symLt b c = true) : symLt a c = true := by
  induction a generalizing b c with
  | nil =>
    cases b with
    | nil => simp [symLt] at h1
    | cons y ys => cases c <;> simp [symLt] at h2 ⊢
  | cons x xs ih =>
    cases b with
    | nil => simp [symLt] at h1
    | cons y ys =>
      cases c with
      | nil => simp [symLt] at h2
      | cons z zs =>
        simp only [symLt] at h1 h2 ⊢
        by_cases hxy : x = y
        · by_cases hyz : y = z
          · subst hxy hyz
            simp only [if_true] at h1 h2 ⊢
            exact ih h1 h2
          · subst hxy
            simpa [hyz] using h2
        · by_cases hyz : y = z
          · subst hyz
            simpa [hxy] using h1
          · simp only [hxy, hyz, if_false, decide_eq_true_eq] at h1 h2
            have : x ≠ z := by rintro rfl; omega
            simp [this]
            omega

theorem symLt_asymm {a b : Symbol} (h : symLt a b = true) : symLt b a = false := by
  cases hb : symLt b a with
  | false => rfl
  | true =>
    have := symLt_trans h hb
    rw [symLt_irrefl] at this
    cases this

theorem symLt_ne {a b : Symbol} (h : symLt a b = true) : a ≠ b := by
  rintro rfl
  rw [symLt_irrefl] at h
  cases h

/-- Of two different symbols one comes first. -/
theorem symLt_total {a b : Symbol} (h : a ≠ b) (hb : symLt a b = false) : symLt b a = true := by
  induction a generalizing b with
  | nil => cases b <;> simp_all [symLt]
  | cons x xs ih =>
    cases b with
    | nil => rfl
    | cons y ys =>
      simp only [symLt] at hb ⊢
      by_cases hxy : x = y
      · subst hxy
        simp only [if_true] at hb ⊢
        exact ih (by simpa using h) hb
      · have : y ≠ x := fun h => hxy h.symm
        have hn : x.toNat ≠ y.toNat := fun h => hxy (BitVec.eq_of_toNat_eq h)
        simp only [hxy, this, if_false, decide_eq_true_eq, decide_eq_false_iff_not] at hb ⊢
        omega

/-- One-character symbols are ordered as their characters are. -/
theorem symLt_singleton (c d : Byte) : symLt [c] [d] = true ↔ c.toNat < d.toNat := by
  simp only [symLt]
  split
  · simp_all
  · simp

/-- Ascending symbols are different. -/
theorem SymbolsAscend.nodup {l : List Symbol} (h : SymbolsAscend l) : l.Nodup :=
  List.Pairwise.imp (fun {_ _} h => symLt_ne h) h

/-- Two ascending lists with the same members are the same list. -/
theorem SymbolsAscend.eq_of_perm {l m : List Symbol} (hl : SymbolsAscend l) (hm : SymbolsAscend m) (h : l.Perm m) :
    l = m :=
  List.Perm.eq_of_pairwise (fun _ _ _ _ h1 h2 => by rw [symLt_asymm h1] at h2; cases h2) hl hm h

/-- Two tables ascending in a key with the same members are the same table. -/
theorem eq_of_perm_of_ascend {α : Type} {f : α → Symbol} {l m : List α} (hl : SymbolsAscend (l.map f))
    (hm : SymbolsAscend (m.map f)) (h : l.Perm m) : l = m :=
  List.Perm.eq_of_pairwise (le := fun a b => symLt (f a) (f b) = true)
    (fun _ _ _ _ h1 h2 => by rw [symLt_asymm h1] at h2; cases h2) (List.pairwise_map.1 hl) (List.pairwise_map.1 hm) h

/-! ## Counting (R141) -/

/-- `ft` is the table of the symbols `syms`: ascending, one entry for each distinct symbol, with its count. -/
def Counts (ft : List FtEntry) (syms : List Symbol) : Prop :=
  SymbolsAscend (ft.map FtEntry.sym) ∧ ∀ e : FtEntry, e ∈ ft ↔ e.sym ∈ syms ∧ e.cnt = syms.count e.sym

theorem ftHas_eq_true {k : Symbol} {ft : List FtEntry} : ftHas k ft = true ↔ k ∈ ft.map FtEntry.sym := by
  simp [ftHas, List.any_eq_true]

theorem ftHas_eq_false {k : Symbol} {ft : List FtEntry} : ftHas k ft = false ↔ k ∉ ft.map FtEntry.sym := by
  rw [← ftHas_eq_true, Bool.not_eq_true]

/-- Counting keeps the symbols of the table and adds the counted one. -/
theorem ftCount_syms {k : Symbol} {ft : List FtEntry} {x : Symbol} :
    x ∈ (ftCount k ft).map FtEntry.sym ↔ x = k ∨ x ∈ ft.map FtEntry.sym := by
  induction ft with
  | nil => simp [ftCount]
  | cons e es ih =>
    unfold ftCount
    split
    · rename_i h
      subst h
      simp
    · split
      · simp
      · rw [List.map_cons, List.mem_cons, ih, List.map_cons, List.mem_cons]
        tauto

theorem ftCount_ascend {k : Symbol} {ft : List FtEntry} (h : SymbolsAscend (ft.map FtEntry.sym)) :
    SymbolsAscend ((ftCount k ft).map FtEntry.sym) := by
  induction ft with
  | nil => simp [ftCount, SymbolsAscend]
  | cons e es ih =>
    have he := List.pairwise_cons.1 (show List.Pairwise _ (e.sym :: es.map FtEntry.sym) from h)
    unfold ftCount
    split
    · exact h
    · rename_i hne
      split
      · rename_i hlt
        refine List.pairwise_cons.2 ⟨?_, h⟩
        intro x hx
        rcases List.mem_cons.1 hx with rfl | hx
        · exact hlt
        · exact symLt_trans hlt (he.1 x hx)
      · rename_i hlt
        refine List.pairwise_cons.2 ⟨?_, ih he.2⟩
        intro x hx
        rcases ftCount_syms.1 hx with rfl | hx
        · exact symLt_total (Ne.symm hne) (by simpa using hlt)
        · exact he.1 x hx

theorem ftCount_total (k : Symbol) (ft : List FtEntry) : ftTotal (ftCount k ft) = ftTotal ft + 1 := by
  induction ft with
  | nil => rfl
  | cons e es ih =>
    unfold ftCount
    split
    · simp [ftTotal]; omega
    · split
      · simp [ftTotal]; omega
      · simp [ftTotal] at ih ⊢; omega

theorem ftCount_length (k : Symbol) (ft : List FtEntry) (h : SymbolsAscend (ft.map FtEntry.sym)) :
    (ftCount k ft).length = if k ∈ ft.map FtEntry.sym then ft.length else ft.length + 1 := by
  induction ft with
  | nil => rfl
  | cons e es ih =>
    have he := List.pairwise_cons.1 (show List.Pairwise _ (e.sym :: es.map FtEntry.sym) from h)
    unfold ftCount
    split
    · rename_i heq
      simp [heq]
    · rename_i hne
      split
      · rename_i hlt
        have : k ∉ es.map FtEntry.sym := fun hk => by
          have := he.1 k hk
          rw [symLt_asymm hlt] at this
          cases this
        rw [if_neg]
        · simp
        · simp only [List.map_cons, List.mem_cons, not_or]
          exact ⟨Ne.symm hne, this⟩
      · rw [List.length_cons, ih he.2]
        by_cases hk : k ∈ es.map FtEntry.sym
        · rw [if_pos hk, if_pos (by simp only [List.map_cons, List.mem_cons]; exact .inr hk), List.length_cons]
        · rw [if_neg hk, if_neg, List.length_cons]
          simp only [List.map_cons, List.mem_cons, not_or]
          exact ⟨Ne.symm hne, hk⟩

/-- What counting one symbol does to every entry. -/
theorem mem_ftCount {k : Symbol} {ft : List FtEntry} (h : SymbolsAscend (ft.map FtEntry.sym)) (e : FtEntry) :
    e ∈ ftCount k ft ↔ (e ∈ ft ∧ e.sym ≠ k) ∨
      (e.sym = k ∧ ((∃ c, (⟨k, c⟩ : FtEntry) ∈ ft ∧ e.cnt = c + 1) ∨ (k ∉ ft.map FtEntry.sym ∧ e.cnt = 1))) := by
  induction ft with
  | nil =>
    obtain ⟨x, c⟩ := e
    simp [ftCount]
  | cons d ds ih =>
    have hd := List.pairwise_cons.1 (show List.Pairwise _ (d.sym :: ds.map FtEntry.sym) from h)
    have hne : ∀ x ∈ ds, x.sym ≠ d.sym := fun x hx =>
      (symLt_ne (hd.1 _ (List.mem_map_of_mem hx))).symm
    unfold ftCount
    split
    · rename_i hk
      subst hk
      obtain ⟨x, c⟩ := e
      obtain ⟨y, n⟩ := d
      simp only [List.mem_cons, FtEntry.mk.injEq, List.map_cons, true_or, not_true_eq_false, false_and,
        or_false, true_and] at hne ⊢
      constructor
      · rintro (⟨rfl, rfl⟩ | hm)
        · exact .inr ⟨rfl, n, .inl rfl, rfl⟩
        · exact .inl ⟨.inr hm, hne _ hm⟩
      · rintro (⟨⟨rfl, rfl⟩ | hm, hx⟩ | ⟨rfl, c', rfl | hm, rfl⟩)
        · exact absurd rfl hx
        · exact .inr hm
        · exact .inl ⟨rfl, rfl⟩
        · exact absurd rfl (hne _ hm)
    · rename_i hdk
      split
      · rename_i hlt
        have hnk : k ∉ ds.map FtEntry.sym := fun hk => by
          have := hd.1 k hk
          rw [symLt_asymm hlt] at this
          cases this
        have hne' : ∀ c, (⟨k, c⟩ : FtEntry) ∉ ds := fun c hc => hnk (List.mem_map_of_mem (f := FtEntry.sym) hc)
        obtain ⟨x, c⟩ := e
        obtain ⟨y, n⟩ := d
        simp only [List.mem_cons, FtEntry.mk.injEq, List.map_cons, not_or] at *
        constructor
        · rintro (⟨rfl, rfl⟩ | ⟨rfl, rfl⟩ | hm)
          · exact .inr ⟨rfl, .inr ⟨⟨Ne.symm hdk, hnk⟩, rfl⟩⟩
          · exact .inl ⟨.inl ⟨rfl, rfl⟩, hdk⟩
          · exact .inl ⟨.inr hm, fun hx => hne' c (hx ▸ hm)⟩
        · rintro (⟨hm, -⟩ | ⟨rfl, ⟨c', ⟨rfl, -⟩ | hm, -⟩ | ⟨-, rfl⟩⟩)
          · exact .inr hm
          · exact absurd rfl hdk
          · exact absurd hm (hne' _)
          · exact .inl ⟨rfl, rfl⟩
      · rw [List.mem_cons, ih hd.2]
        obtain ⟨x, c⟩ := e
        obtain ⟨y, n⟩ := d
        simp only [List.mem_cons, FtEntry.mk.injEq, List.map_cons, not_or] at *
        have : ¬ k = y := fun h => hdk h.symm
        simp only [this, false_and, false_or, not_false_eq_true, true_and]
        constructor
        · rintro (⟨rfl, rfl⟩ | ⟨hm, hx⟩ | h)
          · exact .inl ⟨.inl ⟨rfl, rfl⟩, hdk⟩
          · exact .inl ⟨.inr hm, hx⟩
          · exact .inr h
        · rintro (⟨⟨rfl, rfl⟩ | hm, hx⟩ | h)
          · exact .inl ⟨rfl, rfl⟩
          · exact .inr (.inl ⟨hm, hx⟩)
          · exact .inr (.inr h)

theorem Counts.nil : Counts [] [] := ⟨List.Pairwise.nil, by simp⟩

theorem Counts.mem_syms {ft : List FtEntry} {syms : List Symbol} (h : Counts ft syms) {k : Symbol} :
    k ∈ ft.map FtEntry.sym ↔ k ∈ syms := by
  constructor
  · intro hk
    obtain ⟨e, he, rfl⟩ := List.mem_map.1 hk
    exact ((h.2 e).1 he).1
  · intro hk
    exact List.mem_map.2 ⟨⟨k, syms.count k⟩, (h.2 _).2 ⟨hk, rfl⟩, rfl⟩

/-- Counting one more symbol keeps the table right. -/
theorem Counts.step {ft : List FtEntry} {syms : List Symbol} (h : Counts ft syms) (k : Symbol) :
    Counts (ftCount k ft) (syms ++ [k]) := by
  refine ⟨ftCount_ascend h.1, ?_⟩
  rintro ⟨x, c⟩
  rw [mem_ftCount h.1, h.mem_syms]
  simp only [h.2, List.mem_append, List.mem_singleton, List.count_append, List.count_singleton]
  by_cases hx : x = k
  · subst hx
    by_cases hm : x ∈ syms
    · simp [hm]
    · simp [hm, List.count_eq_zero_of_not_mem hm]
  · have : ¬ k = x := fun h => hx h.symm
    simp [hx, this]

/-- The sum of the counts is the number of symbols counted. -/
theorem ftTotal_foldl (syms : List Symbol) (ft : List FtEntry) :
    ftTotal (syms.foldl (fun t k => ftCount k t) ft) = ftTotal ft + syms.length := by
  induction syms generalizing ft with
  | nil => rfl
  | cons k ks ih => rw [List.foldl_cons, ih, ftCount_total, List.length_cons]; omega

/-- The number of entries is the number of distinct symbols. -/
theorem Counts.length {ft : List FtEntry} {syms : List Symbol} (h : Counts ft syms) :
    ft.length = syms.dedup.length := by
  have hp : (ft.map FtEntry.sym).Perm syms.dedup := by
    rw [List.perm_ext_iff_of_nodup h.1.nodup (List.nodup_dedup syms)]
    intro k
    rw [h.mem_syms, List.mem_dedup]
  simpa using hp.length_eq

/-- FCOUNT's loop: with the table of `before` in hand it either counts everything, or stops at the first symbol that would
need one entry too many, with the table of the symbols before it. -/
theorem countSymbols_spec (cap len : Nat) (rest before : List Symbol) (pos : Nat) (ft : List FtEntry)
    (h : Counts ft before) (hl : ft.length ≤ cap) :
    (∃ ft', countSymbols cap len rest pos ft = (ft', none) ∧ Counts ft' (before ++ rest) ∧ ft'.length ≤ cap ∧
      ftTotal ft' = ftTotal ft + rest.length) ∨
    (∃ ft' r k r', rest = r ++ k :: r' ∧ countSymbols cap len rest pos ft = (ft', some (pos + r.length * len)) ∧
      Counts ft' (before ++ r) ∧ k ∉ before ++ r ∧ ft'.length = cap ∧ ftTotal ft' = ftTotal ft + r.length) := by
  induction rest generalizing before pos ft with
  | nil => exact .inl ⟨ft, rfl, by simpa using h, hl, rfl⟩
  | cons k ks ih =>
    unfold countSymbols
    split
    · rename_i hs
      refine .inr ⟨ft, [], k, ks, rfl, by simp, by simpa using h, ?_, hs.2, rfl⟩
      rw [List.append_nil, ← h.mem_syms]
      exact ftHas_eq_false.1 hs.1
    · rename_i hs
      have hl' : (ftCount k ft).length ≤ cap := by
        rw [ftCount_length k ft h.1]
        split
        · exact hl
        · rename_i hk
          have : ft.length ≠ cap := fun hc => hs ⟨ftHas_eq_false.2 hk, hc⟩
          omega
      rcases ih (before ++ [k]) (pos + len) (ftCount k ft) (h.step k) hl' with
        ⟨ft', h1, h2, h3, h4⟩ | ⟨ft', r, k', r', h1, h2, h3, h4, h5, h6⟩
      · refine .inl ⟨ft', h1, by simpa using h2, h3, ?_⟩
        rw [h4, ftCount_total, List.length_cons]; omega
      · refine .inr ⟨ft', k :: r, k', r', by simp [h1], ?_, by simpa using h3, by simpa using h4, h5, ?_⟩
        · rw [h2]; simp only [List.length_cons, Prod.mk.injEq, Option.some.injEq, true_and]; ring
        · rw [h6, ftCount_total, List.length_cons]; omega

/-! ## Inserting an entry (R170, R193, R212) -/

theorem ctInsert_perm (n : CtEntry) (ct : List CtEntry) : (ctInsert n ct).Perm (n :: ct) := by
  induction ct with
  | nil => exact List.Perm.refl _
  | cons e es ih =>
    unfold ctInsert
    split
    · exact List.Perm.refl _
    · exact (ih.cons e).trans (List.Perm.swap n e es)

theorem ctInsert_ascend {n : CtEntry} {ct : List CtEntry} (h : SymbolsAscend (ct.map CtEntry.sym))
    (hn : n.sym ∉ ct.map CtEntry.sym) : SymbolsAscend ((ctInsert n ct).map CtEntry.sym) := by
  induction ct with
  | nil => simp [ctInsert, SymbolsAscend]
  | cons e es ih =>
    have he := List.pairwise_cons.1 (show List.Pairwise _ (e.sym :: es.map CtEntry.sym) from h)
    rw [List.map_cons, List.mem_cons, not_or] at hn
    unfold ctInsert
    split
    · rename_i hlt
      refine List.pairwise_cons.2 ⟨?_, h⟩
      intro x hx
      rcases List.mem_cons.1 hx with rfl | hx
      · exact hlt
      · exact symLt_trans hlt (he.1 x hx)
    · rename_i hlt
      refine List.pairwise_cons.2 ⟨?_, ih he.2 hn.2⟩
      intro x hx
      rcases List.mem_cons.1 (((ctInsert_perm n es).map CtEntry.sym).mem_iff.1 hx) with rfl | hx
      · exact symLt_total hn.1 (by simpa using hlt)
      · exact he.1 x hx

/-- A table made by insertions holds exactly the inserted entries. -/
theorem ctOf_perm (entries : List CtEntry) : (ctOf entries).Perm entries := by
  have h : ∀ (l ct : List CtEntry), (l.foldl (fun ct n => ctInsert n ct) ct).Perm (l ++ ct) := by
    intro l
    induction l with
    | nil => intro ct; exact List.Perm.refl _
    | cons n l ih =>
      intro ct
      refine (ih _).trans ?_
      refine ((ctInsert_perm n ct).append_left l).trans ?_
      exact List.perm_middle
  simpa [ctOf] using h entries []

/-- A table made by insertions of different symbols is ascending. -/
theorem ctOf_ascend {entries : List CtEntry} (h : (entries.map CtEntry.sym).Nodup) :
    SymbolsAscend ((ctOf entries).map CtEntry.sym) := by
  have : ∀ (l ct : List CtEntry), SymbolsAscend (ct.map CtEntry.sym) → ((l ++ ct).map CtEntry.sym).Nodup →
      SymbolsAscend ((l.foldl (fun ct n => ctInsert n ct) ct).map CtEntry.sym) := by
    intro l
    induction l with
    | nil => intro ct h _; exact h
    | cons n l ih =>
      intro ct hct hnd
      have hp : ((l ++ ctInsert n ct).map CtEntry.sym).Nodup := by
        refine (List.Perm.nodup_iff (List.Perm.map CtEntry.sym ?_)).1 hnd
        exact ((List.perm_middle (a := n) (l₁ := l) (l₂ := ct)).symm).trans
          ((ctInsert_perm n ct).symm.append_left l)
      refine ih _ (ctInsert_ascend hct ?_) hp
      intro hm
      simp only [List.cons_append, List.map_cons, List.nodup_cons, List.map_append, List.mem_append, not_or] at hnd
      exact hnd.1.2 hm
  exact this entries [] List.Pairwise.nil (by simpa using h)

/-! ## Looking an entry up (R40, R217, R219) -/

theorem ctFind_eq_none {p : CtEntry → Bool} {r : Nat} {ct : List CtEntry} :
    ctFind p r ct = none ↔ ∀ e ∈ ct, p e = false := by
  induction ct generalizing r with
  | nil => simp [ctFind]
  | cons e es ih =>
    unfold ctFind
    split
    · rename_i h
      simp [h]
    · rename_i h
      simp [ih, h]

theorem ctFind_eq_some {p : CtEntry → Bool} {r q : Nat} {ct : List CtEntry} {e : CtEntry}
    (h : ctFind p r ct = some (q, e)) : r ≤ q ∧ ct[q - r]? = some e ∧ p e = true := by
  induction ct generalizing r with
  | nil => simp [ctFind] at h
  | cons d ds ih =>
    unfold ctFind at h
    split at h
    · simp only [Option.some.injEq, Prod.mk.injEq] at h
      obtain ⟨rfl, rfl⟩ := h
      simp_all
    · obtain ⟨h1, h2, h3⟩ := ih h
      refine ⟨by omega, ?_, h3⟩
      have : q - r = q - (r + 1) + 1 := by omega
      rw [this, List.getElem?_cons_succ, h2]

/-- Forward lookup in an ascending table: the one entry of the symbol, with its rank. -/
theorem ctForward_eq_some {k : Symbol} {ct : List CtEntry} (h : SymbolsAscend (ct.map CtEntry.sym)) {r : Nat}
    {e : CtEntry} : ctForward k ct = some (r, e) ↔ ct[r]? = some e ∧ e.sym = k := by
  constructor
  · intro hf
    obtain ⟨-, h2, h3⟩ := ctFind_eq_some hf
    exact ⟨by simpa using h2, by simpa using h3⟩
  · rintro ⟨h1, h2⟩
    cases hf : ctForward k ct with
    | none =>
      have := ctFind_eq_none.1 hf e (List.mem_of_getElem? h1)
      simp [h2] at this
    | some re =>
      obtain ⟨q, d⟩ := re
      obtain ⟨-, h3, h4⟩ := ctFind_eq_some hf
      simp only [Nat.sub_zero, decide_eq_true_eq] at h3 h4
      have hq : (ct.map CtEntry.sym)[q]? = (ct.map CtEntry.sym)[r]? := by simp [h1, h3, h2, h4]
      have hlt : q < (ct.map CtEntry.sym).length := by
        have := (List.getElem?_eq_some_iff.1 h3).1
        simpa using this
      have := (List.getElem?_inj hlt h.nodup).1 hq
      subst this
      rw [h1] at h3
      cases h3
      rfl

theorem ctForward_eq_none {k : Symbol} {ct : List CtEntry} :
    ctForward k ct = none ↔ k ∉ ct.map CtEntry.sym := by
  rw [ctForward, ctFind_eq_none]
  simp

/-- Reverse lookup in a table of different codes: the one entry of the code, with its rank. -/
theorem ctReverse_eq_some {c : Code} {ct : List CtEntry} (h : (ct.map CtEntry.code).Nodup) {r : Nat}
    {e : CtEntry} : ctReverse c ct = some (r, e) ↔ ct[r]? = some e ∧ e.code = c := by
  constructor
  · intro hf
    obtain ⟨-, h2, h3⟩ := ctFind_eq_some hf
    exact ⟨by simpa using h2, by simpa using h3⟩
  · rintro ⟨h1, h2⟩
    cases hf : ctReverse c ct with
    | none =>
      have := ctFind_eq_none.1 hf e (List.mem_of_getElem? h1)
      simp [h2] at this
    | some re =>
      obtain ⟨q, d⟩ := re
      obtain ⟨-, h3, h4⟩ := ctFind_eq_some hf
      simp only [Nat.sub_zero, decide_eq_true_eq] at h3 h4
      have hq : (ct.map CtEntry.code)[q]? = (ct.map CtEntry.code)[r]? := by simp [h1, h3, h2, h4]
      have hlt : q < (ct.map CtEntry.code).length := by
        have := (List.getElem?_eq_some_iff.1 h3).1
        simpa using this
      have := (List.getElem?_inj hlt h).1 hq
      subst this
      rw [h1] at h3
      cases h3
      rfl

theorem ctReverse_eq_none {c : Code} {ct : List CtEntry} :
    ctReverse c ct = none ↔ c ∉ ct.map CtEntry.code := by
  rw [ctReverse, ctFind_eq_none]
  simp

end Sys2Proof.Machine
end

