-- ==== Sys2Proof/Laws/Orders.lean ====
section
/-! SUPPORT. Pop order and the Shannon-Fano sort order are strict total orders; what `popMin`, `popOrder`, `sortedList` and
one merge of the two lowest nodes give. -/

namespace Sys2Proof.Machine

open Sys2Proof

set_option autoImplicit false

/-! ## Pop order (R32) -/

theorem popsBefore_iff {nodes : List Node} {i j : Nat} :
    popsBefore nodes i j = true ↔
      freqOf nodes i < freqOf nodes j ∨ (freqOf nodes i = freqOf nodes j ∧ i < j) := by
  simp [popsBefore]

theorem popsBefore_irrefl (nodes : List Node) (i : Nat) : popsBefore nodes i i = false := by
  rw [← Bool.not_eq_true, popsBefore_iff]; omega

theorem popsBefore_trans {nodes : List Node} {i j k : Nat} (h1 : popsBefore nodes i j = true)
    (h2 : popsBefore nodes j k = true) : popsBefore nodes i k = true := by
  rw [popsBefore_iff] at *; omega

theorem popsBefore_asymm {nodes : List Node} {i j : Nat} (h1 : popsBefore nodes i j = true) :
    popsBefore nodes j i = false := by
  rw [← Bool.not_eq_true]; rw [popsBefore_iff] at *; omega

theorem popsBefore_total {nodes : List Node} {i j : Nat} (h : i ≠ j) (h1 : popsBefore nodes i j = false) :
    popsBefore nodes j i = true := by
  rw [← Bool.not_eq_true] at h1; rw [popsBefore_iff] at *; omega

theorem firstToPop_spec (nodes : List Node) (q : List Nat) (best : Nat) :
    (firstToPop nodes best q = best ∨ firstToPop nodes best q ∈ q) ∧
    ∀ k, k = best ∨ k ∈ q → k ≠ firstToPop nodes best q → popsBefore nodes (firstToPop nodes best q) k = true := by
  induction q generalizing best with
  | nil => exact ⟨.inl rfl, fun k hk hne => absurd (by simpa using hk : k = best) hne⟩
  | cons i q ih =>
    unfold firstToPop
    by_cases h : popsBefore nodes i best = true
    · rw [if_pos h]
      obtain ⟨h1, h2⟩ := ih i
      refine ⟨?_, ?_⟩
      · rcases h1 with h1 | h1
        · rw [h1]; simp
        · simp [h1]
      · intro k hk hne
        by_cases hi : i = firstToPop nodes i q
        · rcases hk with rfl | hk
          · rw [← hi]; exact h
          · rcases List.mem_cons.1 hk with rfl | hk
            · exact h2 _ (.inl rfl) hne
            · exact h2 _ (.inr hk) hne
        · have hb := h2 i (.inl rfl) hi
          rcases hk with rfl | hk
          · exact popsBefore_trans hb h
          · rcases List.mem_cons.1 hk with rfl | hk
            · exact h2 _ (.inl rfl) hne
            · exact h2 _ (.inr hk) hne
    · rw [if_neg h]
      obtain ⟨h1, h2⟩ := ih best
      refine ⟨?_, ?_⟩
      · rcases h1 with h1 | h1
        · exact .inl h1
        · simp [h1]
      · intro k hk hne
        rcases hk with rfl | hk
        · exact h2 _ (.inl rfl) hne
        · rcases List.mem_cons.1 hk with rfl | hk
          · by_cases hb : best = firstToPop nodes best q
            · rw [← hb] at hne ⊢
              exact popsBefore_total hne (by simpa using h)
            · have hb' := h2 best (.inl rfl) hb
              by_cases hkb : k = best
              · rw [hkb]; exact hb'
              · exact popsBefore_trans hb' (popsBefore_total hkb (by simpa using h))
          · exact h2 _ (.inr hk) hne

/-- `popmin` takes out the member that comes before every other member. -/
theorem popMin_eq_some {nodes : List Node} {queue : List Nat} {m : Nat} {q : List Nat}
    (h : popMin nodes queue = some (m, q)) :
    m ∈ queue ∧ q = queue.filter (fun j => j ≠ m) ∧ ∀ k ∈ queue, k ≠ m → popsBefore nodes m k = true := by
  cases queue with
  | nil => simp [popMin] at h
  | cons i q' =>
    simp only [popMin, Option.some.injEq, Prod.mk.injEq] at h
    obtain ⟨hm, rfl⟩ := h
    have hs := firstToPop_spec nodes q' i
    rw [hm] at hs ⊢
    refine ⟨?_, rfl, ?_⟩
    · rcases hs.1 with h | h
      · simp [h]
      · simp [h]
    · intro k hk hne
      exact hs.2 k (by simpa using hk) hne

theorem popMin_eq_none {nodes : List Node} {queue : List Nat} : popMin nodes queue = none ↔ queue = [] := by
  cases queue <;> simp [popMin]

/-- The queue loses exactly one member. -/
theorem popMin_length {nodes : List Node} {queue : List Nat} {m : Nat} {q : List Nat} (hn : queue.Nodup)
    (h : popMin nodes queue = some (m, q)) : q.length + 1 = queue.length := by
  obtain ⟨hm, rfl, -⟩ := popMin_eq_some h
  have h1 := hn.erase_eq_filter m
  have h2 := List.length_erase_of_mem hm
  have h3 : queue.filter (fun j => j ≠ m) = queue.filter (fun j => j != m) := by
    apply List.filter_congr; intro x _; by_cases hx : x = m <;> simp [hx]
  have h4 := List.length_pos_of_mem hm
  rw [h3, ← h1, h2]; omega

theorem insertInPopOrder_perm (nodes : List Node) (i : Nat) (q : List Nat) :
    (insertInPopOrder nodes i q).Perm (i :: q) := by
  induction q with
  | nil => exact List.Perm.refl _
  | cons j q ih =>
    unfold insertInPopOrder
    split
    · exact List.Perm.refl _
    · exact (ih.cons j).trans (List.Perm.swap i j q)

theorem popOrder_perm (nodes : List Node) (queue : List Nat) : (popOrder nodes queue).Perm queue := by
  induction queue with
  | nil => exact List.Perm.refl _
  | cons i q ih => exact (insertInPopOrder_perm nodes i _).trans (ih.cons i)

theorem insertInPopOrder_pairwise {nodes : List Node} {i : Nat} {q : List Nat}
    (h : q.Pairwise (fun a b => popsBefore nodes a b = true)) (hi : i ∉ q) :
    (insertInPopOrder nodes i q).Pairwise (fun a b => popsBefore nodes a b = true) := by
  induction q with
  | nil => simp [insertInPopOrder]
  | cons j q ih =>
    have hj := List.pairwise_cons.1 h
    rw [List.mem_cons, not_or] at hi
    unfold insertInPopOrder
    split
    · rename_i hlt
      refine List.pairwise_cons.2 ⟨?_, h⟩
      intro k hk
      rcases List.mem_cons.1 hk with rfl | hk
      · exact hlt
      · exact popsBefore_trans hlt (hj.1 k hk)
    · rename_i hlt
      refine List.pairwise_cons.2 ⟨?_, ih hj.2 hi.2⟩
      intro k hk
      rcases List.mem_cons.1 ((insertInPopOrder_perm nodes i q).mem_iff.1 hk) with rfl | hk
      · exact popsBefore_total hi.1 (by simpa using hlt)
      · exact hj.1 k hk

/-- The members of a queue in pop order, each before the ones after it. -/
theorem popOrder_pairwise {nodes : List Node} {queue : List Nat} (h : queue.Nodup) :
    (popOrder nodes queue).Pairwise (fun a b => popsBefore nodes a b = true) := by
  induction queue with
  | nil => exact List.Pairwise.nil
  | cons i q ih =>
    have hn := List.nodup_cons.1 h
    exact insertInPopOrder_pairwise (ih hn.2) (fun hi => hn.1 ((popOrder_perm nodes q).mem_iff.1 hi))

/-! ## One merge (R163) -/

/-- One merge over a queue of two or more different members: the two that come first are taken out, the first as the left
child, and the new record is put in. -/
theorem mergeStep_spec {s : State} (hn : s.queue.Nodup) (h2 : 2 ≤ s.queue.length) :
    ∃ a b q, a ∈ s.queue ∧ b ∈ s.queue ∧ a ≠ b ∧ popsBefore s.nodes a b = true ∧
      (∀ k ∈ s.queue, k ≠ a → k ≠ b → popsBefore s.nodes b k = true) ∧
      q = s.queue.filter (fun j => j ≠ a ∧ j ≠ b) ∧ q.length + 2 = s.queue.length ∧
      mergeStep s = some { s with
        nodes := s.nodes ++ [.internal (freqOf s.nodes a + freqOf s.nodes b) a b]
        queue := q ++ [s.nodes.length]
        root := if q = [] then word s.nodes.length else s.root
        tree := if q = [] then .valid else s.tree } := by
  cases h : popMin s.nodes s.queue with
  | none => rw [popMin_eq_none] at h; rw [h] at h2; simp at h2
  | some aq =>
    obtain ⟨a, q1⟩ := aq
    have ha := popMin_eq_some h
    have hl := popMin_length hn h
    cases h' : popMin s.nodes q1 with
    | none => rw [popMin_eq_none] at h'; rw [h'] at hl; simp at hl; omega
    | some bq =>
      obtain ⟨b, q2⟩ := bq
      have hb := popMin_eq_some h'
      have hn1 : q1.Nodup := by rw [ha.2.1]; exact hn.filter _
      have hl' := popMin_length hn1 h'
      have hbm : b ∈ s.queue ∧ b ≠ a := by
        have := hb.1
        rw [ha.2.1] at this
        simpa using this
      refine ⟨a, b, q2, ha.1, hbm.1, hbm.2.symm, ha.2.2 b hbm.1 hbm.2, ?_, ?_, by omega, ?_⟩
      · intro k hk hka hkb
        refine hb.2.2 k ?_ hkb
        rw [ha.2.1]
        simpa using ⟨hk, hka⟩
      · rw [hb.2.1, ha.2.1, List.filter_filter]
        apply List.filter_congr
        intro x _
        simp [Bool.and_comm]
      · simp only [mergeStep, h, h']

/-! ## The sort order (R191) -/

theorem sortsBefore_iff {ft : List FtEntry} {i j : Nat} :
    sortsBefore ft i j = true ↔ cntOf ft j < cntOf ft i ∨ (cntOf ft i = cntOf ft j ∧ i < j) := by
  simp [sortsBefore]

theorem insertSorted_perm (ft : List FtEntry) (i : Nat) (l : List Nat) : (insertSorted ft i l).Perm (i :: l) := by
  induction l with
  | nil => exact List.Perm.refl _
  | cons j l ih =>
    unfold insertSorted
    split
    · exact List.Perm.refl _
    · exact (ih.cons j).trans (List.Perm.swap i j l)

theorem insertSorted_pairwise {ft : List FtEntry} {i : Nat} {l : List Nat}
    (h : l.Pairwise (fun a b => sortsBefore ft a b = true)) (hi : i ∉ l) :
    (insertSorted ft i l).Pairwise (fun a b => sortsBefore ft a b = true) := by
  induction l with
  | nil => simp [insertSorted]
  | cons j l ih =>
    have hj := List.pairwise_cons.1 h
    rw [List.mem_cons, not_or] at hi
    unfold insertSorted
    split
    · rename_i hlt
      refine List.pairwise_cons.2 ⟨?_, h⟩
      intro k hk
      rcases List.mem_cons.1 hk with rfl | hk
      · exact hlt
      · have := hj.1 k hk
        rw [sortsBefore_iff] at *
        omega
    · rename_i hlt
      refine List.pairwise_cons.2 ⟨?_, ih hj.2 hi.2⟩
      intro k hk
      rcases List.mem_cons.1 ((insertSorted_perm ft i l).mem_iff.1 hk) with rfl | hk
      · rw [sortsBefore_iff] at *
        omega
      · exact hj.1 k hk

/-- The sorted list is a permutation of the entry indices, in sort order. -/
theorem sortedList_spec (ft : List FtEntry) :
    (sortedList ft).Perm (List.range ft.length) ∧
    (sortedList ft).Pairwise (fun a b => sortsBefore ft a b = true) := by
  have h : ∀ l : List Nat, l.Nodup → (l.foldr (insertSorted ft) []).Perm l ∧
      (l.foldr (insertSorted ft) []).Pairwise (fun a b => sortsBefore ft a b = true) := by
    intro l
    induction l with
    | nil => exact fun _ => ⟨List.Perm.refl _, List.Pairwise.nil⟩
    | cons i l ih =>
      intro hn
      have hn' := List.nodup_cons.1 hn
      obtain ⟨h1, h2⟩ := ih hn'.2
      exact ⟨(insertSorted_perm ft i _).trans (h1.cons i),
        insertSorted_pairwise h2 (fun hi => hn'.1 (h1.mem_iff.1 hi))⟩
  exact h _ List.nodup_range

end Sys2Proof.Machine
end

