-- ==== Sys2Proof/Laws/Partition.lean ====
section
/-! SUPPORT. The split of a range and the partition: where the split lies, and what codes the partition gives. -/

namespace Sys2Proof.Machine

open Sys2Proof

set_option autoImplicit false

/-- `i` is the first index in 1 … `n` at which `d` is least. -/
def FirstMinimum (d : Nat → Nat) (n i : Nat) : Prop :=
  1 ≤ i ∧ i ≤ n ∧ ∀ j, 1 ≤ j → j ≤ n → d i ≤ d j ∧ (j < i → d i < d j)

/-- |T − 2·C_i| of a range (R195). -/
def imbalanceAt (counts : List Nat) (i : Nat) : Nat := imbalance counts.sum (counts.take i).sum

theorem splitSearch_spec (counts cs : List Nat) (i best : Nat) (hcs : cs = counts.drop (i - 1)) (hi : 2 ≤ i)
    (hb : FirstMinimum (imbalanceAt counts) (i - 1) best) (hne : cs ≠ []) :
    FirstMinimum (imbalanceAt counts) (counts.length - 1)
      (splitSearch counts.sum cs i (counts.take (i - 1)).sum best (imbalanceAt counts best)) := by
  induction cs generalizing i best with
  | nil => exact absurd rfl hne
  | cons c cs ih =>
    have hlt : i - 1 < counts.length := by
      have := congrArg List.length hcs
      simp at this; omega
    have hc : counts.take i = counts.take (i - 1) ++ [c] := by
      have h1 : counts[i - 1]? = some c := by
        have := congrArg List.head? hcs
        simpa [List.head?_drop] using this.symm
      have h2 : i = i - 1 + 1 := by omega
      conv_lhs => rw [h2, List.take_add_one, h1]
      rfl
    cases cs with
    | nil =>
      have hl := congrArg List.length hcs
      simp only [List.length_cons, List.length_nil, List.length_drop] at hl
      have : counts.length - 1 = i - 1 := by omega
      rw [this]
      exact hb
    | cons c' cs =>
      have hdrop : c' :: cs = counts.drop (i + 1 - 1) := by
        have := congrArg List.tail hcs
        simp only [List.tail_cons, List.tail_drop] at this
        rw [this]; congr 1; omega
      have hsum : (counts.take (i - 1)).sum + c = (counts.take (i + 1 - 1)).sum := by
        simp [hc]
      have him : imbalance counts.sum ((counts.take (i - 1)).sum + c) = imbalanceAt counts i := by
        rw [hsum]; rfl
      unfold splitSearch
      rw [him, hsum]
      split
      · rename_i h
        refine ih (i + 1) i hdrop (by omega) ?_ (by simp)
        refine ⟨by omega, by omega, fun j h1 h2 => ?_⟩
        by_cases hji : j = i
        · subst hji; exact ⟨Nat.le_refl _, fun h => absurd h (Nat.lt_irrefl _)⟩
        · have := (hb.2.2 j h1 (by omega)).1
          exact ⟨by omega, fun _ => by omega⟩
      · rename_i h
        refine ih (i + 1) best hdrop (by omega) ?_ (by simp)
        refine ⟨hb.1, by have := hb.2.1; omega, fun j h1 h2 => ?_⟩
        by_cases hji : j = i
        · subst hji; have := hb.2.1; exact ⟨by omega, fun h => by omega⟩
        · exact hb.2.2 j h1 (by omega)

/-- The split of two or more counts is the first index in 1 … m − 1 with the least imbalance. -/
theorem splitIndex_spec {counts : List Nat} (h : 2 ≤ counts.length) :
    FirstMinimum (imbalanceAt counts) (counts.length - 1) (splitIndex counts) := by
  cases counts with
  | nil => simp at h
  | cons c cs =>
    have hne : cs ≠ [] := by rintro rfl; simp at h
    have h1 := splitSearch_spec (c :: cs) cs 2 1 rfl (Nat.le_refl _)
      ⟨Nat.le_refl _, Nat.le_refl _, fun j h1 h2 => by
        have : j = 1 := by omega
        subst this; exact ⟨Nat.le_refl _, fun h => absurd h (Nat.lt_irrefl _)⟩⟩ hne
    simpa [splitIndex, imbalanceAt] using h1

/-- A split leaves both parts non-empty. -/
theorem splitIndex_bounds {counts : List Nat} (h : 2 ≤ counts.length) :
    1 ≤ splitIndex counts ∧ splitIndex counts < counts.length := by
  have := splitIndex_spec h
  have h1 := this.1
  have h2 := this.2.1
  omega

/-- The partition of two or more blocks is the partition of its two parts. -/
theorem partition_split (depth : Nat) (b b' : FtEntry) (bs : List FtEntry) (code : Code) :
    partition (depth + 1) (b :: b' :: bs) code =
      partition depth ((b :: b' :: bs).take (splitIndex ((b :: b' :: bs).map FtEntry.cnt))) (code ++ [false]) ++
      partition depth ((b :: b' :: bs).drop (splitIndex ((b :: b' :: bs).map FtEntry.cnt))) (code ++ [true]) := rfl

/-- What the partition of a range with depth enough gives: its blocks in order, each with a code that extends the range's
code, by one bit at least where the range has two blocks, by fewer bits than the range has blocks; no code a prefix of
another. -/
theorem partition_spec (depth : Nat) (blocks : List FtEntry) (code : Code) (hd : blocks.length ≤ depth) :
    (partition depth blocks code).map CtEntry.sym = blocks.map FtEntry.sym ∧
    (∀ e ∈ partition depth blocks code, code <+: e.code ∧ e.code.length + 1 ≤ code.length + blocks.length ∧
      (2 ≤ blocks.length → code.length < e.code.length)) ∧
    PrefixFree ((partition depth blocks code).map CtEntry.code) := by
  induction depth generalizing blocks code with
  | zero =>
    have : blocks = [] := List.eq_nil_of_length_eq_zero (by omega)
    subst this
    exact ⟨rfl, by simp [partition], List.Pairwise.nil⟩
  | succ depth ih =>
    match blocks with
    | [] => exact ⟨rfl, by simp [partition], List.Pairwise.nil⟩
    | [b] => exact ⟨rfl, by simp [partition], by simp [partition, PrefixFree]⟩
    | b :: b' :: bs =>
      rw [partition_split]
      have hb := splitIndex_bounds (counts := (b :: b' :: bs).map FtEntry.cnt) (by simp)
      generalize splitIndex ((b :: b' :: bs).map FtEntry.cnt) = i at hb
      rw [List.length_map] at hb
      generalize hl : b :: b' :: bs = l at hb hd ⊢
      have h2 : 2 ≤ l.length := by rw [← hl]; simp
      obtain ⟨l1, l2, l3⟩ := ih (l.take i) (code ++ [false]) (by simp; omega)
      obtain ⟨r1, r2, r3⟩ := ih (l.drop i) (code ++ [true]) (by simp; omega)
      refine ⟨?_, ?_, ?_⟩
      · rw [List.map_append, l1, r1, ← List.map_append, List.take_append_drop]
      · intro e he
        rcases List.mem_append.1 he with he | he
        · obtain ⟨h1, h3, -⟩ := l2 e he
          have := h1.length_le
          simp only [List.length_append, List.length_cons, List.length_nil, List.length_take] at h3 this
          exact ⟨(List.prefix_append _ _).trans h1, by omega, fun _ => by omega⟩
        · obtain ⟨h1, h3, -⟩ := r2 e he
          have := h1.length_le
          simp only [List.length_append, List.length_cons, List.length_nil, List.length_drop] at h3 this
          exact ⟨(List.prefix_append _ _).trans h1, by omega, fun _ => by omega⟩
      · rw [List.map_append]
        refine List.pairwise_append.2 ⟨l3, r3, ?_⟩
        intro c hc d hd'
        obtain ⟨e, he, rfl⟩ := List.mem_map.1 hc
        obtain ⟨f, hf, rfl⟩ := List.mem_map.1 hd'
        have h1 := (l2 e he).1
        have h3 := (r2 f hf).1
        have key : ∀ x : Code, (code ++ [false]) <+: x → (code ++ [true]) <+: x → False := by
          intro x hx hy
          have := List.prefix_of_prefix_length_le hx hy (by simp)
          have := this.eq_of_length (by simp)
          simp at this
        exact ⟨fun h => key _ (h1.trans h) h3, fun h => key _ h1 (h3.trans h)⟩

/-- Prefix-free codes are different codes. -/
theorem PrefixFree.nodup {codes : List Code} (h : PrefixFree codes) : codes.Nodup :=
  List.Pairwise.imp (fun {_ _} h => by rintro rfl; exact h.1 (List.prefix_refl _)) h

/-- Prefix-freeness does not depend on the order of a list. -/
theorem PrefixFree.perm {c d : List Code} (h : PrefixFree c) (hp : c.Perm d) : PrefixFree d :=
  (hp.pairwise_iff (fun {_ _} h => ⟨h.2, h.1⟩)).1 h

/-- The blocks named by a permutation of the entry indices are the entries. -/
theorem blocksOf_perm {ft : List FtEntry} {l : List Nat} (h : l.Perm (List.range ft.length)) :
    (blocksOf ft l).Perm ft := by
  have h1 : (blocksOf ft l).Perm (blocksOf ft (List.range ft.length)) := h.filterMap _
  have h2 : ∀ n, n ≤ ft.length → blocksOf ft (List.range n) = ft.take n := by
    intro n
    induction n with
    | zero => intro _; rfl
    | succ n ih =>
      intro hn
      have hlt : n < ft.length := by omega
      have := ih (by omega)
      unfold blocksOf at this ⊢
      rw [List.range_succ, List.filterMap_append, this, List.take_add_one, List.getElem?_eq_getElem hlt]
      simp [List.getElem?_eq_getElem hlt]
  have h3 := h2 ft.length (Nat.le_refl _)
  rw [List.take_length] at h3
  rw [h3] at h1
  exact h1

end Sys2Proof.Machine
end

