-- ==== Sys2Proof/Laws/Tree.lean ====
section
/-! SUPPORT. The node arena as a forest: the leaves make one, a merge keeps it one; paths in it; and the walk of HCODES gives
every leaf its path. -/

namespace Sys2Proof.Machine

open Sys2Proof

set_option autoImplicit false

/-! ## Frequencies and appended records -/

theorem freqOf_append_left (nodes : List Node) (m : Node) {i : Nat} (h : i < nodes.length) :
    freqOf (nodes ++ [m]) i = freqOf nodes i := by
  simp [freqOf, List.getElem?_append_left h]

theorem freqOf_append_last (nodes : List Node) (m : Node) : freqOf (nodes ++ [m]) nodes.length = m.freq := by
  simp [freqOf]

theorem freqOf_lt {nodes : List Node} {b : Nat} (hb : 0 < b) (h : ∀ m ∈ nodes, m.freq < b) (i : Nat) :
    freqOf nodes i < b := by
  unfold freqOf
  split
  · rename_i n hn; exact h n (List.mem_of_getElem? hn)
  · exact hb

theorem ChildOf.lt_length {nodes : List Node} {k i : Nat} (h : ChildOf nodes k i) : i < nodes.length := by
  obtain ⟨f, l, r, h, -⟩ := h
  exact (List.getElem?_eq_some_iff.1 h).1

/-- The children after a record is appended. -/
theorem childOf_append {nodes : List Node} {f l r k i : Nat} :
    ChildOf (nodes ++ [.internal f l r]) k i ↔ ChildOf nodes k i ∨ (i = nodes.length ∧ (k = l ∨ k = r)) := by
  unfold ChildOf
  constructor
  · rintro ⟨g, l', r', h, hk⟩
    by_cases hi : i < nodes.length
    · rw [List.getElem?_append_left hi] at h
      exact .inl ⟨g, l', r', h, hk⟩
    · rw [List.getElem?_append_right (by omega)] at h
      have : i - nodes.length = 0 := by
        by_contra hne
        rw [List.getElem?_eq_none (by simp; omega)] at h
        cases h
      rw [this] at h
      simp only [List.getElem?_cons_zero, Option.some.injEq, Node.internal.injEq] at h
      obtain ⟨-, rfl, rfl⟩ := h
      exact .inr ⟨by omega, hk⟩
  · rintro (⟨g, l', r', h, hk⟩ | ⟨rfl, hk⟩)
    · refine ⟨g, l', r', ?_, hk⟩
      rw [List.getElem?_append_left (List.getElem?_eq_some_iff.1 h).1, h]
    · exact ⟨f, l, r, by simp, hk⟩

/-- An internal record's children lie below it. -/
theorem Forest.child_lt {n : Nat} {nodes : List Node} {queue : List Nat} (h : Forest n nodes queue) {k i : Nat}
    (hc : ChildOf nodes k i) : k < i := by
  have hlt := hc.lt_length
  obtain ⟨f, l, r, hi, hk⟩ := hc
  by_cases hin : i < n
  · obtain ⟨g, c, hl⟩ := h.leaves i hin
    rw [hl] at hi; cases hi
  · obtain ⟨l', r', h1, h2, h3, -⟩ := h.internals i (by omega) hlt
    rw [h1] at hi
    cases hi
    rcases hk with rfl | rfl <;> assumption

/-- The leaves of the frequency table make a forest: HINIT (R161). -/
theorem startTree_forest {ft : List FtEntry} (hne : ft ≠ []) (ha : SymbolsAscend (ft.map FtEntry.sym))
    (h1 : ∀ e ∈ ft, e.sym.length = 1) (ht : ftTotal ft < 2 ^ 32) :
    Forest ft.length (ft.map leafOf) (List.range ft.length) := by
  have hget : ∀ (i f : Nat) (c : Byte), (ft.map leafOf)[i]? = some (Node.leaf f c) →
      ∃ e : FtEntry, ft[i]? = some e ∧ e.sym = [c] ∧ e.cnt = f := by
    intro i f c h
    rw [List.getElem?_map] at h
    cases he : ft[i]? with
    | none => rw [he] at h; cases h
    | some e =>
      rw [he] at h
      have h2 := h1 e (List.mem_of_getElem? he)
      obtain ⟨x, hx⟩ := List.length_eq_one_iff.1 h2
      simp only [Option.map_some, leafOf, hx, List.headD_cons, Option.some.injEq, Node.leaf.injEq] at h
      exact ⟨e, rfl, by rw [hx, h.2], h.1⟩
  have hleaf : ∀ m ∈ ft.map leafOf, ∃ f c, m = Node.leaf f c := by
    intro m hm
    obtain ⟨e, -, rfl⟩ := List.mem_map.1 hm
    exact ⟨_, _, rfl⟩
  have hnochild : ∀ k i, ¬ ChildOf (ft.map leafOf) k i := by
    rintro k i ⟨f, l, r, h, -⟩
    obtain ⟨g, c, h2⟩ := hleaf _ (List.mem_of_getElem? h)
    cases h2
  have hasc : ∀ (i j f g : Nat) (c d : Byte), i < j → (ft.map leafOf)[i]? = some (Node.leaf f c) →
      (ft.map leafOf)[j]? = some (Node.leaf g d) → c.toNat < d.toNat := by
    intro i j f g c d hij hi hj
    obtain ⟨e, he, hec, -⟩ := hget i f c hi
    obtain ⟨e', he', hed, -⟩ := hget j g d hj
    obtain ⟨hli, hgi⟩ := List.getElem?_eq_some_iff.1 he
    obtain ⟨hlj, hgj⟩ := List.getElem?_eq_some_iff.1 he'
    have := List.pairwise_iff_getElem.1 ha i j (by simpa using hli) (by simpa using hlj) hij
    simp only [List.getElem_map, hgi, hgj, hec, hed] at this
    exact (symLt_singleton c d).1 this
  have hcnt : ∀ (l : List FtEntry), (∀ e ∈ l, e.cnt ≤ ftTotal l) := by
    intro l e he
    exact List.le_sum_of_mem (List.mem_map_of_mem he)
  have hmax : ft.length ≤ 256 := by
    have hsub : (ft.map FtEntry.sym).Nodup := ha.nodup
    have : (ft.map (fun e => (e.sym.headD 0#8).toNat)).Nodup := by
      rw [List.Nodup, List.pairwise_map] at hsub ⊢
      refine List.Pairwise.imp_of_mem ?_ hsub
      intro a b hma hmb hab heq
      obtain ⟨x, hx⟩ := List.length_eq_one_iff.1 (h1 a hma)
      obtain ⟨y, hy⟩ := List.length_eq_one_iff.1 (h1 b hmb)
      rw [hx, hy] at hab heq
      have hxy : x = y := BitVec.eq_of_toNat_eq heq
      exact hab (by rw [hxy])
    have h2 : (ft.map (fun e => (e.sym.headD 0#8).toNat)) ⊆ List.range 256 := by
      intro x hx
      obtain ⟨e, -, rfl⟩ := List.mem_map.1 hx
      exact List.mem_range.2 (e.sym.headD 0#8).isLt
    have := (List.subperm_of_subset this h2).length_le
    simpa using this
  refine ⟨?_, hmax, ?_, hasc, ?_, ?_, ?_, ?_, ?_, ?_, ?_⟩
  · exact List.length_pos_iff.2 hne
  · intro i hi
    obtain ⟨f, c, h⟩ := hleaf _ (List.getElem_mem (l := ft.map leafOf) (n := i) (by simpa using hi))
    exact ⟨f, c, by rw [List.getElem?_eq_getElem (by simpa using hi), h]⟩
  · intro i h2 h3
    rw [List.length_map] at h3
    omega
  · intro k i j hi; exact absurd hi (hnochild k i)
  · simp; omega
  · exact List.pairwise_lt_range
  · intro k
    rw [List.mem_range, List.length_map]
    exact ⟨fun h => ⟨h, hnochild k⟩, fun h => h.1⟩
  · have : (List.range ft.length).map (freqOf (ft.map leafOf)) = ft.map FtEntry.cnt := by
      apply List.ext_getElem
      · simp
      · intro i hi1 hi2
        have hi : i < ft.length := by simpa using hi1
        simp [freqOf, hi, leafOf, Node.freq]
    rw [this]
    exact ht
  · intro m hm
    obtain ⟨e, he, rfl⟩ := List.mem_map.1 hm
    exact Nat.lt_of_le_of_lt (hcnt ft e he) ht

/-- Taking two members out of a sum. -/
theorem sum_filter_two {q : List Nat} (f : Nat → Nat) {a b : Nat} (hn : q.Nodup) (ha : a ∈ q) (hb : b ∈ q) (hab : a ≠ b) :
    ((q.filter (fun j => j ≠ a ∧ j ≠ b)).map f).sum + f a + f b = (q.map f).sum := by
  have h1 : q.Perm (a :: b :: q.filter (fun j => j ≠ a ∧ j ≠ b)) := by
    rw [List.perm_ext_iff_of_nodup hn]
    · intro x
      simp only [List.mem_cons, List.mem_filter, decide_eq_true_eq]
      constructor
      · intro hx
        by_cases hxa : x = a
        · exact .inl hxa
        · by_cases hxb : x = b
          · exact .inr (.inl hxb)
          · exact .inr (.inr ⟨hx, hxa, hxb⟩)
      · rintro (rfl | rfl | h)
        · exact ha
        · exact hb
        · exact h.1
    · refine List.nodup_cons.2 ⟨?_, List.nodup_cons.2 ⟨?_, hn.filter _⟩⟩
      · simp [hab]
      · simp
  have := (h1.map f).sum_eq
  simp only [List.map_cons, List.sum_cons] at this
  omega

/-- A merge of two roots keeps the forest: HSTEP (R163). -/
theorem Forest.merge {n : Nat} {nodes : List Node} {queue : List Nat} (h : Forest n nodes queue) {a b : Nat}
    (ha : a ∈ queue) (hb : b ∈ queue) (hab : a ≠ b) :
    Forest n (nodes ++ [.internal (freqOf nodes a + freqOf nodes b) a b])
      (queue.filter (fun j => j ≠ a ∧ j ≠ b) ++ [nodes.length]) := by
  have hq : ∀ k ∈ queue, k < nodes.length := fun k hk => ((h.queueRoots k).1 hk).1
  have hnd : queue.Nodup := List.Pairwise.imp (fun {_ _} h => Nat.ne_of_lt h) h.queueRising
  have hn : n ≤ nodes.length := by
    by_contra hc
    obtain ⟨f, c, hl⟩ := h.leaves nodes.length (by omega)
    rw [List.getElem?_eq_none (Nat.le_refl _)] at hl
    cases hl
  have hold : ∀ i, i < nodes.length → ∀ m : Node, (nodes ++ [m])[i]? = nodes[i]? :=
    fun i hi m => List.getElem?_append_left hi
  have hsum := sum_filter_two (freqOf nodes) hnd ha hb hab
  have hfreq : freqOf nodes a + freqOf nodes b < 2 ^ 32 := by have := h.mass; omega
  have hlen : (queue.filter (fun j => j ≠ a ∧ j ≠ b)).length + 2 = queue.length := by
    have := sum_filter_two (fun _ => 1) hnd ha hb hab
    simpa using this
  refine ⟨h.leavesPos, h.leavesMax, ?_, ?_, ?_, ?_, ?_, ?_, ?_, ?_, ?_⟩
  · intro i hi
    obtain ⟨f, c, hl⟩ := h.leaves i hi
    exact ⟨f, c, by rw [hold i (by omega), hl]⟩
  · intro i j f g c d hij hi hj
    have key : ∀ (k x : Nat) (y : Byte), (nodes ++ [Node.internal (freqOf nodes a + freqOf nodes b) a b])[k]? =
        some (Node.leaf x y) → nodes[k]? = some (Node.leaf x y) := by
      intro k x y hk
      by_cases hkl : k < nodes.length
      · rwa [hold k hkl] at hk
      · rw [List.getElem?_append_right (by omega)] at hk
        rcases hm : k - nodes.length with _ | m
        · rw [hm] at hk; simp at hk
        · rw [hm] at hk; simp at hk
    exact h.leavesAscend i j f g c d hij (key i f c hi) (key j g d hj)
  · intro i h1 h2
    rw [List.length_append, List.length_singleton] at h2
    by_cases hi : i < nodes.length
    · obtain ⟨l, r, h3, h4, h5, h6⟩ := h.internals i h1 hi
      refine ⟨l, r, ?_, h4, h5, h6⟩
      rw [hold i hi, h3, freqOf_append_left _ _ (by omega), freqOf_append_left _ _ (by omega)]
    · have : i = nodes.length := by omega
      subst this
      refine ⟨a, b, ?_, hq a ha, hq b hb, hab⟩
      rw [freqOf_append_left _ _ (hq a ha), freqOf_append_left _ _ (hq b hb)]
      simp
  · intro k i j hi hj
    rw [childOf_append] at hi hj
    have hroot : ∀ k, k = a ∨ k = b → ∀ i, ¬ ChildOf nodes k i := by
      rintro k (rfl | rfl)
      · exact ((h.queueRoots _).1 ha).2
      · exact ((h.queueRoots _).1 hb).2
    rcases hi with hi | ⟨rfl, hi⟩ <;> rcases hj with hj | ⟨rfl, hj⟩
    · exact h.oneParent k i j hi hj
    · exact absurd hi (hroot k hj i)
    · exact absurd hj (hroot k hi j)
    · rfl
  · have := h.count
    rw [List.length_append, List.length_append, List.length_singleton, List.length_singleton]
    omega
  · refine List.pairwise_append.2 ⟨h.queueRising.filter _, List.pairwise_singleton _ _, ?_⟩
    intro x hx y hy
    rw [List.mem_singleton] at hy
    subst hy
    exact hq x (List.mem_filter.1 hx).1
  · intro k
    simp only [List.mem_append, List.mem_filter, decide_eq_true_eq, List.mem_singleton, List.length_append,
      List.length_singleton, childOf_append, not_or, not_and]
    constructor
    · rintro (⟨hk, hka, hkb⟩ | rfl)
      · have := (h.queueRoots k).1 hk
        exact ⟨by omega, fun i => ⟨this.2 i, fun _ => ⟨hka, hkb⟩⟩⟩
      · refine ⟨by omega, fun i => ⟨fun hc => ?_, fun _ => ⟨?_, ?_⟩⟩⟩
        · have h1 := h.child_lt hc
          have h2 := hc.lt_length
          omega
        · exact (hq a ha).ne'
        · exact (hq b hb).ne'
    · rintro ⟨hk, hi⟩
      by_cases hkl : k = nodes.length
      · exact .inr hkl
      · refine .inl ⟨(h.queueRoots k).2 ⟨by omega, fun i => (hi i).1⟩, ?_⟩
        have := (hi nodes.length).2 rfl
        exact ⟨this.1, this.2⟩
  · rw [List.map_append, List.sum_append]
    have h1 : (queue.filter (fun j => j ≠ a ∧ j ≠ b)).map
        (freqOf (nodes ++ [Node.internal (freqOf nodes a + freqOf nodes b) a b])) =
        (queue.filter (fun j => j ≠ a ∧ j ≠ b)).map (freqOf nodes) := by
      apply List.map_congr_left
      intro x hx
      exact freqOf_append_left _ _ (hq x (List.mem_filter.1 hx).1)
    rw [h1, List.map_singleton, List.sum_singleton, freqOf_append_last]
    have := h.mass
    simp only [Node.freq]
    omega
  · intro m hm
    rcases List.mem_append.1 hm with hm | hm
    · exact h.freqs m hm
    · rw [List.mem_singleton] at hm
      subst hm
      exact hfreq

/-! ## Paths -/

theorem follow_append (nodes : List Node) (i : Nat) (p q : Code) :
    follow nodes i (p ++ q) = (follow nodes i p).bind (fun j => follow nodes j q) := by
  induction p generalizing i with
  | nil => rfl
  | cons b p ih =>
    simp only [List.cons_append, follow]
    cases h : nodes[i]? with
    | none => rfl
    | some m => cases m <;> simp [ih]

/-- A path goes on only through internal records. -/
theorem follow_next {nodes : List Node} {i k : Nat} {p : Code} {b : Bool} {q : Code}
    (h : follow nodes i (p ++ b :: q) = some k) :
    ∃ j f l r, follow nodes i p = some j ∧ nodes[j]? = some (Node.internal f l r) ∧
      follow nodes (if b then r else l) q = some k := by
  rw [follow_append] at h
  cases hp : follow nodes i p with
  | none => rw [hp] at h; cases h
  | some j =>
    rw [hp] at h
    simp only [Option.bind, follow] at h
    cases hj : nodes[j]? with
    | none => rw [hj] at h; cases h
    | some m =>
      cases m with
      | leaf => rw [hj] at h; cases h
      | internal f l r => rw [hj] at h; exact ⟨j, f, l, r, rfl, hj, h⟩

/-- A path of one bit leads to a child. -/
theorem follow_single {nodes : List Node} {i k : Nat} {b : Bool} (h : follow nodes i [b] = some k) :
    ChildOf nodes k i := by
  simp only [follow] at h
  cases hi : nodes[i]? with
  | none => rw [hi] at h; cases h
  | some m =>
    rw [hi] at h
    cases m with
    | leaf => cases h
    | internal f l r =>
      simp only [Option.some.injEq] at h
      refine ⟨f, l, r, hi, ?_⟩
      cases b
      · left; simpa using h.symm
      · right; simpa using h.symm

/-- A path leads downwards. -/
theorem Forest.follow_le {n : Nat} {nodes : List Node} {queue : List Nat} (h : Forest n nodes queue) {p : Code} {i k : Nat}
    (hf : follow nodes i p = some k) : k + p.length ≤ i := by
  induction p generalizing i with
  | nil => simp only [follow, Option.some.injEq] at hf; subst hf; simp
  | cons b p ih =>
    rw [← List.singleton_append, follow_append] at hf
    cases hj : follow nodes i [b] with
    | none => rw [hj] at hf; cases hf
    | some j =>
      rw [hj] at hf
      have h1 := h.child_lt (follow_single hj)
      have h2 := ih hf
      simp only [List.length_cons]
      omega

/-- Two paths from one record to the same record are the same path. -/
theorem Forest.path_unique {n : Nat} {nodes : List Node} {queue : List Nat} (h : Forest n nodes queue) {i k : Nat}
    {p q : Code} (hp : follow nodes i p = some k) (hq : follow nodes i q = some k) : p = q := by
  induction p using List.reverseRecOn generalizing k q with
  | nil =>
    simp only [follow, Option.some.injEq] at hp
    subst hp
    have := h.follow_le hq
    have : q.length = 0 := by omega
    exact (List.eq_nil_of_length_eq_zero this).symm
  | append_singleton p b ih =>
    have hb := hp
    rw [follow_append] at hp
    cases hj : follow nodes i p with
    | none => rw [hj] at hp; cases hp
    | some j =>
      rw [hj] at hp
      have hc := follow_single (show follow nodes j [b] = some k from hp)
      cases q using List.reverseRecOn with
      | nil =>
        simp only [follow, Option.some.injEq] at hq
        subst hq
        have h1 := h.follow_le hb
        simp at h1
      | append_singleton q b' =>
        rw [follow_append] at hq
        cases hj' : follow nodes i q with
        | none => rw [hj'] at hq; cases hq
        | some j' =>
          rw [hj'] at hq
          have hc' := follow_single (show follow nodes j' [b'] = some k from hq)
          have := h.oneParent k j j' hc hc'
          subst this
          have hpq := ih hj hj'
          subst hpq
          have hlt := hc.lt_length
          have hge : n ≤ j := by
            by_contra hcon
            obtain ⟨f, c, hl⟩ := h.leaves j (by omega)
            obtain ⟨f', l', r', hi, -⟩ := hc
            rw [hl] at hi; cases hi
          obtain ⟨l, r, h1, -, -, h4⟩ := h.internals j hge hlt
          have hp' : some (if b = true then r else l) = some k := by
            simpa [follow, h1] using hp
          have hq' : some (if b' = true then r else l) = some k := by
            simpa [follow, h1] using hq
          have : b = b' := by
            cases b <;> cases b' <;> simp_all
          rw [this]

/-! ## The walk of HCODES (R170) -/

theorem Forest.leafPaths_ne_nil {n : Nat} {nodes : List Node} {queue : List Nat} (h : Forest n nodes queue)
    (depth i : Nat) (path : Code) (hi : i < nodes.length) (hd : i < depth) : leafPaths nodes depth i path ≠ [] := by
  induction depth generalizing i path with
  | zero => omega
  | succ depth ih =>
    by_cases hin : i < n
    · obtain ⟨f, c, hl⟩ := h.leaves i hin
      simp [leafPaths, hl]
    · obtain ⟨l, r, h1, h2, -, -⟩ := h.internals i (by omega) hi
      simp only [leafPaths, h1, ne_eq, List.append_eq_nil_iff, not_and]
      intro hcon
      exact absurd hcon (ih l _ (by omega) (by omega))

/-- What the walk from a record gives, depth being enough: an entry for every path that ends in a leaf, and no other; the
codes prefix-free, each shorter than the walk has entries. -/
theorem Forest.leafPaths_spec {n : Nat} {nodes : List Node} {queue : List Nat} (h : Forest n nodes queue) (depth i : Nat)
    (path : Code) (hi : i < nodes.length) (hd : i < depth) :
    (∀ e : CtEntry, e ∈ leafPaths nodes depth i path ↔
      ∃ q k g c, e.code = path ++ q ∧ follow nodes i q = some k ∧ nodes[k]? = some (Node.leaf g c) ∧ e.sym = [c]) ∧
    PrefixFree ((leafPaths nodes depth i path).map CtEntry.code) ∧
    (∀ e ∈ leafPaths nodes depth i path, e.code.length + 1 ≤ path.length + (leafPaths nodes depth i path).length) := by
  induction depth generalizing i path with
  | zero => omega
  | succ depth ih =>
    by_cases hin : i < n
    · obtain ⟨f, c, hl⟩ := h.leaves i hin
      have hw : leafPaths nodes (depth + 1) i path = [⟨[c], path⟩] := by simp [leafPaths, hl]
      rw [hw]
      refine ⟨?_, by simp [PrefixFree], by simp⟩
      intro e
      rw [List.mem_singleton]
      constructor
      · rintro rfl
        exact ⟨[], i, f, c, by simp, rfl, hl, rfl⟩
      · rintro ⟨q, k, g, d, h1, h2, h3, h4⟩
        cases q with
        | nil =>
          simp only [follow, Option.some.injEq] at h2
          subst h2
          rw [hl] at h3
          cases h3
          obtain ⟨x, y⟩ := e
          simp at h1 h4
          subst h1 h4
          rfl
        | cons b q => simp [follow, hl] at h2
    · obtain ⟨l, r, h1, h2, h3, h4⟩ := h.internals i (by omega) hi
      generalize freqOf nodes l + freqOf nodes r = f at h1
      have hw : leafPaths nodes (depth + 1) i path =
          leafPaths nodes depth l (path ++ [false]) ++ leafPaths nodes depth r (path ++ [true]) := by
        simp [leafPaths, h1]
      rw [hw]
      obtain ⟨l1, l2, l3⟩ := ih l (path ++ [false]) (by omega) (by omega)
      obtain ⟨r1, r2, r3⟩ := ih r (path ++ [true]) (by omega) (by omega)
      have hl0 := List.length_pos_iff.2 (h.leafPaths_ne_nil depth l (path ++ [false]) (by omega) (by omega))
      have hr0 := List.length_pos_iff.2 (h.leafPaths_ne_nil depth r (path ++ [true]) (by omega) (by omega))
      refine ⟨?_, ?_, ?_⟩
      · intro e
        rw [List.mem_append, l1, r1]
        constructor
        · rintro (⟨q, k, g, c, e1, e2, e3, e4⟩ | ⟨q, k, g, c, e1, e2, e3, e4⟩)
          · exact ⟨false :: q, k, g, c, by simp [e1], by simp [follow, h1, e2], e3, e4⟩
          · exact ⟨true :: q, k, g, c, by simp [e1], by simp [follow, h1, e2], e3, e4⟩
        · rintro ⟨q, k, g, c, e1, e2, e3, e4⟩
          cases q with
          | nil =>
            simp only [follow, Option.some.injEq] at e2
            subst e2
            rw [h1] at e3
            cases e3
          | cons b q =>
            simp only [follow, h1] at e2
            cases b
            · exact .inl ⟨q, k, g, c, by simp [e1], by simpa using e2, e3, e4⟩
            · exact .inr ⟨q, k, g, c, by simp [e1], by simpa using e2, e3, e4⟩
      · rw [List.map_append]
        refine List.pairwise_append.2 ⟨l2, r2, ?_⟩
        intro c hc d hd'
        obtain ⟨e, he, rfl⟩ := List.mem_map.1 hc
        obtain ⟨e', he', rfl⟩ := List.mem_map.1 hd'
        obtain ⟨q, -, -, -, hq, -⟩ := (l1 e).1 he
        obtain ⟨q', -, -, -, hq', -⟩ := (r1 e').1 he'
        rw [hq, hq']
        simp [List.append_assoc]
      · intro e he
        rw [List.length_append]
        rcases List.mem_append.1 he with he | he
        · have := l3 e he
          simp at this
          omega
        · have := r3 e he
          simp at this
          omega

/-- Two leaves with the same character are the same record. -/
theorem Forest.leaf_unique {n : Nat} {nodes : List Node} {queue : List Nat} (h : Forest n nodes queue) {i j f g : Nat}
    {c : Byte} (hi : nodes[i]? = some (Node.leaf f c)) (hj : nodes[j]? = some (Node.leaf g c)) : i = j := by
  rcases Nat.lt_trichotomy i j with hlt | heq | hlt
  · exact absurd (h.leavesAscend i j f g c c hlt hi hj) (Nat.lt_irrefl _)
  · exact heq
  · exact absurd (h.leavesAscend j i g f c c hlt hj hi) (Nat.lt_irrefl _)

/-- Walking from a record meets every symbol once. -/
theorem Forest.leafPaths_syms {n : Nat} {nodes : List Node} {queue : List Nat} (h : Forest n nodes queue) (depth i : Nat)
    (path : Code) (hi : i < nodes.length) (hd : i < depth) :
    ((leafPaths nodes depth i path).map CtEntry.sym).Nodup := by
  obtain ⟨h1, h2, -⟩ := h.leafPaths_spec depth i path hi hd
  have hnd := h2.nodup
  rw [List.Nodup, List.pairwise_map] at hnd ⊢
  refine List.Pairwise.imp_of_mem ?_ hnd
  intro a b ha hb hab heq
  obtain ⟨q, k, g, c, e1, e2, e3, e4⟩ := (h1 a).1 ha
  obtain ⟨q', k', g', c', e1', e2', e3', e4'⟩ := (h1 b).1 hb
  rw [e4, e4'] at heq
  obtain ⟨rfl⟩ := heq
  have hk := h.leaf_unique e3 e3'
  subst hk
  exact hab (by rw [e1, e1', h.path_unique e2 e2'])

/-- In a forest of one tree every record lies on a path from the root. -/
theorem Forest.reach {n : Nat} {nodes : List Node} {root : Nat} (h : Forest n nodes [root]) (k : Nat)
    (hk : k < nodes.length) : ∃ p, follow nodes root p = some k := by
  have hmain : ∀ m k, nodes.length - k ≤ m → k < nodes.length → ∃ p, follow nodes root p = some k := by
    intro m
    induction m with
    | zero => intro k h1 h2; omega
    | succ m ih =>
      intro k h1 h2
      by_cases hr : k = root
      · exact ⟨[], by simp [follow, hr]⟩
      · have hnot : ¬ (k ∈ [root]) := by simpa using hr
        rw [h.queueRoots] at hnot
        have : ∃ i, ChildOf nodes k i := by
          by_contra hc
          exact hnot ⟨h2, fun i hi => hc ⟨i, hi⟩⟩
        obtain ⟨i, hi⟩ := this
        have hlt := h.child_lt hi
        obtain ⟨p, hp⟩ := ih i (by have := hi.lt_length; omega) hi.lt_length
        obtain ⟨f, l, r, hn, hlr⟩ := hi
        rcases hlr with rfl | rfl
        · exact ⟨p ++ [false], by simp [follow_append, hp, follow, hn]⟩
        · exact ⟨p ++ [true], by simp [follow_append, hp, follow, hn]⟩
  exact hmain _ k (Nat.le_refl _) hk

end Sys2Proof.Machine
end

