-- ==== Sys2Proof/Laws/Loops.lean ====
section
/-! SUPPORT. The loops of ENCODE, TDECODE and RDECODE: each ends in the state it started from with one run of characters
appended, which fits its buffer; and what each loop does with a whole code. -/

namespace Sys2Proof.Machine

open Sys2Proof

set_option autoImplicit false

/-! ## Appending in two parts -/

theorem Memory.writeAll_append (vs ws : List Byte) (k : Nat) (m : Memory) :
    Memory.writeAll k (vs ++ ws) m = Memory.writeAll (k + vs.length) ws (Memory.writeAll k vs m) := by
  induction vs generalizing k m with
  | nil => rfl
  | cons v vs ih =>
    rw [List.cons_append, Memory.writeAll, ih, Memory.writeAll, List.length_cons]
    congr 1
    omega

theorem State.emit_nil (s : State) : s.emit [] = s := by
  rw [State.emit_eq]
  simp [Memory.writeAll, word_toNat_self]

theorem State.emit_append {s : State} {as bs : List Byte} (h : s.outLen.toNat + as.length < 2 ^ 32) :
    (s.emit as).emit bs = s.emit (as ++ bs) := by
  rw [State.emit_eq bs, State.emit_eq (as ++ bs), State.emit_eq as]
  simp only [word_toNat h, Memory.writeAll_append, List.length_append, Nat.add_assoc]

theorem State.appendBits_nil (s : State) : s.appendBits [] = s := by
  rw [State.appendBits_eq]
  simp [Memory.writeAll, codeChars, word_toNat_self]

theorem State.appendBits_append {s : State} {c d : Code} (h : s.bitLen.toNat + c.length < 2 ^ 32) :
    (s.appendBits c).appendBits d = s.appendBits (c ++ d) := by
  rw [State.appendBits_eq d, State.appendBits_eq (c ++ d), State.appendBits_eq c]
  simp only [word_toNat h, codeChars_append, Memory.writeAll_append, codeChars_length, List.length_append, Nat.add_assoc]

/-! ## ENCODE's loop (R224) -/

/-- The loop appends the codes of the symbols up to the first it stops at, if it stops. -/
theorem encodeSymbols_spec (len : Nat) (syms : List Symbol) (pos : Nat) (s : State)
    (hb : s.bitLen.toNat ≤ s.caps.bit.toNat) :
    ∃ (before : List Symbol) (codes : List Code) (o : Option (Completion × Nat)),
      encodeSymbols len syms pos s = (s.appendBits codes.flatten, o) ∧ CodesOf s.ct before codes ∧
      s.bitLen.toNat + codes.flatten.length ≤ s.caps.bit.toNat ∧
      ((o = none ∧ syms = before) ∨
       ∃ k after, syms = before ++ k :: after ∧
        ((o = some (.noSymbol, pos + before.length * len) ∧ k ∉ s.ct.map CtEntry.sym) ∨
         (o = some (.capacity, pos + before.length * len) ∧ ∃ d, (⟨k, d⟩ : CtEntry) ∈ s.ct ∧
          s.caps.bit.toNat < s.bitLen.toNat + codes.flatten.length + d.length))) := by
  induction syms generalizing pos s with
  | nil => exact ⟨[], [], none, by simp [encodeSymbols, State.appendBits_nil], .nil, by simpa using hb, .inl ⟨rfl, rfl⟩⟩
  | cons k ks ih =>
    unfold encodeSymbols
    cases hf : ctForward k s.ct with
    | none =>
      refine ⟨[], [], some (.noSymbol, pos), by simp [State.appendBits_nil], .nil, by simpa using hb, .inr ⟨k, ks, rfl, ?_⟩⟩
      exact .inl ⟨by simp, ctForward_eq_none.1 hf⟩
    | some re =>
      obtain ⟨r, e⟩ := re
      obtain ⟨-, h2, h3⟩ := ctFind_eq_some hf
      have hm : (⟨k, e.code⟩ : CtEntry) ∈ s.ct := by
        have := List.mem_of_getElem? h2
        simp only [decide_eq_true_eq] at h3
        rw [← h3]; exact this
      by_cases hc : s.caps.bit.toNat < s.bitLen.toNat + e.code.length
      · simp only [if_pos hc]
        exact ⟨[], [], some (.capacity, pos), by simp [State.appendBits_nil], .nil, by simpa using hb,
          .inr ⟨k, ks, rfl, .inr ⟨by simp, e.code, hm, by simpa using hc⟩⟩⟩
      · simp only [if_neg hc]
        have hw : s.bitLen.toNat + e.code.length < 2 ^ 32 := by have := s.caps.bit.isLt; omega
        have hl : (s.appendBits e.code).bitLen.toNat = s.bitLen.toNat + e.code.length := word_toNat hw
        have hct : (s.appendBits e.code).ct = s.ct := by rw [State.appendBits_eq]
        have hcap : (s.appendBits e.code).caps = s.caps := by rw [State.appendBits_eq]
        obtain ⟨before, codes, o, h4, h5, h6, h7⟩ := ih (pos + len) (s.appendBits e.code) (by rw [hl, hcap]; omega)
        rw [hct] at h5 h7
        rw [hcap] at h6 h7
        rw [hl] at h6 h7
        refine ⟨k :: before, e.code :: codes, o, ?_, .cons hm h5, ?_, ?_⟩
        · rw [h4, State.appendBits_append hw, List.flatten_cons]
        · rw [List.flatten_cons, List.length_append]; omega
        · have hpos : pos + len + before.length * len = pos + (k :: before).length * len := by
            rw [List.length_cons]; ring
          rw [hpos] at h7
          rw [List.flatten_cons, List.length_append]
          rcases h7 with ⟨h7, h8⟩ | ⟨k', after, h7, h8⟩
          · exact .inl ⟨h7, by rw [h8]⟩
          · refine .inr ⟨k', after, by rw [h7]; rfl, ?_⟩
            rcases h8 with h8 | ⟨h8, d, h9, h10⟩
            · exact .inl h8
            · exact .inr ⟨h8, d, h9, by omega⟩

/-! ## TDECODE's loop (R241) -/

/-- However the loop ends, it ends in the state it started from with the decoded characters appended, which fit. -/
theorem treeDecode_ends (root : Nat) (cs : List Byte) (p cur start : Nat) (s : State)
    (hb : s.outLen.toNat ≤ s.caps.out.toNat) :
    ∃ (xs : List Byte) (c : Completion) (pos : Nat),
      treeDecode root cs p cur start s = .next ((s.emit xs).ended c pos) ∧
      s.outLen.toNat + xs.length ≤ s.caps.out.toNat ∧
      (c = .ok ∧ pos = 0 ∨ c = .incomplete ∨ c = .badChar ∨ c = .capacity) := by
  induction cs generalizing p cur start s with
  | nil =>
    unfold treeDecode
    split
    · exact ⟨[], .incomplete, start, by rw [State.emit_nil]; rfl, by simpa using hb, by simp⟩
    · exact ⟨[], .ok, 0, by rw [State.emit_nil]; rfl, by simpa using hb, by simp⟩
  | cons c cs ih =>
    unfold treeDecode
    cases bitOf c with
    | none => exact ⟨[], .badChar, p, by rw [State.emit_nil]; rfl, by simpa using hb, by simp⟩
    | some b =>
      dsimp only
      cases nextNode s.nodes root cur b with
      | none => exact ⟨[], .incomplete, p, by rw [State.emit_nil]; rfl, by simpa using hb, by simp⟩
      | some n =>
        dsimp only
        cases s.nodes[n]? with
        | none => exact ⟨[], .incomplete, p, by rw [State.emit_nil]; rfl, by simpa using hb, by simp⟩
        | some m =>
          cases m with
          | internal f l r => exact ih (p + 1) n start s hb
          | leaf f sym =>
            dsimp only
            split
            · exact ⟨[], .capacity, start, by rw [State.emit_nil]; rfl, by simpa using hb, by simp⟩
            · rename_i hc
              have hw : s.outLen.toNat + [sym].length < 2 ^ 32 := by
                have := s.caps.out.isLt; simp only [List.length_singleton]; omega
              have hl : (s.emit [sym]).outLen.toNat = s.outLen.toNat + 1 := word_toNat hw
              have hcap : (s.emit [sym]).caps = s.caps := by rw [State.emit_eq]
              obtain ⟨xs, c', pos, h1, h2, h3⟩ := ih (p + 1) root (p + 1) (s.emit [sym]) (by rw [hl, hcap]; omega)
              refine ⟨[sym] ++ xs, c', pos, by rw [h1, State.emit_append hw], ?_, h3⟩
              rw [hl, hcap] at h2
              rw [List.length_append, List.length_singleton]; omega

/-- In a tree of two or more leaves the loop reads a path to an internal record without an effect. -/
theorem treeDecode_descend {root f l r : Nat} {s : State} (hr : s.nodes[root]? = some (Node.internal f l r))
    (bits : Code) (rest : List Byte) (p cur start k : Nat) (h : follow s.nodes cur bits = some k)
    (hk : ∀ q, q ≠ [] → q <+: bits → ∀ j g c, follow s.nodes cur q = some j → s.nodes[j]? ≠ some (Node.leaf g c))
    (hin : ∀ q j, q <+: bits → follow s.nodes cur q = some j → ∃ m, s.nodes[j]? = some m) :
    treeDecode root (codeChars bits ++ rest) p cur start s = treeDecode root rest (p + bits.length) k start s := by
  induction bits generalizing p cur with
  | nil => simp only [follow, Option.some.injEq] at h; subst h; rfl
  | cons b bits ih =>
    have hcur : ∃ g a c, s.nodes[cur]? = some (Node.internal g a c) := by
      simp only [follow] at h
      cases hn : s.nodes[cur]? with
      | none => rw [hn] at h; cases h
      | some m =>
        cases m with
        | leaf => rw [hn] at h; cases h
        | internal g a c => exact ⟨g, a, c, rfl⟩
    obtain ⟨g, a, c, hn⟩ := hcur
    have h' : follow s.nodes (if b then c else a) bits = some k := by simpa [follow, hn] using h
    have hnext : ∃ g' a' c', s.nodes[if b then c else a]? = some (Node.internal g' a' c') := by
      have h1 : follow s.nodes cur [b] = some (if b then c else a) := by simp [follow, hn]
      have hp : [b] <+: b :: bits := ⟨bits, rfl⟩
      obtain ⟨m, hm⟩ := hin [b] _ hp h1
      cases m with
      | leaf g' x => exact absurd hm (hk [b] (by simp) hp _ g' x h1)
      | internal g' a' c' => exact ⟨g', a', c', hm⟩
    obtain ⟨g', a', c', hm⟩ := hnext
    have hlift : ∀ q j, follow s.nodes (if b then c else a) q = some j → follow s.nodes cur (b :: q) = some j := by
      intro q j hq; simpa [follow, hn] using hq
    have := ih (p + 1) (if b then c else a) h'
      (fun q hq hqb j g c hf => hk (b :: q) (by simp) (List.cons_prefix_cons.2 ⟨rfl, hqb⟩) j g c (hlift q j hf))
      (fun q j hqb hf => hin (b :: q) j (List.cons_prefix_cons.2 ⟨rfl, hqb⟩) (hlift q j hf))
    rw [show codeChars (b :: bits) ++ rest = chr b :: (codeChars bits ++ rest) from rfl, treeDecode]
    simp only [bitOf_chr, nextNode, hr, hn, hm]
    rw [this, List.length_cons]
    congr 1
    omega

/-- A path from the root to an internal record is read without an effect. -/
theorem treeDecode_internal {root f l r : Nat} {s : State} (hr : s.nodes[root]? = some (Node.internal f l r))
    (bits : Code) (rest : List Byte) (p start k g a b : Nat) (h : follow s.nodes root bits = some k)
    (hk : s.nodes[k]? = some (Node.internal g a b)) :
    treeDecode root (codeChars bits ++ rest) p root start s = treeDecode root rest (p + bits.length) k start s := by
  have key : ∀ q j, q <+: bits → follow s.nodes root q = some j → ∃ f l r, s.nodes[j]? = some (Node.internal f l r) := by
    rintro q j ⟨u, rfl⟩ hq
    cases u with
    | nil => rw [List.append_nil, hq] at h; cases h; exact ⟨_, _, _, hk⟩
    | cons b u =>
      obtain ⟨j', f, l, r, h1, h2, -⟩ := follow_next h
      rw [hq] at h1; cases h1; exact ⟨_, _, _, h2⟩
  refine treeDecode_descend hr bits rest p root start k h ?_ ?_
  · intro q _ hq j g c hf hn
    obtain ⟨f, l, r, h2⟩ := key q j hq hf
    rw [hn] at h2; cases h2
  · intro q j hq hf
    obtain ⟨f, l, r, h2⟩ := key q j hq hf
    exact ⟨_, h2⟩

/-- The bits of a path that ends at a leaf are consumed whole, and its character is emitted if it fits. -/
theorem treeDecode_code {s : State} {x : Byte} {code : Code} (h : EndsAtLeaf s x code) (rest : List Byte) (p start : Nat) :
    treeDecode s.root.toNat (codeChars code ++ rest) p s.root.toNat start s =
      if s.caps.out.toNat < s.outLen.toNat + 1 then raise .capacity start s
      else treeDecode s.root.toNat rest (p + code.length) s.root.toNat (p + code.length) (s.emit [x]) := by
  rcases h with ⟨f, h1, rfl⟩ | ⟨k, f, h0, h1, h2⟩
  · rw [show codeChars [false] ++ rest = chr false :: rest from rfl, treeDecode]
    simp only [bitOf_chr, nextNode, h1, Bool.false_eq_true, if_false]
    rfl
  · obtain ⟨bits, b, hb⟩ := (List.eq_nil_or_concat code).resolve_left h0
    rw [List.concat_eq_append] at hb
    subst hb
    obtain ⟨j, g, l, r, h3, h4, h5⟩ := follow_next h1
    simp only [follow, Option.some.injEq] at h5
    have hroot : ∃ f l r, s.nodes[s.root.toNat]? = some (Node.internal f l r) := by
      cases bits with
      | nil => simp only [follow, Option.some.injEq] at h3; rw [h3]; exact ⟨_, _, _, h4⟩
      | cons c bits =>
        obtain ⟨j', f', l', r', a1, a2, -⟩ := follow_next (p := []) (b := c) (q := bits) h3
        simp only [follow, Option.some.injEq] at a1
        rw [a1]; exact ⟨_, _, _, a2⟩
    obtain ⟨f', l', r', hr⟩ := hroot
    rw [codeChars_append, List.append_assoc, treeDecode_internal hr bits _ p start j g l r h3 h4,
      show codeChars [b] ++ rest = chr b :: rest from rfl, treeDecode]
    simp only [bitOf_chr, nextNode, hr, h4, h5, h2, List.length_append, List.length_singleton, Nat.add_assoc]

/-- Whole paths are consumed one after the other and their characters emitted, while they fit. -/
theorem treeDecode_codes {s0 : State} {xs : List Byte} {codes : List Code}
    (h : List.Forall₂ (EndsAtLeaf s0) xs codes)
    (rest : List Byte) (p : Nat) (s : State) (hn : s.nodes = s0.nodes) (hr : s.root = s0.root)
    (hb : s.outLen.toNat + xs.length ≤ s.caps.out.toNat) :
    treeDecode s.root.toNat (codeChars codes.flatten ++ rest) p s.root.toNat p s =
      treeDecode s.root.toNat rest (p + codes.flatten.length) s.root.toNat (p + codes.flatten.length) (s.emit xs) := by
  induction h generalizing p s with
  | nil => simp [State.emit_nil, codeChars]
  | @cons x c xs cs hx _ ih =>
    rw [List.length_cons] at hb
    have hw : s.outLen.toNat + [x].length < 2 ^ 32 := by
      have := s.caps.out.isLt; simp only [List.length_singleton]; omega
    have hol : (s.emit [x]).outLen.toNat = s.outLen.toNat + 1 := word_toNat hw
    have e : (s.emit [x]).nodes = s.nodes ∧ (s.emit [x]).root = s.root ∧ (s.emit [x]).caps = s.caps := by
      rw [State.emit_eq]; exact ⟨rfl, rfl, rfl⟩
    have hx' : EndsAtLeaf s x c := by unfold EndsAtLeaf at hx ⊢; rw [hn, hr]; exact hx
    have h2 := ih (p + c.length) (s.emit [x]) (e.1.trans hn) (e.2.1.trans hr) (by rw [hol, e.2.2]; omega)
    rw [e.2.1] at h2
    rw [List.flatten_cons, codeChars_append, List.append_assoc, treeDecode_code hx', if_neg (by omega), h2,
      State.emit_append hw, List.length_append, Nat.add_assoc]
    rfl

/-! ## RDECODE's loop (R245) -/

/-- However the loop ends, it ends in the state it started from with the decoded characters appended, which fit. -/
theorem tableDecode_ends (cs : List Byte) (p : Nat) (acc : Code) (start : Nat) (s : State)
    (hct : ∀ e ∈ s.ct, e.sym.length = s.symLen.toNat) (hb : s.outLen.toNat ≤ s.caps.out.toNat) :
    ∃ (xs : List Byte) (c : Completion) (pos : Nat),
      tableDecode cs p acc start s = .next ((s.emit xs).ended c pos) ∧
      s.outLen.toNat + xs.length ≤ s.caps.out.toNat ∧
      (c = .ok ∧ pos = 0 ∨ c = .incomplete ∨ c = .badChar ∨ c = .capacity) := by
  induction cs generalizing p acc start s with
  | nil =>
    unfold tableDecode
    split
    · exact ⟨[], .incomplete, start, by rw [State.emit_nil]; rfl, by simpa using hb, by simp⟩
    · exact ⟨[], .ok, 0, by rw [State.emit_nil]; rfl, by simpa using hb, by simp⟩
  | cons c cs ih =>
    unfold tableDecode
    cases bitOf c with
    | none => exact ⟨[], .badChar, p, by rw [State.emit_nil]; rfl, by simpa using hb, by simp⟩
    | some b =>
      dsimp only
      cases hf : ctReverse (acc ++ [b]) s.ct with
      | none => exact ih (p + 1) (acc ++ [b]) start s hct hb
      | some re =>
        obtain ⟨r, e⟩ := re
        dsimp only
        have he : e.sym.length = s.symLen.toNat := hct e (List.mem_of_getElem? (ctFind_eq_some hf).2.1)
        split
        · exact ⟨[], .capacity, start, by rw [State.emit_nil]; rfl, by simpa using hb, by simp⟩
        · rename_i hc
          have hw : s.outLen.toNat + e.sym.length < 2 ^ 32 := by have := s.caps.out.isLt; omega
          have hl : (s.emit e.sym).outLen.toNat = s.outLen.toNat + e.sym.length := word_toNat hw
          have hcap : (s.emit e.sym).caps = s.caps := by rw [State.emit_eq]
          have hct' : ∀ e' ∈ (s.emit e.sym).ct, e'.sym.length = (s.emit e.sym).symLen.toNat := by
            rw [State.emit_eq]; exact hct
          obtain ⟨xs, c', pos, h1, h2, h3⟩ := ih (p + 1) [] (p + 1) (s.emit e.sym) hct' (by rw [hl, hcap]; omega)
          refine ⟨e.sym ++ xs, c', pos, by rw [h1, State.emit_append hw], ?_, h3⟩
          rw [hl, hcap] at h2
          rw [List.length_append]; omega

/-- Bits that complete no code are accumulated. -/
theorem tableDecode_accumulate (bits : Code) (rest : List Byte) (p : Nat) (acc : Code) (start : Nat) (s : State)
    (h : ∀ q, q ≠ [] → q <+: bits → acc ++ q ∉ s.ct.map CtEntry.code) :
    tableDecode (codeChars bits ++ rest) p acc start s =
      tableDecode rest (p + bits.length) (acc ++ bits) start s := by
  induction bits generalizing p acc with
  | nil => simp [codeChars]
  | cons b bits ih =>
    have h1 : ctReverse (acc ++ [b]) s.ct = none :=
      ctReverse_eq_none.2 (h [b] (by simp) ⟨bits, rfl⟩)
    rw [show codeChars (b :: bits) ++ rest = chr b :: (codeChars bits ++ rest) from rfl, tableDecode]
    simp only [bitOf_chr, h1]
    rw [ih (p + 1) (acc ++ [b])]
    · rw [List.append_assoc, List.singleton_append, List.length_cons]
      congr 1
      omega
    · intro q hq hqb
      rw [List.append_assoc]
      exact h ([b] ++ q) (by simp) (List.cons_prefix_cons.2 ⟨rfl, hqb⟩)

/-- The bits of a code that no other non-empty code is a prefix of are consumed whole, and its symbol is emitted if it
fits. -/
theorem tableDecode_code {s : State} (hc : (s.ct.map CtEntry.code).Nodup) {e : CtEntry} (he : e ∈ s.ct)
    (hne : e.code ≠ []) (hmin : ∀ q, q ≠ [] → q <+: e.code → q ≠ e.code → q ∉ s.ct.map CtEntry.code)
    (rest : List Byte) (p start : Nat) :
    tableDecode (codeChars e.code ++ rest) p [] start s =
      if s.caps.out.toNat < s.outLen.toNat + s.symLen.toNat then raise .capacity start s
      else tableDecode rest (p + e.code.length) [] (p + e.code.length) (s.emit e.sym) := by
  obtain ⟨bits, b, hbits⟩ := (List.eq_nil_or_concat e.code).resolve_left hne
  rw [List.concat_eq_append] at hbits
  have h1 := tableDecode_accumulate bits (chr b :: rest) p [] start s (fun q hq hqb => by
    rw [List.nil_append]
    refine hmin q hq (hbits ▸ hqb.trans (List.prefix_append _ _)) ?_
    rintro rfl
    have := hqb.length_le
    rw [hbits, List.length_append] at this
    simp at this)
  obtain ⟨r, hr⟩ := List.mem_iff_getElem?.1 he
  have h2 : ctReverse (bits ++ [b]) s.ct = some (r, e) := (ctReverse_eq_some hc).2 ⟨hr, hbits⟩
  rw [hbits, codeChars_append, List.append_assoc]
  refine h1.trans ?_
  rw [tableDecode]
  simp only [bitOf_chr, List.nil_append, h2, List.length_append, List.length_singleton, Nat.add_assoc]

/-- Whole first matches are consumed one after the other and their symbols emitted, while they fit. -/
theorem tableDecode_codes {ct : List CtEntry} {syms : List Symbol} {codes : List Code} (h : CodesOf ct syms codes)
    (hm : ∀ d ∈ codes, MatchedFirst ct d) (rest : List Byte) (p : Nat) (s : State) (hs : s.ct = ct)
    (hn : (ct.map CtEntry.code).Nodup) (hl : ∀ e ∈ ct, e.sym.length = s.symLen.toNat)
    (hb : s.outLen.toNat + syms.length * s.symLen.toNat ≤ s.caps.out.toNat) :
    tableDecode (codeChars codes.flatten ++ rest) p [] p s =
      tableDecode rest (p + codes.flatten.length) [] (p + codes.flatten.length) (s.emit syms.flatten) ∧
    syms.flatten.length = syms.length * s.symLen.toNat := by
  induction h generalizing p s with
  | nil => simp [State.emit_nil, codeChars]
  | @cons k c ks cs hkc _ ih =>
    have hk : k.length = s.symLen.toNat := hl _ hkc
    rw [List.length_cons, Nat.add_mul, Nat.one_mul] at hb ⊢
    have hw : s.outLen.toNat + k.length < 2 ^ 32 := by have := s.caps.out.isLt; omega
    have hol : (s.emit k).outLen.toNat = s.outLen.toNat + k.length := word_toNat hw
    have e : (s.emit k).ct = s.ct ∧ (s.emit k).symLen = s.symLen ∧ (s.emit k).caps = s.caps := by
      rw [State.emit_eq]; exact ⟨rfl, rfl, rfl⟩
    have h1 := tableDecode_code (s := s) (hs ▸ hn) (hs ▸ hkc) (hm c (by simp)).1
      (fun q hq hp hne hmem => hne ((hm c (by simp)).2 q (hs ▸ hmem) hq hp)) (codeChars cs.flatten ++ rest) p p
    obtain ⟨h2, h3⟩ := ih (fun d hd => hm d (by simp [hd])) (p + c.length) (s.emit k) (e.1.trans hs)
      (by rw [e.2.1]; exact hl) (by rw [hol, e.2.1, e.2.2]; omega)
    rw [e.2.1] at h3
    refine ⟨?_, by rw [List.flatten_cons, List.length_append, h3, hk]; omega⟩
    rw [List.flatten_cons, codeChars_append, List.append_assoc, h1, if_neg (by omega), h2, State.emit_append hw,
      List.flatten_cons, List.length_append, Nat.add_assoc]

/-! ## What the loops leave alone, in every state -/

theorem encodeSymbols_frame (len : Nat) (syms : List Symbol) (pos : Nat) (s : State) :
    ∃ (t : State) (o : Option (Completion × Nat)), encodeSymbols len syms pos s = (t, o) ∧
      t = { s with bit := t.bit, bitLen := t.bitLen } ∧
      (o = none ∨ ∃ p, o = some (.noSymbol, p) ∨ o = some (.capacity, p)) ∧ (syms = [] → o = none) := by
  induction syms generalizing pos s with
  | nil => exact ⟨s, none, rfl, rfl, .inl rfl, fun _ => rfl⟩
  | cons k ks ih =>
    unfold encodeSymbols
    cases ctForward k s.ct with
    | none => exact ⟨s, _, rfl, rfl, .inr ⟨pos, .inl rfl⟩, by simp⟩
    | some re =>
      obtain ⟨r, e⟩ := re
      dsimp only
      split
      · exact ⟨s, _, rfl, rfl, .inr ⟨pos, .inr rfl⟩, by simp⟩
      · obtain ⟨t, o, h1, h2, h3, -⟩ := ih (pos + len) (s.appendBits e.code)
        refine ⟨t, o, h1, ?_, h3, by simp⟩
        rw [h2, State.appendBits_eq]

theorem treeDecode_frame (root : Nat) (cs : List Byte) (p cur start : Nat) (s : State) :
    ∃ (u : State) (c : Completion) (q : Nat), treeDecode root cs p cur start s = .next (u.ended c q) ∧
      u = { s with out := u.out, outLen := u.outLen } ∧
      (c = .ok ∧ q = 0 ∨ c = .incomplete ∨ c = .badChar ∨ c = .capacity) := by
  induction cs generalizing p cur start s with
  | nil =>
    unfold treeDecode
    split
    · exact ⟨s, _, _, rfl, rfl, by simp⟩
    · exact ⟨s, _, _, rfl, rfl, by simp⟩
  | cons c cs ih =>
    unfold treeDecode
    split
    · exact ⟨s, _, _, rfl, rfl, by simp⟩
    · split
      · exact ⟨s, _, _, rfl, rfl, by simp⟩
      · split
        · exact ⟨s, _, _, rfl, rfl, by simp⟩
        · exact ih _ _ _ _
        · split
          · exact ⟨s, _, _, rfl, rfl, by simp⟩
          · obtain ⟨u, c, q, h1, h2, h3⟩ := ih (p + 1) root (p + 1) (s.emit [_])
            exact ⟨u, c, q, h1, by rw [h2, State.emit_eq], h3⟩

theorem tableDecode_frame (cs : List Byte) (p : Nat) (acc : Code) (start : Nat) (s : State) :
    ∃ (u : State) (c : Completion) (q : Nat), tableDecode cs p acc start s = .next (u.ended c q) ∧
      u = { s with out := u.out, outLen := u.outLen } ∧
      (c = .ok ∧ q = 0 ∨ c = .incomplete ∨ c = .badChar ∨ c = .capacity) := by
  induction cs generalizing p acc start s with
  | nil =>
    unfold tableDecode
    split
    · exact ⟨s, _, _, rfl, rfl, by simp⟩
    · exact ⟨s, _, _, rfl, rfl, by simp⟩
  | cons c cs ih =>
    unfold tableDecode
    split
    · exact ⟨s, _, _, rfl, rfl, by simp⟩
    · split
      · exact ih _ _ _ _
      · split
        · exact ⟨s, _, _, rfl, rfl, by simp⟩
        · obtain ⟨u, c, q, h1, h2, h3⟩ := ih (p + 1) [] (p + 1) (s.emit _)
          exact ⟨u, c, q, h1, by rw [h2, State.emit_eq], h3⟩

theorem mergeStep_frame {s t : State} (h : mergeStep s = some t) :
    t = { s with nodes := t.nodes, queue := t.queue, root := t.root, tree := t.tree } := by
  unfold mergeStep at h
  split at h
  · cases h
  · split at h
    · cases h
    · cases h; rfl

theorem mergeWhileBuilding_frame (n : Nat) (s : State) :
    ∃ t, mergeWhileBuilding n s = t ∧
      t = { s with nodes := t.nodes, queue := t.queue, root := t.root, tree := t.tree } := by
  induction n generalizing s with
  | zero => exact ⟨s, rfl, rfl⟩
  | succ n ih =>
    unfold mergeWhileBuilding
    split
    · exact ⟨s, rfl, rfl⟩
    · split
      · exact ⟨s, rfl, rfl⟩
      · rename_i t ht
        obtain ⟨u, h1, h2⟩ := ih t
        exact ⟨u, h1, by rw [h2, mergeStep_frame ht]⟩

end Sys2Proof.Machine
end

