-- ==== Sys2Proof/Laws/PerInstr.lean ====
section
/-! SUPPORT. Statements made of every command as syntax, one lemma per constructor of Instr. -/

namespace Sys2Proof.Laws.EncodedOpcode

open Sys2Proof

set_option autoImplicit false

/-- Bits 7:0 of the command's word are its opcode of rule R104, and a word of format N has bits 31:8 zero (R100, R101). -/
def Statement (i : Instr) : Prop :=
  (encode i).toNat % 256 = i.opcode.toNat ∧
  ((∀ imm, i ≠ .ftGet imm ∧ i ≠ .ndGet imm ∧ i ≠ .pqGet imm ∧ i ≠ .slGet imm ∧ i ≠ .ctGet imm) →
    (encode i).toNat < 256)

theorem opcode_of (i : Instr) : (encode i).toNat % 256 = i.opcode.toNat := by
  rw [← opcodeField_toNat, opcodeField_encode]

/-- A word whose operand field is zero is below 256. -/
theorem lt_of_operand_zero (i : Instr) (h : i.operand = 0#24) : (encode i).toNat < 256 := by
  have h1 := operandField_toNat (encode i)
  rw [operandField_encode, h] at h1
  have h2 : (0#24).toNat = 0 := rfl
  omega

theorem nop : Statement .nop := ⟨opcode_of _, fun _ => lt_of_operand_zero _ rfl⟩
theorem clear : Statement .clear := ⟨opcode_of _, fun _ => lt_of_operand_zero _ rfl⟩
theorem fcount : Statement .fcount := ⟨opcode_of _, fun _ => lt_of_operand_zero _ rfl⟩
theorem seglen : Statement .seglen := ⟨opcode_of _, fun _ => lt_of_operand_zero _ rfl⟩
theorem segment : Statement .segment := ⟨opcode_of _, fun _ => lt_of_operand_zero _ rfl⟩
theorem ftGet (imm : Nat) : Statement (.ftGet imm) := ⟨opcode_of _, fun h => absurd rfl (h imm).1⟩
theorem hinit : Statement .hinit := ⟨opcode_of _, fun _ => lt_of_operand_zero _ rfl⟩
theorem hstep : Statement .hstep := ⟨opcode_of _, fun _ => lt_of_operand_zero _ rfl⟩
theorem hbuild : Statement .hbuild := ⟨opcode_of _, fun _ => lt_of_operand_zero _ rfl⟩
theorem hcodes : Statement .hcodes := ⟨opcode_of _, fun _ => lt_of_operand_zero _ rfl⟩
theorem ndGet (imm : Nat) : Statement (.ndGet imm) := ⟨opcode_of _, fun h => absurd rfl (h imm).2.1⟩
theorem pqGet (imm : Nat) : Statement (.pqGet imm) := ⟨opcode_of _, fun h => absurd rfl (h imm).2.2.1⟩
theorem sfsort : Statement .sfsort := ⟨opcode_of _, fun _ => lt_of_operand_zero _ rfl⟩
theorem sfpart : Statement .sfpart := ⟨opcode_of _, fun _ => lt_of_operand_zero _ rfl⟩
theorem sfbuild : Statement .sfbuild := ⟨opcode_of _, fun _ => lt_of_operand_zero _ rfl⟩
theorem slGet (imm : Nat) : Statement (.slGet imm) := ⟨opcode_of _, fun h => absurd rfl (h imm).2.2.2.1⟩
theorem ctClear : Statement .ctClear := ⟨opcode_of _, fun _ => lt_of_operand_zero _ rfl⟩
theorem ctAdd : Statement .ctAdd := ⟨opcode_of _, fun _ => lt_of_operand_zero _ rfl⟩
theorem ctGet (imm : Nat) : Statement (.ctGet imm) := ⟨opcode_of _, fun h => absurd rfl (h imm).2.2.2.2⟩
theorem ctFwd : Statement .ctFwd := ⟨opcode_of _, fun _ => lt_of_operand_zero _ rfl⟩
theorem ctRev : Statement .ctRev := ⟨opcode_of _, fun _ => lt_of_operand_zero _ rfl⟩
theorem encode : Statement .encode := ⟨opcode_of _, fun _ => lt_of_operand_zero _ rfl⟩
theorem tdecode : Statement .tdecode := ⟨opcode_of _, fun _ => lt_of_operand_zero _ rfl⟩
theorem rdecode : Statement .rdecode := ⟨opcode_of _, fun _ => lt_of_operand_zero _ rfl⟩

end Sys2Proof.Laws.EncodedOpcode
end

