-- ==== Sys2Proof/Laws/Step.lean ====
section
/-! SUPPORT. What a step runs, and the spaces' ids. -/

namespace Sys2Proof.Machine

open Sys2Proof

set_option autoImplicit false

/-- With a transaction pending, a step performs it on the state without it. -/
theorem step_cons {s : State} {tr : Transaction} {rest : List Transaction} (h : s.pending = tr :: rest) :
    step s = perform tr { s with pending := rest } := by
  simp only [step, State.nextTransaction, h]

/-- With nothing pending the block stays as it is. -/
theorem step_nil {s : State} (h : s.pending = []) : step s = .next s := by
  simp only [step, State.nextTransaction, h]

/-- The word of a command runs the command. -/
theorem runCommand_command {w : Word} {i : Instr} (h : decode w = .command i) (s : State) : runCommand w s = exec i s := by
  simp only [runCommand, h]

/-- An illegal word ends with ILLEGAL. -/
theorem runCommand_illegal {w : Word} {why : IllegalWord} (h : decode w = .illegal why) (s : State) :
    runCommand w s = takeIllegal s := by
  simp only [runCommand, h]

/-- A space's id names it, and no other id does. -/
theorem spaceOfId_eq_some {id : BitVec 8} {sp : Space} : spaceOfId id = some sp ↔ id = spaceId sp := by
  cases sp <;> revert id <;> decide

/-- The ids from 5 on name no space. -/
theorem spaceOfId_eq_none {id : BitVec 8} : spaceOfId id = none ↔ 5 ≤ id.toNat := by
  revert id
  decide

/-- A stored element reads back, and every other element is as before. -/
theorem State.element_store (sp sp' : Space) (i j : Nat) (v : Byte) (s : State) :
    (s.store sp i v).element sp' j = if sp' = sp ∧ j = i then v else s.element sp' j := by
  refine (State.element_storeAll [v] sp sp' i j s).trans ?_
  by_cases h : sp' = sp ∧ j = i
  · obtain ⟨h1, h2⟩ := h
    subst h1 h2
    simp
  · rw [if_neg h, if_neg]
    rintro ⟨h1, h2, h3⟩
    rw [List.length_singleton] at h3
    exact h ⟨h1, by omega⟩

end Sys2Proof.Machine
end

