-- ==== Sys2Proof/Tests/Slice0.lean ====
section
/-! SUPPORT. The model's own tests: the well-formedness smoke, words written out from the opcode map, one-step tests whose
expected values are those of 95_test_vectors.md (named V-…), and for every obligation that has hypotheses a witness: a
concrete state and operands that meet them together. -/

namespace Sys2Proof.Tests

open Sys2Proof Sys2Proof.Machine

set_option autoImplicit false

/-! ## Well-formedness: each check refuses an ill-formed term -/

theorem test_wellFormed_ftGet : (Instr.ftGet 16777216).wellFormed = false := by decide
theorem test_wellFormed_ndGet : (Instr.ndGet 16777216).wellFormed = false := by decide
theorem test_wellFormed_pqGet : (Instr.pqGet 16777216).wellFormed = false := by decide
theorem test_wellFormed_slGet : (Instr.slGet 16777216).wellFormed = false := by decide
theorem test_wellFormed_ctGet : (Instr.ctGet 16777216).wellFormed = false := by decide
theorem test_wellFormed_bound : (Instr.ctGet 16777215).wellFormed = true := by decide

/-! ## Decoding: the words of 30_encoding.md R104 (format N: bits 31:8 zero; format I: imm << 8) -/

theorem test_decode_control :
    decode 0x00000000#32 = .command .nop ∧ decode 0x00000001#32 = .command .clear := by decide

theorem test_decode_front_end :
    decode 0x00000010#32 = .command .fcount ∧ decode 0x00000011#32 = .command .seglen ∧
    decode 0x00000012#32 = .command .segment ∧ decode 0xFFFFFF13#32 = .command (.ftGet 16777215) ∧
    decode 0x00000213#32 = .command (.ftGet 2) := by decide

theorem test_decode_huffman :
    decode 0x00000020#32 = .command .hinit ∧ decode 0x00000021#32 = .command .hstep ∧
    decode 0x00000022#32 = .command .hbuild ∧ decode 0x00000023#32 = .command .hcodes ∧
    decode 0x00000424#32 = .command (.ndGet 4) ∧ decode 0x00000125#32 = .command (.pqGet 1) := by decide

theorem test_decode_shannon_fano :
    decode 0x00000030#32 = .command .sfsort ∧ decode 0x00000031#32 = .command .sfpart ∧
    decode 0x00000032#32 = .command .sfbuild ∧ decode 0x00000233#32 = .command (.slGet 2) := by decide

theorem test_decode_code_table :
    decode 0x00000040#32 = .command .ctClear ∧ decode 0x00000041#32 = .command .ctAdd ∧
    decode 0x00000142#32 = .command (.ctGet 1) ∧ decode 0x00000043#32 = .command .ctFwd ∧
    decode 0x00000044#32 = .command .ctRev ∧ decode 0x00000045#32 = .command .encode := by decide

theorem test_decode_decoders :
    decode 0x00000050#32 = .command .tdecode ∧ decode 0x00000051#32 = .command .rdecode := by decide

/-- One word bit by bit: ND_GET 4 is 0000 0000 0000 0000 0000 0100 0010 0100. -/
theorem test_decode_bits : decode 0b00000000000000000000010000100100#32 = .command (.ndGet 4) := by decide

/-- V-E3 to V-E9: reserved opcodes. -/
theorem test_decode_reserved :
    decode 0x00000002#32 = .illegal .reservedOpcode ∧ decode 0x0000000F#32 = .illegal .reservedOpcode ∧
    decode 0x00000014#32 = .illegal .reservedOpcode ∧ decode 0x00000026#32 = .illegal .reservedOpcode ∧
    decode 0x00000052#32 = .illegal .reservedOpcode ∧ decode 0x000000FF#32 = .illegal .reservedOpcode ∧
    decode 0xFFFFFFFF#32 = .illegal .reservedOpcode := by decide

/-- V-E10 to V-E13: a format N opcode with an operand bit set. -/
theorem test_decode_formatN :
    decode 0x00000110#32 = .illegal .operandOfFormatN ∧ decode 0x00000100#32 = .illegal .operandOfFormatN ∧
    decode 0x00010045#32 = .illegal .operandOfFormatN ∧ decode 0x80000001#32 = .illegal .operandOfFormatN := by decide

theorem test_decodeTableWord :
    decodeTableWord 32 0x00000424 = some (.ndGet 4) ∧ decodeTableWord 8 0x51 = some .rdecode ∧
    decodeTableWord 32 0x00000002 = none := by decide

theorem test_encoder : encode (.ndGet 4) = 0x00000424#32 ∧ encode .rdecode = 0x00000051#32 := by decide

/-! ## Small states -/

/-- Characters stored from index `k` on. -/
def chars (k : Nat) : List Byte → Memory
  | [] => []
  | c :: cs => (k, c) :: chars (k + 1) cs

/-- The state a command leaves. -/
def after (i : Instr) (s : State) : State :=
  match exec i s with
  | .next t => t
  | .fault _ => s
  | .refused _ => s

/-- The state a step leaves when the host's next transaction is `tr`. -/
def afterStep (tr : Transaction) (s : State) : State :=
  match step { s with pending := [tr] } with
  | .next t => t
  | .fault _ => s
  | .refused _ => s

/-- "aabbbcc" -/
def aabbbcc : List Byte := [0x61#8, 0x61#8, 0x62#8, 0x62#8, 0x62#8, 0x63#8, 0x63#8]

/-- "10100001111", the encoding of "aabbbcc" (V-H1). -/
def bits11 : List Byte :=
  [0x31#8, 0x30#8, 0x31#8, 0x30#8, 0x30#8, 0x30#8, 0x30#8, 0x31#8, 0x31#8, 0x31#8, 0x31#8]

/-- The frequency table of "aabbbcc" (V-F1). -/
def ft3 : List FtEntry := [⟨[0x61#8], 2⟩, ⟨[0x62#8], 3⟩, ⟨[0x63#8], 2⟩]

/-- The code table of "aabbbcc" (V-H1): a=10 b=0 c=11. -/
def ct3 : List CtEntry := [⟨[0x61#8], [true, false]⟩, ⟨[0x62#8], [false]⟩, ⟨[0x63#8], [true, true]⟩]

/-- The leaves HINIT makes of `ft3` (V-H23). -/
def leaves3 : List Node := [.leaf 2 0x61#8, .leaf 3 0x62#8, .leaf 2 0x63#8]

/-- The text "aabbbcc". -/
def sText : State := { State.reset with txt := chars 0 aabbbcc, txtLen := 7#32 }

/-- With its frequency table, sorted list, code table and encoding; symbol 'c' and code "11" staged; no tree. -/
def sTable : State :=
  { sText with
    ft := ft3, sl := some [1, 0, 2], ct := ct3, bit := chars 0 bits11, bitLen := 11#32,
    kSym := [(0, 0x63#8)], kCode := [(0, 0x31#8), (1, 0x31#8)], kClen := 2#32 }

/-- After HINIT: three members in the queue. -/
def sBuild : State := { sTable with nodes := leaves3, queue := [0, 1, 2], tree := .building }

/-- After one merge: two members in the queue. -/
def sBuild2 : State :=
  { sTable with nodes := leaves3 ++ [.internal 4 0 2], queue := [1, 3], tree := .building }

/-- The finished tree (V-H1). -/
def sTree : State :=
  { sTable with
    nodes := leaves3 ++ [.internal 4 0 2, .internal 7 1 3], queue := [4], root := 4#32, tree := .valid }

/-- The text "aaaa" with its one-leaf tree, table and encoding (V-H9). -/
def sOne : State :=
  { State.reset with
    txt := chars 0 [0x61#8, 0x61#8, 0x61#8, 0x61#8], txtLen := 4#32, ft := [⟨[0x61#8], 4⟩], sl := some [0],
    nodes := [.leaf 4 0x61#8], queue := [0], root := 0#32, tree := .valid, ct := [⟨[0x61#8], [false]⟩],
    bit := chars 0 [0x30#8, 0x30#8, 0x31#8, 0x78#8], bitLen := 4#32 }

/-- A build on the empty table. -/
def sEmpty : State := { State.reset with tree := .empty }

/-- Two-character symbols: "aabbbcc" is no whole number of them. -/
def sTwo : State := { sText with symLen := 2#32 }

/-- The host-loaded table x=01 with "y" staged (V-T1 onwards). -/
def sX : State :=
  { State.reset with
    ct := [⟨[0x78#8], [false, true]⟩], kSym := [(0, 0x79#8)], kCode := [(0, 0x31#8), (1, 0x61#8)], kClen := 1#32,
    bit := chars 0 [0x30#8, 0x31#8, 0x30#8], bitLen := 3#32 }

/-! ## The invariant holds of them -/

theorem caps_default : CapacitiesLegal Config.defaultCapacities :=
  ⟨by decide, by decide, by decide, by decide, by decide⟩

/-- A state with the default capacities and no tree meets the invariant when its parts do. -/
theorem invariant_of (s : State) (hc : s.caps = Config.defaultCapacities) (hl : LengthsLegal s) (hm : MemoriesCanonical s)
    (hi : MemoriesInside s) (hf : FtInvariant s) (hs : SlInvariant s) (ht : CtInvariant s) (hn : TreeInvariant s) :
    Invariant s :=
  ⟨hc ▸ caps_default, hl, hm, hi, hf, hs, ht, hn⟩

theorem tree_none (s : State) (h : s.tree = .none) (hn : s.nodes = []) (hq : s.queue = []) (hr : s.root = NIL) :
    TreeInvariant s :=
  ⟨fun _ => ⟨hn, hq, hr⟩, fun hc => absurd h hc, fun hc => by simp [h] at hc, fun hc => by simp [h] at hc,
    fun hc => by simp [h] at hc⟩

theorem forest3 : Forest 3 leaves3 [0, 1, 2] := startTree_forest (ft := ft3) (by decide) (by unfold SymbolsAscend; decide) (by decide) (by decide)

theorem forest4 : Forest 3 sBuild2.nodes [1, 3] := forest3.merge (a := 0) (b := 2) (by decide) (by decide) (by decide)

theorem forest5 : Forest 3 sTree.nodes [4] := forest4.merge (a := 1) (b := 3) (by decide) (by decide) (by decide)

theorem forest1 : Forest 1 [.leaf 4 0x61#8] [0] :=
  startTree_forest (ft := [⟨[0x61#8], 4⟩]) (by decide) (by unfold SymbolsAscend; decide) (by decide) (by decide)

theorem inv_reset : Invariant State.reset := by
  refine invariant_of _ rfl ⟨by decide, by decide, by decide, by decide, by decide, by decide⟩ ?_ ?_
    ⟨by unfold SymbolsAscend; decide, by decide, by decide, by decide, by decide⟩ ?_
    ⟨by unfold SymbolsAscend; decide, by decide, by decide, by decide, by decide⟩ (tree_none _ rfl rfl rfl rfl)
  · intro sp; cases sp <;> decide
  · intro sp; cases sp <;> decide
  · intro l h; cases h

theorem inv_text : Invariant sText := by
  refine invariant_of _ rfl ⟨by decide, by decide, by decide, by decide, by decide, by decide⟩ ?_ ?_
    ⟨by unfold SymbolsAscend; decide, by decide, by decide, by decide, by decide⟩ ?_
    ⟨by unfold SymbolsAscend; decide, by decide, by decide, by decide, by decide⟩ (tree_none _ rfl rfl rfl rfl)
  · intro sp; cases sp <;> decide
  · intro sp; cases sp <;> decide
  · intro l h; cases h

theorem inv_two : Invariant sTwo := by
  refine invariant_of _ rfl ⟨by decide, by decide, by decide, by decide, by decide, by decide⟩ ?_ ?_
    ⟨by unfold SymbolsAscend; decide, by decide, by decide, by decide, by decide⟩ ?_
    ⟨by unfold SymbolsAscend; decide, by decide, by decide, by decide, by decide⟩ (tree_none _ rfl rfl rfl rfl)
  · intro sp; cases sp <;> decide
  · intro sp; cases sp <;> decide
  · intro l h; cases h

theorem inv_x : Invariant sX := by
  refine invariant_of _ rfl ⟨by decide, by decide, by decide, by decide, by decide, by decide⟩ ?_ ?_
    ⟨by unfold SymbolsAscend; decide, by decide, by decide, by decide, by decide⟩ ?_
    ⟨by unfold SymbolsAscend; decide, by decide, by decide, by decide, by decide⟩ (tree_none _ rfl rfl rfl rfl)
  · intro sp; cases sp <;> decide
  · intro sp; cases sp <;> decide
  · intro l h; cases h

theorem inv_empty : Invariant sEmpty := by
  refine invariant_of _ rfl ⟨by decide, by decide, by decide, by decide, by decide, by decide⟩ ?_ ?_
    ⟨by unfold SymbolsAscend; decide, by decide, by decide, by decide, by decide⟩ ?_
    ⟨by unfold SymbolsAscend; decide, by decide, by decide, by decide, by decide⟩
    ⟨fun _ => ⟨rfl, rfl, rfl⟩, fun _ => rfl, fun h => by simp [sEmpty] at h, by decide, by decide⟩
  · intro sp; cases sp <;> decide
  · intro sp; cases sp <;> decide
  · intro l h; cases h

theorem inv_table : Invariant sTable := by
  refine invariant_of _ rfl ⟨by decide, by decide, by decide, by decide, by decide, by decide⟩ ?_ ?_
    ⟨by unfold SymbolsAscend; decide, by decide, by decide, by decide, by decide⟩ ?_
    ⟨by unfold SymbolsAscend; decide, by decide, by decide, by decide, by decide⟩ (tree_none _ rfl rfl rfl rfl)
  · intro sp; cases sp <;> decide
  · intro sp; cases sp <;> decide
  · intro l h; cases h; decide

/-- The table's state with any tree that is a legal one. -/
theorem inv_with_tree (nodes : List Node) (queue : List Nat) (root : Word) (tree : TreeState)
    (h : TreeInvariant { sTable with nodes := nodes, queue := queue, root := root, tree := tree }) :
    Invariant { sTable with nodes := nodes, queue := queue, root := root, tree := tree } := by
  have i := inv_table
  refine ⟨i.caps, ⟨i.lengths.1, i.lengths.2, i.lengths.3, i.lengths.4, i.lengths.5, i.lengths.6⟩, ?_, ?_,
    ⟨i.ft.1, i.ft.2, i.ft.3, i.ft.4, i.ft.5⟩, i.sl, ⟨i.ct.1, i.ct.2, i.ct.3, i.ct.4, i.ct.5⟩, h⟩
  · intro sp; cases sp <;> first
      | exact i.canonical .txt
      | exact i.canonical .bit
      | exact i.canonical .out
      | exact i.canonical .kSym
      | exact i.canonical .kCode
  · intro sp; cases sp <;> first
      | exact i.inside .txt
      | exact i.inside .bit
      | exact i.inside .out
      | exact i.inside .kSym
      | exact i.inside .kCode

theorem inv_build : Invariant sBuild :=
  inv_with_tree leaves3 [0, 1, 2] NIL .building
    ⟨by decide, fun _ => rfl, fun _ => ⟨3, forest3⟩, by decide, by decide⟩

theorem inv_build2 : Invariant sBuild2 :=
  inv_with_tree _ [1, 3] NIL .building ⟨by decide, fun _ => rfl, fun _ => ⟨3, forest4⟩, by decide, by decide⟩

theorem inv_tree : Invariant sTree :=
  inv_with_tree _ [4] 4#32 .valid ⟨by decide, fun _ => rfl, fun _ => ⟨3, forest5⟩, by decide, by decide⟩

theorem inv_one : Invariant sOne := by
  refine invariant_of _ rfl ⟨by decide, by decide, by decide, by decide, by decide, by decide⟩ ?_ ?_
    ⟨by unfold SymbolsAscend; decide, by decide, by decide, by decide, by decide⟩ ?_
    ⟨by unfold SymbolsAscend; decide, by decide, by decide, by decide, by decide⟩
    ⟨by decide, fun _ => rfl, fun _ => ⟨1, forest1⟩, by decide, by decide⟩
  · intro sp; cases sp <;> decide
  · intro sp; cases sp <;> decide
  · intro l h; cases h; decide

/-! ## One step each, expected values of 95_test_vectors.md -/

/-- V-C1: NOP overwrites CODE and leaves ERR set. -/
theorem test_nop : (after .nop { sX with code := .incomplete, err := true }).statusWord = 0x10#32 := by decide

/-- V-C2: CLEAR resets the registers and keeps the elements. -/
theorem test_clear :
    (after .clear { sTree with err := true, code := .incomplete }).statusWord = 0#32 ∧
    (after .clear sTree).root = 0xFFFFFFFF#32 ∧ (after .clear sTree).element .txt 0 = 0x61#8 ∧
    (after .clear sTree).ct = [] := by decide

/-- V-F1. -/
theorem test_fcount : (after .fcount sText).ft = ft3 ∧ (after .fcount sText).statusWord = 0#32 := by decide

/-- V-F7. -/
theorem test_fcount_badSeq : (after .fcount sTwo).statusWord = 0x16#32 ∧ (after .fcount sTwo).ft = [] := by decide

set_option maxRecDepth 20000 in
/-- V-L1. -/
theorem test_seglen : (after .seglen sText).blkLen = 2#32 := by decide

/-- V-L13. -/
theorem test_seglen_empty :
    (after .seglen { State.reset with blkLen := 9#32 }).blkLen = 1#32 ∧
    (after .seglen State.reset).statusWord = 1#32 := by decide

/-- V-S1. -/
theorem test_segment :
    (after .segment { sTable with blkLen := 2#32 }).text = aabbbcc ++ [0x20#8] ∧
    (after .segment { sTable with blkLen := 2#32 }).symLen = 2#32 ∧
    (after .segment { sTable with blkLen := 2#32 }).ct = [] := by decide

/-- V-S9. -/
theorem test_segment_badOperand : (after .segment { sText with blkLen := 0#32 }).statusWord = 0x17#32 := by decide

/-- V-F11. -/
theorem test_ftGet : (after (.ftGet 1) sTable).kCnt = 3#32 ∧ (after (.ftGet 1) sTable).element .kSym 0 = 0x62#8 := by
  decide

/-- V-F12. -/
theorem test_ftGet_badOperand :
    (after (.ftGet 3) sTable).code = .badOperand ∧ (after (.ftGet 3) sTable).element .kSym 0 = 0x63#8 := by decide

/-- V-H23. -/
theorem test_hinit :
    (after .hinit sTree).nodes = leaves3 ∧ (after .hinit sTree).queue = [0, 1, 2] ∧
    (after .hinit sTree).root = 0xFFFFFFFF#32 ∧ (after .hinit sTree).tree = .building := by decide

/-- V-H13. -/
theorem test_hinit_empty : (after .hinit State.reset).statusWord = 0x41#32 := by decide

/-- The first merge of V-H1. -/
theorem test_hstep_first :
    (after .hstep sBuild).nodes = sBuild2.nodes ∧ (after .hstep sBuild).queue = [1, 3] ∧
    (after .hstep sBuild).tree = .building := by decide

/-- The last merge of V-H1. -/
theorem test_hstep_last :
    (after .hstep sBuild2).nodes = sTree.nodes ∧ (after .hstep sBuild2).root = 4#32 ∧
    (after .hstep sBuild2).tree = .valid := by decide

/-- V-H1. -/
theorem test_hbuild :
    (after .hbuild sTable).nodes = sTree.nodes ∧ (after .hbuild sTable).root = 4#32 ∧
    (after .hbuild sTable).queue = [4] := by decide

/-- V-H5: ND[5] = (I, 2, 2, 3), ND[6] = (I, 4, 1, 4), ND[7] = (I, 6, 5, 6), ND[8] = (I, 11, 0, 7). -/
theorem test_hbuild_ties :
    (after .hbuild { State.reset with
      ft := [⟨[0x61#8], 5⟩, ⟨[0x62#8], 2⟩, ⟨[0x63#8], 1⟩, ⟨[0x64#8], 1⟩, ⟨[0x72#8], 2⟩] }).nodes.drop 5 =
    [.internal 2 2 3, .internal 4 1 4, .internal 6 5 6, .internal 11 0 7] := by decide

/-- V-H1. -/
theorem test_hcodes : (after .hcodes { sTree with ct := [] }).ct = ct3 := by decide

/-- V-H9: the one-leaf tree has the code "0". -/
theorem test_hcodes_one : (after .hcodes { sOne with ct := [] }).ct = [⟨[0x61#8], [false]⟩] := by decide

/-- V-H19. -/
theorem test_ndGet_internal :
    (after (.ndGet 4) sTree).nTag = 1#32 ∧ (after (.ndGet 4) sTree).nFreq = 7#32 ∧
    (after (.ndGet 4) sTree).nSym = 0#32 ∧ (after (.ndGet 4) sTree).nLeft = 1#32 ∧
    (after (.ndGet 4) sTree).nRight = 3#32 := by decide

/-- V-H20. -/
theorem test_ndGet_leaf :
    (after (.ndGet 1) sTree).nTag = 0#32 ∧ (after (.ndGet 1) sTree).nFreq = 3#32 ∧
    (after (.ndGet 1) sTree).nSym = 0x62#32 ∧ (after (.ndGet 1) sTree).nLeft = 0xFFFFFFFF#32 := by decide

/-- V-H25. -/
theorem test_pqGet :
    (after (.pqGet 0) sBuild).kIdx = 0#32 ∧ (after (.pqGet 1) sBuild).kIdx = 2#32 ∧
    (after (.pqGet 2) sBuild).kIdx = 1#32 := by decide

/-- V-H22. -/
theorem test_pqGet_badOperand :
    (after (.pqGet 0) sTree).kIdx = 4#32 ∧ (after (.pqGet 1) sTree).code = .badOperand := by decide

/-- V-SF3. -/
theorem test_sfsort : (after .sfsort { sTable with sl := none }).sl = some [1, 0, 2] := by decide

/-- V-SF23. -/
theorem test_sfsort_empty : (after .sfsort State.reset).statusWord = 0x101#32 := by decide

/-- V-SF3. -/
theorem test_sfpart : (after .sfpart { sTable with ct := [] }).ct = ct3 := by decide

/-- V-SF16. -/
theorem test_sfpart_badSeq : (after .sfpart { sTable with sl := none }).statusWord = 0x16#32 := by decide

/-- V-SF1: a=0 b=10 c=1110 d=1111 r=110. -/
theorem test_sfbuild :
    (after .sfbuild { State.reset with
      ft := [⟨[0x61#8], 5⟩, ⟨[0x62#8], 2⟩, ⟨[0x63#8], 1⟩, ⟨[0x64#8], 1⟩, ⟨[0x72#8], 2⟩] }).ct =
    [⟨[0x61#8], [false]⟩, ⟨[0x62#8], [true, false]⟩, ⟨[0x63#8], [true, true, true, false]⟩,
      ⟨[0x64#8], [true, true, true, true]⟩, ⟨[0x72#8], [true, true, false]⟩] := by decide

/-- V-SF8. -/
theorem test_sfbuild_one :
    (after .sfbuild { sOne with ct := [], sl := none }).ct = [⟨[0x61#8], [false]⟩] ∧
    (after .sfbuild { sOne with ct := [], sl := none }).sl = some [0] := by decide

/-- V-SF20 on the list of V-SF3. -/
theorem test_slGet : (after (.slGet 0) sTable).kIdx = 1#32 := by decide

/-- V-E18. -/
theorem test_slGet_badSeq : (after (.slGet 2) State.reset).statusWord = 0x16#32 := by decide

/-- V-T19. -/
theorem test_ctClear : (after .ctClear sTable).ct = [] ∧ (after .ctClear sTable).ft = ft3 := by decide

/-- V-T9 on the table x=01. -/
theorem test_ctAdd :
    (after .ctAdd { sX with kSym := [(0, 0x61#8)] }).ct = [⟨[0x61#8], [true]⟩, ⟨[0x78#8], [false, true]⟩] := by decide

/-- V-T6: the character check comes first. -/
theorem test_ctAdd_badChar :
    (after .ctAdd { sX with kSym := [(0, 0x78#8)], kClen := 2#32 }).statusWord = 0x13#32 ∧
    (after .ctAdd { sX with kSym := [(0, 0x78#8)], kClen := 2#32 }).errPos = 1#32 := by decide

/-- V-T10 on the table of V-H1. -/
theorem test_ctGet :
    (after (.ctGet 0) sTable).element .kSym 0 = 0x61#8 ∧ (after (.ctGet 0) sTable).kClen = 2#32 ∧
    (after (.ctGet 0) sTable).stagedCodeChars = [0x31#8, 0x30#8] := by decide

/-- V-T12. -/
theorem test_ctGet_badOperand : (after (.ctGet 3) sTable).code = .badOperand := by decide

/-- V-T21. -/
theorem test_ctFwd :
    (after .ctFwd { sTable with kCode := [], kClen := 0#32 }).stagedCodeChars = [0x31#8, 0x31#8] ∧
    (after .ctFwd sTable).kIdx = 2#32 ∧ (after .ctFwd sTable).hit = true := by decide

/-- V-T14. -/
theorem test_ctFwd_absent :
    (after .ctFwd { sX with hit := true }).hit = false ∧ (after .ctFwd { sX with hit := true }).code = .ok := by decide

/-- V-T15 on the table of V-H1. -/
theorem test_ctRev :
    (after .ctRev { sTable with kSym := [] }).element .kSym 0 = 0x63#8 ∧ (after .ctRev sTable).kIdx = 2#32 ∧
    (after .ctRev sTable).hit = true := by decide

/-- V-T16: equality of whole codes, not prefix. -/
theorem test_ctRev_prefix : (after .ctRev { sTable with kClen := 1#32, hit := true }).hit = false := by decide

/-- V-N1. -/
theorem test_encode : (after .encode { sTable with bit := [], bitLen := 0#32 }).bitChars = bits11 := by decide

/-- V-N2: "aabx…". -/
theorem test_encode_noSymbol :
    (after .encode { sTable with txt := chars 0 [0x61#8, 0x61#8, 0x62#8, 0x78#8, 0x62#8, 0x63#8, 0x63#8] }).code = .noSymbol ∧
    (after .encode { sTable with txt := chars 0 [0x61#8, 0x61#8, 0x62#8, 0x78#8, 0x62#8, 0x63#8, 0x63#8] }).errPos = 3#32 ∧
    (after .encode { sTable with txt := chars 0 [0x61#8, 0x61#8, 0x62#8, 0x78#8, 0x62#8, 0x63#8, 0x63#8] }).bitChars =
      [0x31#8, 0x30#8, 0x31#8, 0x30#8, 0x30#8] := by decide

/-- V-D1 and V-D2. -/
theorem test_tdecode :
    (after .tdecode sTree).decoded = aabbbcc ∧ (after .tdecode { sTree with bitLen := 10#32 }).code = .incomplete ∧
    (after .tdecode { sTree with bitLen := 10#32 }).errPos = 9#32 := by decide

/-- R249's example "01x" on the one-leaf tree (here "001x"): TDECODE stops at the '1'. -/
theorem test_tdecode_one :
    (after .tdecode sOne).code = .incomplete ∧ (after .tdecode sOne).errPos = 2#32 ∧
    (after .tdecode sOne).decoded = [0x61#8, 0x61#8] := by decide

/-- V-D1, and V-D12 with OUT_CAP = 4. -/
theorem test_rdecode :
    (after .rdecode sTree).decoded = aabbbcc ∧
    (after .rdecode { sTree with caps := { Config.defaultCapacities with out := 4#32 } }).code = .capacity ∧
    (after .rdecode { sTree with caps := { Config.defaultCapacities with out := 4#32 } }).errPos = 6#32 := by decide

/-- R246: with x=0 and y=01 the bits "01" give "x" and an unfinished symbol at 1. -/
theorem test_rdecode_shortest :
    (after .rdecode { sX with
      ct := [⟨[0x78#8], [false]⟩, ⟨[0x79#8], [false, true]⟩], bitLen := 2#32 }).decoded = [0x78#8] ∧
    (after .rdecode { sX with
      ct := [⟨[0x78#8], [false]⟩, ⟨[0x79#8], [false, true]⟩], bitLen := 2#32 }).errPos = 1#32 := by decide

/-! ## Transactions -/

/-- V-E3 and V-E13: an illegal word sets ERR and clears nothing. -/
theorem test_illegal :
    (afterStep (.cmd 0x00000002#32) State.reset).statusWord = 0x19#32 ∧
    (afterStep (.cmd 0x80000001#32) sTable).code = .illegal ∧ (afterStep (.cmd 0x80000001#32) sTable).ct = ct3 := by decide

/-- V-C3 to V-C5. -/
theorem test_csrWr_symLen :
    (afterStep (.access (.csrWr 0x02 0#32)) State.reset).symLen = 1#32 ∧
    (afterStep (.access (.csrWr 0x02 257#32)) State.reset).symLen = 1#32 ∧
    (afterStep (.access (.csrWr 0x02 256#32)) State.reset).symLen = 256#32 := by decide

/-- V-C6 and V-C7: writing the value held clears, an illegal value does not. -/
theorem test_csrWr_symLen_clears :
    (afterStep (.access (.csrWr 0x02 1#32)) sTree).nodes = [] ∧
    (afterStep (.access (.csrWr 0x02 1#32)) sTree).ct = [] ∧
    (afterStep (.access (.csrWr 0x02 1#32)) sTree).txtLen = 7#32 ∧
    (afterStep (.access (.csrWr 0x02 0#32)) sTree).ct = ct3 := by decide

/-- V-C8 to V-C13. -/
theorem test_csrWr :
    (afterStep (.access (.csrWr 0x00 0xFFFFFFFF#32)) State.reset).statusWord = 0#32 ∧
    (afterStep (.access (.csrWr 0x06 5#32)) State.reset).outLen = 0#32 ∧
    (afterStep (.access (.csrWr 0x04 65536#32)) State.reset).txtLen = 65536#32 ∧
    (afterStep (.access (.csrWr 0x04 65537#32)) State.reset).txtLen = 0#32 ∧
    (afterStep (.access (.csrWr 0x03 0xFFFFFFFF#32)) State.reset).blkLen = 0xFFFFFFFF#32 ∧
    (afterStep (.access (.csrWr 0x0D 1023#32)) State.reset).kClen = 1023#32 ∧
    (afterStep (.access (.csrWr 0x0D 1024#32)) State.reset).kClen = 0#32 := by decide

/-- V-C14, V-C16, V-C17, and the STATUS of V-C6's start. -/
theorem test_csrRd :
    (afterStep (.access (.csrRd 0x15)) sTree).response = some 0#32 ∧
    (afterStep (.access (.csrRd 0xFF)) sTree).response = some 0#32 ∧
    (afterStep (.access (.csrRd 0x1B)) sTree).response = some 1024#32 ∧
    (afterStep (.access (.csrRd 0x13)) State.reset).response = some 0xFFFFFFFF#32 ∧
    (afterStep (.access (.csrRd 0x00)) { sTree with sl := none }).response = some 0xC0#32 ∧
    (afterStep (.access (.csrRd 0x08)) sTree).response = some 7#32 := by decide

/-- V-C18 to V-C20. -/
theorem test_buffers :
    (afterStep (.access (.bufWr 0 0 0x141#32)) State.reset).element .txt 0 = 0x41#8 ∧
    (afterStep (.access (.bufWr 2 0 0x41#32)) sTree).out = [] ∧
    (afterStep (.access (.bufRd 0 65536)) State.reset).response = some 0#32 ∧
    (afterStep (.access (.bufRd 5 0)) State.reset).response = some 0#32 ∧
    (afterStep (.access (.bufRd 3 256)) State.reset).response = some 0#32 ∧
    (afterStep (.access (.bufRd 1 0)) sTree).response = some 0x31#32 := by decide

/-- R290. -/
theorem test_reset :
    (afterStep .reset { sTree with err := true }).statusWord = 0#32 ∧ (afterStep .reset sTree).txt = [] ∧
    (afterStep .reset sTree).ct = [] ∧ (afterStep .reset sTree).caps = sTree.caps := by decide

/-- The placed word is the very next command. -/
theorem test_withFetchWord :
    step (State.reset.withFetchWord 32 0x00000424) = exec (.ndGet 4) State.reset ∧
    step (State.reset.withFetchWord 8 0x20) = exec .hinit State.reset := ⟨rfl, rfl⟩

theorem test_idle : step State.reset = .next State.reset := rfl

/-- The line "bra : 10" of P2 splits at index 4. -/
theorem test_parseLine :
    parseLine 4 [0x62#8, 0x72#8, 0x61#8, 0x20#8, 0x3A#8, 0x20#8, 0x31#8, 0x30#8] =
      some ([0x62#8, 0x72#8, 0x61#8, 0x20#8], [0x31#8, 0x30#8]) ∧
    parseLine 1 [0x62#8, 0x72#8, 0x3A#8, 0x20#8] = none := by decide

/-- The first line of P2's table, "abra: 0": the host learns L = 4, writes SYMLEN, and loads the one entry. -/
theorem test_loadTableLearning :
    (loadTableLearning [0x61#8, 0x62#8, 0x72#8, 0x61#8, 0x3A#8, 0x20#8, 0x30#8, 0x0A#8]).take 2 =
      [.access (.csrWr 0x02 4#32), .cmd 0x40#32] ∧
    (loadTableLearning [0x61#8, 0x62#8, 0x72#8, 0x61#8, 0x3A#8, 0x20#8, 0x30#8, 0x0A#8]).drop 2 =
      entryDirective [0x61#8, 0x62#8, 0x72#8, 0x61#8] [0x30#8] ∧
    loadTableLearning [0x3A#8, 0x20#8, 0x3A#8, 0x20#8, 0x30#8, 0x0A#8] = [.cmd 0x40#32] := by decide

/-- R293, "persist a table", of one entry "x", "01": CT_GET 0, K_SYM[0], K_CLEN, K_CODE[0], K_CODE[1]. -/
theorem test_persistTable :
    persistTable [⟨[0x78#8], [false, true]⟩] 0 =
      [.cmd 0x42#32, .access (.bufRd 3 0), .access (.csrRd 0x0D), .access (.bufRd 4 0), .access (.bufRd 4 1)] := by decide

/-- R293, "Shannon-Fano encode, fixed L". -/
theorem test_shannonFanoFixedFlow :
    shannonFanoFixedFlow 2 = [.access (.csrWr 0x02 2#32), .cmd 0x10#32, .cmd 0x32#32, .cmd 0x45#32] := by decide

/-- P3: the entry "x", "0" is BufWr K_SYM[0] = 78, BufWr K_CODE[0] = 30, CsrWr K_CLEN = 1, CT_ADD. -/
theorem test_entryDirective :
    entryDirective [0x78#8] [0x30#8] =
      [.access (.bufWr 3 0 0x78#32), .access (.bufWr 4 0 0x30#32), .access (.csrWr 0x0D 1#32), .cmd 0x41#32] := by decide

/-! ## Memory -/

theorem test_memory_reset : ∀ sp : Space, Memory.wf (State.reset.memory sp) := by intro sp; cases sp <;> decide

theorem test_memory_write :
    Memory.write 3 0x41#8 [(1, 0x31#8), (5, 0x35#8)] = [(1, 0x31#8), (3, 0x41#8), (5, 0x35#8)] ∧
    Memory.write 5 0x41#8 [(1, 0x31#8), (5, 0x35#8)] = [(1, 0x31#8), (5, 0x41#8)] := by decide

/-! ## Witnesses: for every obligation with hypotheses, states and operands that meet them together -/

/-! Encoding and steps -/

theorem witness_DecodeOfEncodeIsTheCommand :
    (Instr.ftGet 16777215).wellFormed = true ∧ Instr.nop.wellFormed = true := by decide

theorem witness_EncodeOfDecodeIsTheWord : decode 0xFFFFFF42#32 = .command (.ctGet 16777215) := by decide

theorem witness_IllegalWordsAndTheirEffect :
    (∃ why, decode 0x00000100#32 = .illegal why) ∧
    ({ sTree with pending := [.cmd 0x00000100#32] } : State).pending = .cmd 0x00000100#32 :: [] :=
  ⟨⟨.operandOfFormatN, by decide⟩, rfl⟩

theorem witness_StepRunsTheDecodedCommand :
    ({ sTree with pending := [.cmd 0x00000050#32] } : State).pending = .cmd 0x00000050#32 :: [] ∧
    decode 0x00000050#32 = .command .tdecode := ⟨rfl, by decide⟩

theorem witness_ResetLeavesTheResetValues :
    ({ sTree with pending := [.reset] } : State).pending = .reset :: [] := rfl

/-- Every address is met, each by one clause: the addresses of the map, or a reserved one. -/
theorem witness_RegisterReadsFollowTheMap :
    (∀ a : BitVec 8, ({ sTree with pending := [.access (.csrRd a)] } : State).pending = .access (.csrRd a) :: []) ∧
    ∀ a : BitVec 8, ((0x15 ≤ a.toNat ∧ a.toNat ≤ 0x17) ∨ 0x1C ≤ a.toNat) ↔
      ¬ (a.toNat ≤ 0x14 ∨ (0x18 ≤ a.toNat ∧ a.toNat ≤ 0x1B)) :=
  ⟨fun _ => rfl, by decide⟩

/-- Both clauses at their boundary values: 1 and 256 are legal, 0 and 257 are not. -/
theorem witness_SymLenWriteClearsSymbolKeyed :
    (∀ v : Word, ({ sTree with pending := [.access (.csrWr 0x02 v)] } : State).pending = .access (.csrWr 0x02 v) :: []) ∧
    (1 ≤ (1#32).toNat ∧ (1#32).toNat ≤ 256) ∧ (1 ≤ (256#32).toNat ∧ (256#32).toNat ≤ 256) ∧
    ((0#32).toNat = 0 ∨ 256 < (0#32).toNat) ∧ ((257#32).toNat = 0 ∨ 256 < (257#32).toNat) ∧
    (∃ t, exec .segment sTree = .next t ∧ t.code = .ok) ∧ ∃ t, exec .segment sEmpty = .next t ∧ t.code = .noData :=
  ⟨fun _ => rfl, by decide, by decide, by decide, by decide, ⟨_, rfl, by decide⟩, ⟨_, rfl, by decide⟩⟩

/-- Each clause at its boundary: the capacity itself, and one more. -/
theorem witness_RegisterWritesTakeLegalValuesOnly :
    (∀ (a : BitVec 8) (v : Word),
      ({ sTree with pending := [.access (.csrWr a v)] } : State).pending = .access (.csrWr a v) :: []) ∧
    (65536#32).toNat ≤ sTree.caps.txt.toNat ∧ sTree.caps.txt.toNat < (65537#32).toNat ∧
    (1048576#32).toNat ≤ sTree.caps.bit.toNat ∧ sTree.caps.bit.toNat < (1048577#32).toNat ∧
    (1023#32).toNat ≤ sTree.caps.sym.toNat - 1 ∧ sTree.caps.sym.toNat - 1 < (1024#32).toNat ∧
    (0x06 : BitVec 8) ∉ [(0x02 : BitVec 8), 0x03, 0x04, 0x05, 0x0D] :=
  ⟨fun _ _ => rfl, by decide, by decide, by decide, by decide, by decide, by decide, by decide⟩

/-- Any id and index are met; the last element of each space and the first index beyond it fall in different clauses. -/
theorem witness_BufferAccessesReachOneElement :
    (∀ (id : BitVec 8) (k : Nat) (v : Word),
      ({ sTree with pending := [.access (.bufWr id k v)] } : State).pending = .access (.bufWr id k v) :: []) ∧
    (∀ (id : BitVec 8) (k : Nat),
      ({ sTree with pending := [.access (.bufRd id k)] } : State).pending = .access (.bufRd id k) :: []) ∧
    65535 < sTree.caps.txt.toNat ∧ sTree.caps.txt.toNat ≤ 65536 ∧ 1048575 < sTree.caps.bit.toNat ∧
    sTree.caps.bit.toNat ≤ 1048576 ∧ 65535 < sTree.caps.out.toNat ∧ sTree.caps.out.toNat ≤ 65536 ∧
    1022 < sTree.caps.sym.toNat - 1 ∧ sTree.caps.sym.toNat - 1 ≤ 1023 ∧ 5 ≤ (5 : BitVec 8).toNat :=
  ⟨fun _ _ _ => rfl, fun _ _ => rfl, by decide, by decide, by decide, by decide, by decide, by decide, by decide,
    by decide, by decide⟩

theorem witness_AccessesKeepTheCompletionRecord :
    ({ sTree with pending := [.access (.bufRd 0 0)] } : State).pending = .access (.bufRd 0 0) :: [] := rfl

/-! How commands end -/

theorem witness_CommandsEndOnlyWithTheirCodes :
    (∃ t, exec .tdecode sOne = .next t) ∧
    ∃ why t, decode 0x00000002#32 = .illegal why ∧ runCommand 0x00000002#32 sTree = .next t :=
  ⟨⟨_, rfl⟩, .reservedOpcode, _, by decide, rfl⟩

theorem witness_ErrIsStickyUntilResetOrClear :
    (∃ t, exec .hstep sTree = .next t ∧ t.code ∉ [Completion.ok, .noData]) ∧
    (∃ t, exec .nop sTree = .next t ∧ t.code ∈ [Completion.ok, .noData] ∧ Instr.nop ≠ .clear) ∧
    (∃ why t, decode 0x00000002#32 = .illegal why ∧ runCommand 0x00000002#32 sTree = .next t) ∧
    (∃ t, step { sTree with err := true, pending := [.reset] } = .next t ∧ t.err = false) ∧
    ∃ t, step { sTree with err := true, pending := [.cmd 0x00000001#32] } = .next t ∧ t.err = false :=
  ⟨⟨_, rfl, by decide⟩, ⟨_, rfl, by decide, by decide⟩, ⟨.reservedOpcode, _, by decide, rfl⟩, ⟨_, rfl, rfl⟩,
    ⟨_, rfl, rfl⟩⟩

theorem witness_EveryCommandRecordsItsEnd :
    ∃ t, exec .hstep sTree = .next t ∧ t.code ∈ [Completion.ok, .noData, .badSeq, .badOperand, .duplicate] :=
  ⟨_, rfl, by decide⟩

theorem witness_PreconditionStopsChangeNothing :
    ∃ t, exec .segment { sTree with blkLen := 257#32 } = .next t ∧ preconditionStop .segment t.code = true :=
  ⟨_, rfl, by decide⟩

theorem witness_CommandsChangeOnlyTheirDestinations : ∃ t, exec .encode sTree = .next t := ⟨_, rfl⟩

theorem witness_BufferElementsChangeOnlyWhereStored :
    Invariant sTree ∧ (∃ t, exec .ctFwd sTree = .next t ∧ ¬ StoresTo .ctFwd sTree t .kCode 2) ∧
    ∃ t, exec .encode sTree = .next t ∧ ¬ StoresTo .encode sTree t .txt 0 :=
  ⟨inv_tree, ⟨_, rfl, by simp only [StoresTo]; decide⟩, ⟨_, rfl, by simp [StoresTo]⟩⟩

theorem witness_BadSeqExactlyInTheseCases :
    Invariant sTwo ∧ (∃ t, exec .fcount sTwo = .next t ∧ t.code = .badSeq) ∧
    ∃ t, exec .hinit sTwo = .next t ∧ t.code = .badSeq :=
  ⟨inv_two, ⟨_, rfl, by decide⟩, ⟨_, rfl, by decide⟩⟩

/-- At the boundary: index 2 of three entries is in range, index 3 is not. -/
theorem witness_BadOperandExactlyInTheseCases :
    Invariant sTable ∧ (∃ t, exec (.ftGet 2) sTable = .next t ∧ t.code ≠ .badOperand) ∧
    ∃ t, exec (.ftGet 3) sTable = .next t ∧ t.code = .badOperand :=
  ⟨inv_table, ⟨_, rfl, by decide⟩, ⟨_, rfl, by decide⟩⟩

theorem witness_NoDataExactlyOnEmptyInput :
    Invariant State.reset ∧ (∃ t, exec .fcount State.reset = .next t ∧ t.code = .noData) ∧
    Invariant sEmpty ∧ ∃ t, exec .tdecode sEmpty = .next t ∧ t.code = .noData :=
  ⟨inv_reset, ⟨_, rfl, by decide⟩, inv_empty, ⟨_, rfl, by decide⟩⟩

/-! Frequency Counter and Block Segmenter -/

/-- "aabbbcc" has three distinct symbols and the last clause is met with room for two: the third, 'c', stands at index 5. -/
theorem witness_FcountCountsTheSymbols :
    (sText.txtLen.toNat % sText.symLen.toNat = 0 ∧ sText.textSymbols.dedup.length ≤ sText.caps.sym.toNat) ∧
    sTwo.txtLen.toNat % sTwo.symLen.toNat ≠ 0 ∧
    (let s := { sText with caps := { Config.defaultCapacities with sym := 2#32 } }
     let before : List Symbol := [[0x61#8], [0x61#8], [0x62#8], [0x62#8], [0x62#8]]
     s.txtLen.toNat % s.symLen.toNat = 0 ∧ s.textSymbols = before ++ [0x63#8] :: [[0x63#8]] ∧ [0x63#8] ∉ before ∧
      before.dedup.length = s.caps.sym.toNat) := by decide

theorem witness_SeglenIsTheGreatestPassingInteger : State.reset.txtLen = 0#32 ∧ sText.txtLen ≠ 0#32 := by decide

theorem witness_SeglenIsTheFloorOfTwoToTheEntropy : sText.txtLen ≠ 0#32 ∧ ∃ t, exec .seglen sText = .next t :=
  ⟨by decide, _, rfl⟩

theorem witness_SeglenRange :
    (∃ t, exec .seglen State.reset = .next t ∧ ∃ u, exec .segment t = .next u) ∧
    ∃ t, exec .seglen sText = .next t ∧ sText.txtLen ≠ 0#32 :=
  ⟨⟨_, rfl, _, rfl⟩, ⟨_, rfl, by decide⟩⟩

/-- Each clause at its boundary: L = 1, 2 and 256; L = 0 and 257; a padded length of 8 with TXT_CAP = 8 and 7. -/
theorem witness_SegmentPadsTheText :
    (∀ l p : Nat, (l, p) ∈ [(1, 7), (2, 8), (256, 256)] →
      1 ≤ (word l).toNat ∧ (word l).toNat ≤ 256 ∧ (word l).toNat ∣ p ∧ sText.txtLen.toNat ≤ p ∧
      p < sText.txtLen.toNat + (word l).toNat ∧ p ≤ sText.caps.txt.toNat) ∧
    ((word 0).toNat = 0 ∧ 256 < (word 257).toNat) ∧
    (2 ∣ 8 ∧ sText.txtLen.toNat ≤ 8 ∧ 8 < sText.txtLen.toNat + 2 ∧ (8#32).toNat < 9 ∧ (7#32).toNat < 8) := by
  refine ⟨?_, by decide, by decide⟩
  intro l p h
  simp only [List.mem_cons, Prod.mk.injEq, List.not_mem_nil, or_false] at h
  rcases h with ⟨rfl, rfl⟩ | ⟨rfl, rfl⟩ | ⟨rfl, rfl⟩ <;> decide

theorem witness_FtGetStagesTheEntry :
    16777215 < 2 ^ 24 ∧ Invariant sTable ∧ sTable.ft[2]? = some ⟨[0x63#8], 2⟩ ∧ sTable.ft.length ≤ 3 :=
  ⟨by decide, inv_table, by decide, by decide⟩

/-! Huffman Tree Builder -/

/-- The three lengths of FT that the statement tells apart, and a SYMLEN of 2. -/
theorem witness_HinitMakesOneLeafPerEntry :
    (Invariant State.reset ∧ State.reset.symLen = 1#32 ∧ State.reset.ft.length = 0) ∧
    (Invariant sOne ∧ sOne.symLen = 1#32 ∧ sOne.ft.length = 1) ∧
    (Invariant sTable ∧ sTable.symLen = 1#32 ∧ 2 ≤ sTable.ft.length ∧ sTable.ft[0]? = some ⟨[0x61#8], 2⟩) ∧
    Invariant sTwo ∧ sTwo.symLen ≠ 1#32 :=
  ⟨⟨inv_reset, by decide, by decide⟩, ⟨inv_one, by decide, by decide⟩, ⟨inv_table, by decide, by decide, by decide⟩,
    inv_two, by decide⟩

theorem witness_HstepMergesTheTwoLowest :
    (Invariant sBuild ∧ sBuild.tree = .building ∧ 2 < sBuild.queue.length) ∧
    (Invariant sBuild2 ∧ sBuild2.tree = .building ∧ sBuild2.queue.length = 2) ∧
    Invariant sTree ∧ sTree.tree ≠ .building :=
  ⟨⟨inv_build, by decide, by decide⟩, ⟨inv_build2, by decide, by decide⟩, inv_tree, by decide⟩

theorem witness_HbuildIsHinitThenHsteps :
    (Invariant sTable ∧ sTable.symLen = 1#32 ∧ sTable.ft ≠ []) ∧
    (Invariant State.reset ∧ State.reset.symLen = 1#32 ∧ State.reset.ft = []) ∧ Invariant sTwo ∧ sTwo.symLen ≠ 1#32 :=
  ⟨⟨inv_table, by decide, by decide⟩, ⟨inv_reset, by decide, by decide⟩, inv_two, by decide⟩

theorem witness_HbuildGivesACompleteTree :
    (Invariant sTable ∧ sTable.symLen = 1#32 ∧ sTable.ft ≠ []) ∧ Invariant sOne ∧ sOne.symLen = 1#32 ∧ sOne.ft ≠ [] :=
  ⟨⟨inv_table, by decide, by decide⟩, inv_one, by decide, by decide⟩

theorem witness_HcodesGivesRootPaths :
    (Invariant sOne ∧ sOne.tree = .valid ∧ sOne.nodes[sOne.root.toNat]? = some (Node.leaf 4 0x61#8)) ∧
    (Invariant sTree ∧ sTree.tree = .valid ∧ sTree.nodes[sTree.root.toNat]? = some (Node.internal 7 1 3)) ∧
    (Invariant sEmpty ∧ sEmpty.tree = .empty) ∧ Invariant sBuild ∧ sBuild.tree = .building :=
  ⟨⟨inv_one, by decide, by decide⟩, ⟨inv_tree, by decide, by decide⟩, ⟨inv_empty, by decide⟩, inv_build, by decide⟩

theorem witness_HuffmanTableIsPrefixFree :
    Invariant sTree ∧ ∃ t, exec .hcodes sTree = .next t ∧ t.code = .ok ∧ 2 ≤ t.ct.length :=
  ⟨inv_tree, _, rfl, by decide, by decide⟩

theorem witness_NdGetShowsTheRecord :
    sTree.nodes[1]? = some (Node.leaf 3 0x62#8) ∧ sTree.nodes[4]? = some (Node.internal 7 1 3) ∧
    sTree.nodes.length ≤ 5 := by decide

theorem witness_PqGetGivesTheMemberOfThatRank : Invariant sBuild ∧ 2 < sBuild.queue.length ∧ sBuild.queue.length ≤ 3 :=
  ⟨inv_build, by decide, by decide⟩

/-! Shannon-Fano partitioner -/

theorem witness_SfsortSortsByCountThenIndex :
    (0 < 1) ∧ [1, 0, 2][0]? = some 1 ∧ [1, 0, 2][1]? = some 0 ∧ sTable.ft[1]? = some ⟨[0x62#8], 3⟩ ∧
    sTable.ft[0]? = some ⟨[0x61#8], 2⟩ := by decide

theorem witness_SplitIsTheFirstMinimum : 2 ≤ [1, 1].length ∧ splitIndex [1, 1, 1] = 1 := by decide

/-- A list of one block, a list of three with the whole range below the empty code, and no list. -/
theorem witness_SfpartSplitsEveryRange :
    (Invariant sOne ∧ sOne.sl = some [0] ∧ sOne.ft.length = 1) ∧
    (Invariant sTable ∧ sTable.sl = some [1, 0, 2] ∧ 2 ≤ sTable.ft.length ∧ 0 + 2 ≤ 3 ∧ 3 ≤ [1, 0, 2].length ∧
      ∀ (j : Nat) (c : Code), [[false], [true, false], [true, true]][j]? = some c → (([] : Code) <+: c ↔ 0 ≤ j ∧ j < 3)) ∧
    Invariant State.reset ∧ State.reset.sl = none := by
  refine ⟨⟨inv_one, by decide, by decide⟩, ⟨inv_table, by decide, by decide, by decide, by decide, ?_⟩, inv_reset,
    by decide⟩
  intro j c h
  have := (List.getElem?_eq_some_iff.1 h).1
  simp at this ⊢
  omega

theorem witness_ShannonFanoTableIsPrefixFree :
    Invariant sTable ∧ 2 ≤ sTable.ft.length ∧ ∃ t, exec .sfpart sTable = .next t ∧ t.code = .ok :=
  ⟨inv_table, by decide, _, rfl, by decide⟩

theorem witness_SlGetGivesTheElement :
    (Invariant sTable ∧ sTable.sl = some [1, 0, 2] ∧ [1, 0, 2][2]? = some 2 ∧ sTable.ft.length ≤ 3) ∧
    Invariant State.reset ∧ State.reset.sl = none :=
  ⟨⟨inv_table, by decide, by decide, by decide⟩, inv_reset, by decide⟩

/-! Code table and lookup engine -/

/-- The four clauses: a new entry; an element that is no bit; a repeated symbol; a full table (an instance of one entry). -/
theorem witness_CtAddLoadsTheStagedEntry :
    (Invariant sX ∧ sX.stagedCodeChars = [true].map (fun b => if b then 0x31#8 else 0x30#8) ∧
      sX.stagedSymbol ∉ sX.ct.map CtEntry.sym ∧ [true] ∉ sX.ct.map CtEntry.code ∧ sX.ct.length < sX.caps.sym.toNat) ∧
    (let s := { sX with kClen := 2#32 }
     1 < s.kClen.toNat ∧ s.element .kCode 1 ≠ 0x30#8 ∧ s.element .kCode 1 ≠ 0x31#8 ∧
      (s.element .kCode 0 = 0x30#8 ∨ s.element .kCode 0 = 0x31#8)) ∧
    (let s := { sX with kSym := [(0, 0x78#8)] }
     s.stagedSymbol ∈ s.ct.map CtEntry.sym) ∧
    ({ sX with caps := { Config.defaultCapacities with sym := 1#32 } } : State).ct.length = (1#32).toNat :=
  ⟨⟨inv_x, by decide, by decide, by decide, by decide⟩, by decide, by decide, by decide⟩

theorem witness_CtGetStagesTheEntry :
    Invariant sTable ∧ sTable.ct[2]? = some ⟨[0x63#8], [true, true]⟩ ∧ sTable.ct.length ≤ 3 :=
  ⟨inv_table, by decide, by decide⟩

theorem witness_CtFwdFindsTheCode :
    (Invariant sTable ∧ sTable.ct[2]? = some ⟨[0x63#8], [true, true]⟩ ∧ [0x63#8] = sTable.stagedSymbol) ∧
    Invariant sX ∧ sX.stagedSymbol ∉ sX.ct.map CtEntry.sym :=
  ⟨⟨inv_table, by decide, by decide⟩, inv_x, by decide⟩

theorem witness_CtRevFindsTheSymbol :
    (Invariant sTable ∧ sTable.ct[2]? = some ⟨[0x63#8], [true, true]⟩ ∧
      sTable.stagedCodeChars = [true, true].map (fun b => if b then 0x31#8 else 0x30#8)) ∧
    (Invariant sX ∧ sX.stagedCodeChars = [true].map (fun b => if b then 0x31#8 else 0x30#8) ∧
      [true] ∉ sX.ct.map CtEntry.code) ∧
    (let s := { sX with kClen := 2#32 }
     1 < s.kClen.toNat ∧ s.element .kCode 1 ≠ 0x30#8 ∧ s.element .kCode 1 ≠ 0x31#8) :=
  ⟨⟨inv_table, by decide, by decide⟩, ⟨inv_x, by decide, by decide⟩, by decide⟩

/-- The codes of "aabbbcc" one by one, the symbols before a missing 'x', and a full BIT. -/
theorem witness_EncodeConcatenatesTheCodes :
    (Invariant sTable ∧ sTable.txtLen.toNat % sTable.symLen.toNat = 0 ∧
      CodesOf sTable.ct sTable.textSymbols
        [[true, false], [true, false], [false], [false], [false], [true, true], [true, true]]) ∧
    sTwo.txtLen.toNat % sTwo.symLen.toNat ≠ 0 ∧
    (Invariant sText ∧ sText.textSymbols = [] ++ [0x61#8] :: sText.textSymbols.tail ∧ CodesOf sText.ct [] [] ∧
      [0x61#8] ∉ sText.ct.map CtEntry.sym) ∧
    ((⟨[0x63#8], [true, true]⟩ : CtEntry) ∈ sTable.ct ∧
      (8#32).toNat < [true, false, true, false, false, false, false].length + [true, true].length) := by
  refine ⟨⟨inv_table, by decide, ?_⟩, by decide, ⟨inv_text, by decide, .nil, by decide⟩, by decide⟩
  have h : sTable.textSymbols =
      [[0x61#8], [0x61#8], [0x62#8], [0x62#8], [0x62#8], [0x63#8], [0x63#8]] := by decide
  rw [h]
  exact .cons (by decide) (.cons (by decide) (.cons (by decide) (.cons (by decide) (.cons (by decide)
    (.cons (by decide) (.cons (by decide) .nil))))))

/-! Decoders -/

theorem decodable3 : Decodable ct3 := ⟨by unfold PrefixFree; decide, by decide⟩

theorem codes3 :
    CodesOf ct3 [[0x61#8], [0x61#8], [0x62#8], [0x62#8], [0x62#8], [0x63#8], [0x63#8]]
      [[true, false], [true, false], [false], [false], [false], [true, true], [true, true]] :=
  .cons (by decide) (.cons (by decide) (.cons (by decide) (.cons (by decide) (.cons (by decide)
    (.cons (by decide) (.cons (by decide) .nil))))))

/-- The tree of "aabbbcc" and its table with any bit string and any OUT_CAP. -/
def sBits (bits : List Byte) (out : Word) : State :=
  { sTree with
    bit := chars 0 bits, bitLen := BitVec.ofNat 32 bits.length, caps := { Config.defaultCapacities with out := out } }

theorem inv_bits (bits : List Byte) (out : Word) (h1 : 1 ≤ out.toNat) (h2 : bits.length ≤ 1048576)
    (h3 : Memory.wf (chars 0 bits)) (h4 : ∀ c ∈ chars 0 bits, c.1 < 1048576) : Invariant (sBits bits out) := by
  have i := inv_tree
  refine ⟨⟨caps_default.txt, caps_default.bit, h1, caps_default.symLow, caps_default.symHigh⟩,
    ⟨i.lengths.1, i.lengths.2, i.lengths.3, ?_, Nat.zero_le _, i.lengths.6⟩, ?_, ?_,
    ⟨i.ft.1, i.ft.2, i.ft.3, i.ft.4, i.ft.5⟩, i.sl, ⟨i.ct.1, i.ct.2, i.ct.3, i.ct.4, i.ct.5⟩,
    ⟨i.tree.1, i.tree.2, i.tree.3, i.tree.4, i.tree.5⟩⟩
  · show (BitVec.ofNat 32 bits.length).toNat ≤ 1048576
    rw [BitVec.toNat_ofNat]; omega
  · intro sp; cases sp <;> first
      | exact h3
      | exact i.canonical .txt
      | exact i.canonical .out
      | exact i.canonical .kSym
      | exact i.canonical .kCode
  · intro sp
    cases sp with
    | bit => exact h4
    | out => intro c hc; cases hc
    | txt => exact i.inside .txt
    | kSym => exact i.inside .kSym
    | kCode => exact i.inside .kCode

theorem first3 : ∀ d ∈ ct3.map CtEntry.code, MatchedFirst ct3 d := by unfold MatchedFirst; decide

theorem codes1 : CodesOf ct3 [[0x61#8]] [[true, false]] := .cons (by decide) .nil

/-- The four ends: "101000…" whole; "101" ends inside a symbol; "10x" has an element that is no bit; "100" needs room for
two. -/
theorem witness_RdecodeEmitsTheFirstMatches :
    (∀ d ∈ [[true, false], [true, false], [false], [false], [false], [true, true], [true, true]], MatchedFirst ct3 d) ∧
    (Invariant (sBits bits11 65536#32) ∧
      CodesOf (sBits bits11 65536#32).ct [[0x61#8], [0x61#8], [0x62#8], [0x62#8], [0x62#8], [0x63#8], [0x63#8]]
        [[true, false], [true, false], [false], [false], [false], [true, true], [true, true]] ∧
      (sBits bits11 65536#32).bitChars =
        ([[true, false], [true, false], [false], [false], [false], [true, true], [true, true]].flatten ++ []).map
          (fun b : Bool => if b then 0x31#8 else 0x30#8) ++ []) ∧
    (Invariant (sBits [0x31#8, 0x30#8, 0x31#8] 65536#32) ∧ CodesOf ct3 [[0x61#8]] [[true, false]] ∧
      (sBits [0x31#8, 0x30#8, 0x31#8] 65536#32).bitChars =
        ([[true, false]].flatten ++ [true]).map (fun b : Bool => if b then 0x31#8 else 0x30#8) ++ [] ∧
      ∀ d : Code, d ≠ [] → d <+: [true] → d ∉ ct3.map CtEntry.code) ∧
    (Invariant (sBits [0x31#8, 0x30#8, 0x78#8] 65536#32) ∧
      (sBits [0x31#8, 0x30#8, 0x78#8] 65536#32).bitChars =
        ([[true, false]].flatten ++ []).map (fun b : Bool => if b then 0x31#8 else 0x30#8) ++ [0x78#8]) ∧
    (Invariant (sBits [0x31#8, 0x30#8, 0x30#8] 1#32) ∧
      (sBits [0x31#8, 0x30#8, 0x30#8] 1#32).bitChars =
        ([[true, false]].flatten ++ [false]).map (fun b : Bool => if b then 0x31#8 else 0x30#8) ++ [] ∧
      MatchedFirst ct3 [false] ∧ 1 * (sBits [] 1#32).symLen.toNat ≤ (1#32).toNat ∧
      (1#32).toNat < (1 + 1) * (sBits [] 1#32).symLen.toNat) := by
  refine ⟨fun d hd => first3 d ?_, ⟨inv_bits _ _ (by decide) (by decide) (by decide) (by decide), codes3, by decide⟩,
    ⟨inv_bits _ _ (by decide) (by decide) (by decide) (by decide), codes1, by decide, ?_⟩,
    ⟨inv_bits _ _ (by decide) (by decide) (by decide) (by decide), by decide⟩,
    inv_bits _ _ (by decide) (by decide) (by decide) (by decide), by decide, first3 _ (by decide), by decide, by decide⟩
  · revert d; decide
  · intro d h0 hd
    rcases List.prefix_cons_iff.1 hd with rfl | ⟨t, rfl, ht⟩
    · exact absurd rfl h0
    · rw [List.prefix_nil.1 ht]; decide

theorem witness_ShadowedCodesAreNeverMatched :
    let s := { sX with ct := [⟨[0x78#8], [false]⟩, ⟨[0x79#8], [false, true]⟩] }
    (∀ e ∈ s.ct, (e.sym = [0x78#8] : Bool) = false → e.code = [] ∨
      ∃ d ∈ s.ct, d.code ≠ [] ∧ d.code <+: e.code ∧ d.code ≠ e.code) ∧
    ∃ t, exec .rdecode s = .next t := by
  refine ⟨?_, _, rfl⟩
  decide

theorem ends1 (bits : List Byte) (out : Word) :
    List.Forall₂ (EndsAtLeaf (sBits bits out)) [0x61#8] [[true, false]] :=
  .cons (.inr ⟨0, 2, by decide, rfl, rfl⟩) .nil

/-- The ends on a tree of three leaves: "10" whole, "101" inside a path, "10x" no bit, "100" without room; the '1' of "001x"
on the one-leaf tree; and the three other states of the tree. -/
theorem witness_TdecodeFollowsTheTree :
    (sText.tree = .none ∧ sBuild.tree = .building ∧ sEmpty.tree = .empty) ∧
    (Invariant (sBits [0x31#8, 0x30#8] 65536#32) ∧
      List.Forall₂ (EndsAtLeaf (sBits [0x31#8, 0x30#8] 65536#32)) [0x61#8] [[true, false]] ∧
      (sBits [0x31#8, 0x30#8] 65536#32).bitChars =
        ([[true, false]].flatten ++ []).map (fun b : Bool => if b then 0x31#8 else 0x30#8) ++ []) ∧
    (Invariant (sBits [0x31#8, 0x30#8, 0x31#8] 65536#32) ∧
      follow (sBits [] 1#32).nodes (sBits [] 1#32).root.toNat [true] = some 3 ∧
      (sBits [] 1#32).nodes[3]? = some (Node.internal 4 0 2)) ∧
    Invariant (sBits [0x31#8, 0x30#8, 0x78#8] 65536#32) ∧
    (Invariant (sBits [0x31#8, 0x30#8, 0x30#8] 1#32) ∧ EndsAtLeaf (sBits [0x31#8, 0x30#8, 0x30#8] 1#32) 0x62#8 [false] ∧
      List.Forall₂ (EndsAtLeaf (sBits [0x31#8, 0x30#8, 0x30#8] 1#32)) [0x61#8] [[true, false]] ∧
      [0x61#8].length = (sBits [0x31#8, 0x30#8, 0x30#8] 1#32).caps.out.toNat) ∧
    (Invariant sOne ∧ sOne.tree = .valid ∧ List.Forall₂ (EndsAtLeaf sOne) [0x61#8, 0x61#8] [[false], [false]] ∧
      sOne.nodes[sOne.root.toNat]? = some (Node.leaf 4 0x61#8) ∧
      sOne.bitChars = ([[false], [false]].flatten ++ []).map (fun b : Bool => if b then 0x31#8 else 0x30#8) ++
        0x31#8 :: [0x78#8]) :=
  ⟨by decide,
    ⟨inv_bits _ _ (by decide) (by decide) (by decide) (by decide), ends1 _ _, by decide⟩,
    ⟨inv_bits _ _ (by decide) (by decide) (by decide) (by decide), rfl, rfl⟩,
    inv_bits _ _ (by decide) (by decide) (by decide) (by decide),
    ⟨inv_bits _ _ (by decide) (by decide) (by decide) (by decide), .inr ⟨1, 3, by decide, rfl, rfl⟩, ends1 _ _, rfl⟩,
    inv_one, rfl, .cons (.inl ⟨4, rfl, rfl⟩) (.cons (.inl ⟨4, rfl, rfl⟩) .nil), rfl, by decide⟩

/-- The one-leaf tree over "001x", and the empty tree over one bit. -/
theorem witness_TdecodeOnDegenerateTrees :
    (Invariant sOne ∧ sOne.tree = .valid ∧ sOne.nodes[sOne.root.toNat]? = some (Node.leaf 4 0x61#8) ∧
      sOne.bitChars = List.replicate 2 0x30#8 ++ 0x31#8 :: [0x78#8] ∧ 2 ≤ sOne.caps.out.toNat) ∧
    ({ sEmpty with bitLen := 1#32 } : State).tree = .empty ∧ ({ sEmpty with bitLen := 1#32 } : State).bitLen ≠ 0#32 :=
  ⟨⟨inv_one, by decide, by decide, by decide, by decide⟩, by decide, by decide⟩

/-! Headlines -/

theorem witness_TheTwoDecodersAgree :
    (Invariant sTree ∧ sTree.tree = .valid ∧ (∃ t, exec .hcodes sTree = .next t) ∧ 2 ≤ sTree.nodes.length) ∧
    Invariant sOne ∧ sOne.tree = .valid ∧ ∃ t, exec .hcodes sOne = .next t :=
  ⟨⟨inv_tree, by decide, ⟨_, rfl⟩, by decide⟩, inv_one, by decide, _, rfl⟩

theorem witness_EncodeThenRdecodeOnAnyDecodableTable :
    (Invariant sTable ∧ Decodable sTable.ct ∧ (∃ u, exec .encode sTable = .next u ∧ u.code = .ok) ∧
      sTable.txtLen.toNat ≤ sTable.caps.out.toNat) ∧
    Invariant sX ∧ Decodable sX.ct ∧ ∃ u, exec .encode sX = .next u ∧ u.code = .noData :=
  ⟨⟨inv_table, decodable3, ⟨_, rfl, by decide⟩, by decide⟩, inv_x, ⟨by unfold PrefixFree; decide, by decide⟩, _, rfl,
    by decide⟩

theorem witness_HuffmanRoundTrip :
    Invariant sText ∧ sText.symLen = 1#32 ∧ sText.txtLen.toNat ≤ sText.caps.out.toNat ∧
    ∃ u, execAll [.fcount, .hbuild, .hcodes, .encode] sText = .next u ∧ u.code ≠ .capacity ∧ u.bitChars = bits11 :=
  ⟨inv_text, by decide, by decide, _, rfl, by decide, by decide⟩

set_option maxRecDepth 20000 in
theorem witness_ShannonFanoRoundTrip :
    Invariant sText ∧ sText.err = false ∧
    (∃ u, execAll ([.seglen] ++ [.segment, .fcount, .sfbuild, .encode]) sText = .next u ∧ u.err = false ∧
      u.txtLen.toNat ≤ u.caps.out.toNat) ∧
    ∃ u, execAll ([] ++ [.segment, .fcount, .sfbuild, .encode]) sText = .next u ∧ u.err = false ∧
      u.txtLen.toNat ≤ u.caps.out.toNat :=
  ⟨inv_text, by decide, ⟨_, rfl, by decide, by decide⟩, ⟨_, rfl, by decide, by decide⟩⟩

theorem witness_InvariantKeptByEveryStep :
    Invariant { sTree with pending := [.cmd 0x00000050#32] } ∧
    ∃ t, step { sTree with pending := [.cmd 0x00000050#32] } = .next t := by
  refine ⟨?_, _, rfl⟩
  have i := inv_tree
  refine ⟨i.caps, ⟨i.lengths.1, i.lengths.2, i.lengths.3, i.lengths.4, i.lengths.5, i.lengths.6⟩, ?_, ?_,
    ⟨i.ft.1, i.ft.2, i.ft.3, i.ft.4, i.ft.5⟩, i.sl, ⟨i.ct.1, i.ct.2, i.ct.3, i.ct.4, i.ct.5⟩,
    ⟨i.tree.1, i.tree.2, i.tree.3, i.tree.4, i.tree.5⟩⟩
  · intro sp; cases sp <;> decide
  · intro sp; cases sp <;> decide

theorem witness_CanonicalMemoriesKeptByEveryStep :
    MemoriesCanonical sTree ∧ ∃ t, step sTree = .next t := ⟨inv_tree.canonical, _, rfl⟩

theorem witness_PersistedTableReloads :
    1 ≤ 1 ∧ (∀ e ∈ ct3, e.sym.length = 1) ∧ (∀ e ∈ ct3, 0x0A#8 ∉ e.sym) ∧
    (∀ e ∈ ct3, ¬ [0x3A#8, 0x20#8] <:+: e.sym) ∧ ct3 ≠ [] ∧ 1 ≤ 256 := by decide

end Sys2Proof.Tests
end

section
/-! PROOFS. The registers: what a host write does to each (10_state.md R26, R47), what SEGMENT does to the symbol-keyed
structures, and what a reset leaves (R50). The reasoning rules of `csrWrite` and `execSegment` stand before the three
obligations that use them. -/

namespace Sys2Proof.Machine

open Sys2Proof

set_option autoImplicit false

/-! ## A host write of a control register, one equation per writable address (R45, R47) -/

/-- A step on a register write performs the write and returns nothing to the host. -/
theorem step_csrWr {s : State} {a : BitVec 8} {v : Word} {rest : List Transaction}
    (h : s.pending = .access (.csrWr a v) :: rest) :
    step s = .next { csrWrite a v { s with pending := rest } with response := none } :=
  step_cons h

theorem csrWrite_symLen (v : Word) (s : State) :
    csrWrite 0x02 v s = if v.toNat = 0 ∨ 256 < v.toNat then s else s.setSymLen v := rfl

theorem csrWrite_blkLen (v : Word) (s : State) : csrWrite 0x03 v s = { s with blkLen := v } := rfl

theorem csrWrite_txtLen (v : Word) (s : State) :
    csrWrite 0x04 v s = if s.caps.txt.toNat < v.toNat then s else { s with txtLen := v } := rfl

theorem csrWrite_bitLen (v : Word) (s : State) :
    csrWrite 0x05 v s = if s.caps.bit.toNat < v.toNat then s else { s with bitLen := v } := rfl

theorem csrWrite_kClen (v : Word) (s : State) :
    csrWrite 0x0D v s = if s.caps.sym.toNat - 1 < v.toNat then s else { s with kClen := v } := rfl

/-- A write to a read-only or a reserved address is ignored (R47, R46). -/
theorem csrWrite_not_writable {a : BitVec 8} (ha : a ∉ [0x02, 0x03, 0x04, 0x05, 0x0D]) (v : Word) (s : State) :
    csrWrite a v s = s := by
  have ne_of_mem : ∀ b ∈ [(0x02 : BitVec 8), 0x03, 0x04, 0x05, 0x0D], a.toNat ≠ b.toNat :=
    fun b hb hab => ha (BitVec.eq_of_toNat_eq hab ▸ hb)
  unfold csrWrite
  split
  case h_1 h => exact absurd h (ne_of_mem 0x02 (by decide))
  case h_2 h => exact absurd h (ne_of_mem 0x03 (by decide))
  case h_3 h => exact absurd h (ne_of_mem 0x04 (by decide))
  case h_4 h => exact absurd h (ne_of_mem 0x05 (by decide))
  case h_5 h => exact absurd h (ne_of_mem 0x0D (by decide))
  case h_6 => rfl

/-- A SYMLEN write of an illegal value is ignored whole (R47). -/
theorem step_csrWr_symLen_illegal {s : State} {v : Word} {rest : List Transaction}
    (h : s.pending = .access (.csrWr 0x02 v) :: rest) (hv : v.toNat = 0 ∨ 256 < v.toNat) :
    step s = .next { s with pending := rest, response := none } := by
  rw [step_csrWr h, csrWrite_symLen, if_pos hv]

/-! ## The three ways SEGMENT ends (R150) -/

/-- The text padded with spaces to the next multiple of BLKLEN, TXT_LEN with it (R150). -/
def State.padText (s : State) : State :=
  let p := paddedLength s.txtLen.toNat s.blkLen.toNat
  { s.storeAll .txt s.txtLen.toNat (List.replicate (p - s.txtLen.toNat) charSpace) with txtLen := word p }

theorem exec_segment_badOperand {s : State} (hl : s.blkLen.toNat = 0 ∨ 256 < s.blkLen.toNat) :
    exec .segment s = raise .badOperand 0 s := if_pos hl

theorem exec_segment_capacity {s : State} (hl : ¬ (s.blkLen.toNat = 0 ∨ 256 < s.blkLen.toNat))
    (hp : s.caps.txt.toNat < paddedLength s.txtLen.toNat s.blkLen.toNat) :
    exec .segment s = raise .capacity s.txtLen.toNat s := (if_neg hl).trans (if_pos hp)

theorem exec_segment_done {s : State} (hl : ¬ (s.blkLen.toNat = 0 ∨ 256 < s.blkLen.toNat))
    (hp : ¬ s.caps.txt.toNat < paddedLength s.txtLen.toNat s.blkLen.toNat) :
    exec .segment s =
      done (okOrNoData (paddedLength s.txtLen.toNat s.blkLen.toNat = 0)) (s.padText.setSymLen s.blkLen) :=
  (if_neg hl).trans (if_neg hp)

/-- A SEGMENT that ends in the success class has written SYMLEN from BLKLEN, with that write's side effect. -/
theorem exec_segment_success {s t : State} (h : exec .segment s = .next t) (hc : t.code.isError = false) :
    ∃ c, t = (s.padText.setSymLen s.blkLen).ended c 0 := by
  by_cases hl : s.blkLen.toNat = 0 ∨ 256 < s.blkLen.toNat
  · rw [exec_segment_badOperand hl, raise_eq_next] at h
    subst h
    cases hc
  by_cases hp : s.caps.txt.toNat < paddedLength s.txtLen.toNat s.blkLen.toNat
  · rw [exec_segment_capacity hl hp, raise_eq_next] at h
    subst h
    cases hc
  · rw [exec_segment_done hl hp, done_eq_next] at h
    exact ⟨_, h.symm⟩

/-! ## A reset (R50, R290) -/

/-- A step on a reset leaves the reset state but for the four capacities, the host's list and the count of
resets. -/
theorem step_reset {s : State} {rest : List Transaction} (h : s.pending = .reset :: rest) :
    step s = .next { State.reset with caps := s.caps, resets := s.resets + 1, pending := rest } :=
  step_cons h

/-- STATUS reads 0 when each of its five fields holds its reset value (R23). -/
theorem State.statusWord_eq_zero {s : State} (code : s.code = .ok) (err : s.err = false) (hit : s.hit = false)
    (tree : s.tree = .none) (sl : s.sl = none) : s.statusWord = 0#32 := by
  rw [State.statusWord, State.slv, code, err, hit, tree, sl]
  decide

/-! ## The obligations -/

/-- Settles O9. A legal write is `setSymLen`, an illegal one is ignored, and SEGMENT reaches its success codes only through
`setSymLen`. -/
theorem symLenWriteClearsSymbolKeyed : Obligations.SymLenWriteClearsSymbolKeyed := by
  refine ⟨fun s v rest h => ⟨fun hv => ?_, step_csrWr_symLen_illegal h⟩, fun s t h hc => ?_⟩
  · have legal : ¬ (v.toNat = 0 ∨ 256 < v.toNat) := by omega
    rw [step_csrWr h, csrWrite_symLen, if_neg legal]
    rfl
  · have success : t.code.isError = false := by rcases hc with hc | hc <;> rw [hc] <;> rfl
    obtain ⟨c, rfl⟩ := exec_segment_success h success
    simp [NIL]

/-- Settles O10, address by address: the equation of `csrWrite` there, and the branch its bound selects. -/
theorem registerWritesTakeLegalValuesOnly : Obligations.RegisterWritesTakeLegalValuesOnly := by
  intro s a v rest h
  refine ⟨?symLen, ?blkLen, ?txtLen, ?txtLenIgnored, ?bitLen, ?bitLenIgnored, ?kClen, ?kClenIgnored, ?other⟩
  case symLen => rintro rfl hv; exact step_csrWr_symLen_illegal h hv
  case blkLen => rintro rfl; rw [step_csrWr h, csrWrite_blkLen]
  case txtLen => rintro rfl hv; rw [step_csrWr h, csrWrite_txtLen, if_neg (Nat.not_lt.2 hv)]
  case txtLenIgnored => rintro rfl hv; rw [step_csrWr h, csrWrite_txtLen, if_pos hv]
  case bitLen => rintro rfl hv; rw [step_csrWr h, csrWrite_bitLen, if_neg (Nat.not_lt.2 hv)]
  case bitLenIgnored => rintro rfl hv; rw [step_csrWr h, csrWrite_bitLen, if_pos hv]
  case kClen => rintro rfl hv; rw [step_csrWr h, csrWrite_kClen, if_neg (Nat.not_lt.2 hv)]
  case kClenIgnored => rintro rfl hv; rw [step_csrWr h, csrWrite_kClen, if_pos hv]
  case other => intro ha; rw [step_csrWr h, csrWrite_not_writable ha]

/-- Settles O7: the registers of both states are those of `State.reset`, which holds R50's table field by field. -/
theorem resetLeavesTheResetValues : Obligations.ResetLeavesTheResetValues := by
  refine ⟨fun s rest h => ⟨_, step_reset h, State.statusWord_eq_zero rfl rfl rfl rfl rfl, ?_⟩,
    State.statusWord_eq_zero rfl rfl rfl rfl rfl, ?_⟩
  · and_intros <;> rfl
  · and_intros <;> rfl

end Sys2Proof.Machine
end

section
/-! PROOFS. Which words are illegal, and what an illegal word does (30_encoding.md R104 to R106, 60_exceptions.md R273). The
decoder's match is taken apart once, in `decode_by_format`, into the three kinds of opcode; the iff follows kind by kind. -/

namespace Sys2Proof

set_option autoImplicit false

/-! ## The three kinds of opcode (R104, R105) -/

/-- The opcodes of format N (R104). -/
abbrev formatNOpcodes : List Nat :=
  [0x00, 0x01, 0x10, 0x11, 0x12, 0x20, 0x21, 0x22, 0x23, 0x30, 0x31, 0x32, 0x40, 0x41, 0x43, 0x44, 0x45, 0x50, 0x51]

/-- The opcodes of format I (R104). -/
abbrev formatIOpcodes : List Nat := [0x13, 0x24, 0x25, 0x33, 0x42]

/-- The reserved opcodes, by the ranges of R105. -/
abbrev ReservedOpcode (op : Nat) : Prop :=
  (0x02 ≤ op ∧ op ≤ 0x0F) ∨ (0x14 ≤ op ∧ op ≤ 0x1F) ∨ (0x26 ≤ op ∧ op ≤ 0x2F) ∨ (0x34 ≤ op ∧ op ≤ 0x3F) ∨
  (0x46 ≤ op ∧ op ≤ 0x4F) ∨ (0x52 ≤ op ∧ op ≤ 0xFF)

theorem not_reserved_of_formatN : ∀ op ∈ formatNOpcodes, ¬ ReservedOpcode op := by decide

theorem not_reserved_of_formatI : ∀ op ∈ formatIOpcodes, ¬ ReservedOpcode op := by decide

theorem not_formatN_of_formatI : ∀ op ∈ formatIOpcodes, op ∉ formatNOpcodes := by decide

/-! ## The decoder, format by format (R106) -/

/-- What a word decodes to, by its opcode's format. -/
theorem decode_by_format (w : Word) :
    (w.toNat % 256 ∈ formatNOpcodes ∧ ∃ i, decode w = formatN (operandField w) i) ∨
    (w.toNat % 256 ∈ formatIOpcodes ∧ ∃ mk, decode w = formatI (operandField w) mk) ∨
    (ReservedOpcode (w.toNat % 256) ∧ decode w = .illegal .reservedOpcode) := by
  rw [← opcodeField_toNat]
  unfold decode
  split
  case h_6 h | h_11 h | h_12 h | h_16 h | h_19 h => exact .inr (.inl ⟨by rw [h]; decide, _, rfl⟩)
  case h_25 =>
    have : (opcodeField w).toNat < 256 := (opcodeField w).isLt
    refine .inr (.inr ⟨?_, rfl⟩)
    simp only [imp_false] at *
    omega
  all_goals
    next h => exact .inl ⟨by rw [h]; decide, _, rfl⟩

theorem operandField_eq_zero {w : Word} : operandField w = 0#24 ↔ w.toNat / 256 = 0 := by
  rw [← operandField_toNat, BitVec.toNat_eq, BitVec.toNat_ofNat, Nat.zero_mod]

/-- Rule R105: a word is illegal for a reserved opcode, or for an operand bit beside an opcode of format N. -/
theorem decode_illegal_iff (w : Word) :
    (∃ why, decode w = .illegal why) ↔
      ReservedOpcode (w.toNat % 256) ∨ (w.toNat % 256 ∈ formatNOpcodes ∧ w.toNat / 256 ≠ 0) := by
  obtain ⟨hN, i, hd⟩ | ⟨hI, mk, hd⟩ | ⟨hR, hd⟩ := decode_by_format w <;> rw [hd]
  · simp only [formatN_eq_illegal, exists_and_left, exists_eq, and_true, ne_eq, operandField_eq_zero,
      not_reserved_of_formatN _ hN, hN, true_and, false_or]
  · simp only [formatI, reduceCtorEq, exists_false, not_reserved_of_formatI _ hI, not_formatN_of_formatI _ hI, false_and,
      or_false]
  · exact ⟨fun _ => .inl hR, fun _ => ⟨_, rfl⟩⟩

end Sys2Proof

namespace Sys2Proof.Machine

open Sys2Proof

set_option autoImplicit false

/-- A step on an illegal word takes the transaction off the host's list and ends with ILLEGAL at position 0. -/
theorem step_illegal {s : State} {w : Word} {rest : List Transaction} {why : IllegalWord}
    (hw : decode w = .illegal why) (h : s.pending = .cmd w :: rest) :
    step s = .next (State.ended .illegal 0 { s with pending := rest }) :=
  (step_cons h).trans (runCommand_illegal hw _)

/-- Settles O4: the decoder's three kinds of opcode give R105's list, and a step on an illegal word is only an end. -/
theorem illegalWordsAndTheirEffect : Obligations.IllegalWordsAndTheirEffect := by
  refine ⟨fun w => ?illegal, ?effect⟩
  case illegal => simpa only [or_assoc] using decode_illegal_iff w
  case effect =>
    rintro s w rest ⟨why, hw⟩ h
    exact ⟨_, step_illegal hw h, State.ended_Ended .illegal 0 rfl, State.ended_only _ .illegal 0⟩

end Sys2Proof.Machine
end

section
/-! PROOFS. NOP, CLEAR and CT_CLEAR (40_control.md R131, R132; 44_code_table.md R211). Each is one update of the state and
then `done OK`: its equation stands first, and the update of CLEAR has its rules before the two obligations. -/

namespace Sys2Proof.Machine

open Sys2Proof

set_option autoImplicit false

/-! ## What the three commands run -/

theorem exec_nop (s : State) : exec .nop s = done .ok s := rfl

theorem exec_clear (s : State) : exec .clear s = done .ok s.clearRegisters := rfl

theorem exec_ctClear (s : State) : exec .ctClear s = done .ok { s with ct := [] } := rfl

/-! ## The update of CLEAR (R132) -/

@[simp] theorem State.memory_clearRegisters (s : State) (sp : Space) : s.clearRegisters.memory sp = s.memory sp := by
  cases sp <;> rfl

/-- The elements stay the ones they were, the never written among them: CLEAR is no reset. -/
@[simp] theorem State.element_clearRegisters (s : State) (sp : Space) (k : Nat) :
    s.clearRegisters.element sp k = s.element sp k :=
  State.element_eq_of_memory (State.memory_clearRegisters s sp) rfl k

/-- STATUS reads 0 after CLEAR: OK with ERR, HIT, TREE and SLV at their reset values. -/
theorem State.statusWord_ended_clearRegisters (s : State) : (s.clearRegisters.ended .ok 0).statusWord = 0#32 :=
  State.statusWord_eq_zero rfl rfl rfl rfl rfl

/-! ## The obligations -/

/-- Settles O22: the end is all that NOP leaves, and CT_CLEAR ends from the state with the empty table. -/
theorem nopAndCtClear : Obligations.NopAndCtClear := by
  refine ⟨by decide, fun s => ?nop, by decide, fun s => ?ctClear⟩
  case nop =>
    exact ⟨_, exec_nop s, State.ended_Ended .ok 0 rfl, State.ended_only s .ok 0⟩
  case ctClear =>
    exact ⟨_, exec_ctClear s, State.ended_Ended .ok 0 rfl, State.ended_eq _ .ok 0⟩

/-- Settles O23: the registers of `clearRegisters` are those of `State.reset`, its elements, capacities and host's list those
of `s`, and its end is OK, which leaves STATUS 0. -/
theorem clearResetsRegistersKeepsBuffers : Obligations.ClearResetsRegistersKeepsBuffers := by
  refine ⟨by decide, fun s => ⟨s.clearRegisters.ended .ok 0, exec_clear s, ?_⟩⟩
  have status := State.statusWord_ended_clearRegisters s
  have elements (sp : Space) (k : Nat) : (s.clearRegisters.ended .ok 0).element sp k = s.element sp k := by
    rw [State.element_ended, State.element_clearRegisters]
  exact ⟨congrArg some status, rfl, rfl, rfl, rfl, rfl, status, rfl, rfl, rfl, rfl, rfl, rfl, rfl, rfl, rfl, rfl, rfl, rfl, rfl,
    rfl, rfl, rfl, rfl, rfl, rfl, rfl, rfl, elements⟩

end Sys2Proof.Machine
end

section
/-! PROOFS. FCOUNT and FT_GET: how the frequency table is filled (41_frequency_segmenter.md R141) and how an entry of it is
staged (R152). The counting loop has its specification `countSymbols_spec` in the Tables laws; here it is read at the two
texts the obligation names, one that fits the table and one that does not. -/

namespace Sys2Proof.Machine

open Sys2Proof

set_option autoImplicit false

/-! ## The empty primary input, and the number of symbols -/

/-- The code of success in the form the statements give it. -/
theorem okOrNoData_of_iff {b : Bool} {p : Prop} [Decidable p] (h : b = true ↔ p) :
    okOrNoData b = if p then .noData else .ok := by
  by_cases hp : p
  · rw [if_pos hp, okOrNoData_eq_noData, h]
    exact hp
  · rw [if_neg hp, Bool.eq_false_iff.2 (mt h.1 hp)]
    rfl

theorem State.textSymbols_length (s : State) : s.textSymbols.length = s.txtLen.toNat / s.symLen.toNat := by
  simp [State.textSymbols]

/-- A member that did not occur before is one more distinct member. -/
theorem dedup_length_lt_of_new {α : Type} [DecidableEq α] {before after : List α} {k : α} (new : k ∉ before) :
    before.dedup.length < (before ++ k :: after).dedup.length := by
  have nodup : (k :: before.dedup).Nodup := List.nodup_cons.2 ⟨mt List.mem_dedup.1 new, List.nodup_dedup before⟩
  have sub : k :: before.dedup ⊆ (before ++ k :: after).dedup := by
    intro x hx
    rw [List.mem_cons, List.mem_dedup] at hx
    rw [List.mem_dedup, List.mem_append, List.mem_cons]
    tauto
  exact (nodup.subperm sub).length_le

/-! ## FCOUNT's loop from the empty table (R141) -/

/-- A text with no more distinct symbols than the table has entries is counted whole. -/
theorem countSymbols_of_dedup_le {cap len : Nat} {syms : List Symbol} (fits : syms.dedup.length ≤ cap) :
    ∃ ft, countSymbols cap len syms 0 [] = (ft, none) ∧ Counts ft syms ∧ ftTotal ft = syms.length := by
  obtain ⟨ft, run, counts, -, total⟩ | ⟨ft, r, k, r', split, -, counts, new, full, -⟩ :=
    countSymbols_spec cap len syms [] 0 [] Counts.nil (Nat.zero_le cap)
  · exact ⟨ft, run, counts, total.trans (Nat.zero_add _)⟩
  · have entries : ft.length = r.dedup.length := Counts.length counts
    have more := dedup_length_lt_of_new (before := r) (after := r') new
    rw [← split] at more
    omega

/-- A loop that does not stop in the first part of the text goes on with the second part. -/
theorem countSymbols_append {cap len : Nat} {before : List Symbol} {pos : Nat} {ft ft' : List FtEntry}
    (run : countSymbols cap len before pos ft = (ft', none)) (rest : List Symbol) :
    countSymbols cap len (before ++ rest) pos ft = countSymbols cap len rest (pos + before.length * len) ft' := by
  induction before generalizing pos ft with
  | nil =>
    cases run
    simp
  | cons k ks ih =>
    rw [countSymbols] at run
    split at run
    · cases run
    · next room =>
      rw [List.cons_append, countSymbols, if_neg room, ih run, List.length_cons]
      congr 1
      ring

/-- With the table full of the symbols of `before`, the loop stops at the new symbol after them. -/
theorem countSymbols_stops {cap len : Nat} {before after : List Symbol} {k : Symbol} (new : k ∉ before)
    (full : before.dedup.length = cap) :
    ∃ ft, countSymbols cap len (before ++ k :: after) 0 [] = (ft, some (before.length * len)) ∧ Counts ft before ∧
      ftTotal ft = before.length := by
  obtain ⟨ft, run, counts, total⟩ := countSymbols_of_dedup_le (len := len) full.le
  have stop : ftHas k ft = false ∧ ft.length = cap :=
    ⟨ftHas_eq_false.2 (mt counts.mem_syms.1 new), counts.length.trans full⟩
  refine ⟨ft, ?_, counts, total⟩
  rw [countSymbols_append run, countSymbols, if_pos stop, Nat.zero_add]

/-! ## The three ways FCOUNT ends (R141) -/

theorem exec_fcount_badSeq {s : State} (h : s.txtLen.toNat % s.symLen.toNat ≠ 0) :
    exec .fcount s = raise .badSeq 0 s := if_pos h

theorem exec_fcount_done {s : State} {ft : List FtEntry} (whole : s.txtLen.toNat % s.symLen.toNat = 0)
    (run : countSymbols s.caps.sym.toNat s.symLen.toNat s.textSymbols 0 [] = (ft, none)) :
    exec .fcount s = done (okOrNoData s.textSymbols.isEmpty) { s with ft := ft, sl := none } := by
  rw [exec, execFcount, if_neg (not_not.2 whole), run]

theorem exec_fcount_capacity {s : State} {ft : List FtEntry} {pos : Nat}
    (whole : s.txtLen.toNat % s.symLen.toNat = 0)
    (run : countSymbols s.caps.sym.toNat s.symLen.toNat s.textSymbols 0 [] = (ft, some pos)) :
    exec .fcount s = raise .capacity pos { s with ft := ft, sl := none } := by
  rw [exec, execFcount, if_neg (not_not.2 whole), run]

/-! ## FT_GET (R152) -/

theorem decode_ftGet {imm : Nat} (h : imm < 2 ^ 24) :
    decode (BitVec.ofNat 32 (0x13 + 256 * imm)) = .command (.ftGet imm) := by
  have value : (BitVec.ofNat 32 (0x13 + 256 * imm)).toNat = 0x13 + 256 * imm := by
    rw [BitVec.toNat_ofNat]
    omega
  have opcode : (opcodeField (BitVec.ofNat 32 (0x13 + 256 * imm))).toNat = 0x13 := by
    rw [opcodeField_toNat, value]
    omega
  have operand : (operandField (BitVec.ofNat 32 (0x13 + 256 * imm))).toNat = imm := by
    rw [operandField_toNat, value]
    omega
  simp only [decode, opcode, formatI, operand]

theorem exec_ftGet_some {s : State} {imm : Nat} {e : FtEntry} (h : s.ft[imm]? = some e) :
    exec (.ftGet imm) s = done .ok { s.stageSymbol e.sym with kCnt := word e.cnt } := by
  simp only [exec, execFtGet, h]

theorem exec_ftGet_none {s : State} {imm : Nat} (h : s.ft[imm]? = none) :
    exec (.ftGet imm) s = raise .badOperand 0 s := by
  simp only [exec, execFtGet, h]

/-! ## The obligations -/

/-- Settles O24: the loop counts a text that fits, and stops at the first symbol that finds the table full. -/
theorem fcountCountsTheSymbols : Obligations.FcountCountsTheSymbols := by
  refine ⟨by decide, fun s whole fits => ?done, fun s h => ?badSeq,
    fun s before after k whole split new full => ?capacity⟩
  case done =>
    obtain ⟨ft, run, counts, total⟩ := countSymbols_of_dedup_le fits
    rw [← okOrNoData_of_iff List.isEmpty_iff]
    exact ⟨_, exec_fcount_done whole run, State.ended_Ended _ 0 rfl, rfl, counts.1, counts.2,
      total.trans s.textSymbols_length⟩
  case badSeq => exact exec_fcount_badSeq h ▸ raise_only .badSeq 0 s
  case capacity =>
    obtain ⟨ft, run, counts, total⟩ := countSymbols_stops new full
    exact ⟨_, exec_fcount_capacity whole (split ▸ run), State.ended_Ended .capacity _ rfl, rfl, counts.1, counts.2, total⟩

/-- Settles O29: an entry's symbol has SYMLEN characters, so staging it writes exactly K_SYM[0..SYMLEN). -/
theorem ftGetStagesTheEntry : Obligations.FtGetStagesTheEntry := by
  refine ⟨fun imm => decode_ftGet, fun s imm inv => ⟨fun e he => ?staged, fun beyond => ?badOperand⟩⟩
  case staged =>
    obtain ⟨reads, others⟩ := State.stageSymbol_elements e.sym s
    rw [inv.ft.symLength e (List.mem_of_getElem? he)] at reads others
    rw [State.stageSymbol_eq] at reads others
    rw [exec_ftGet_some he, State.stageSymbol_eq]
    exact ⟨_, rfl, State.ended_Ended .ok 0 rfl, rfl, reads, others⟩
  case badOperand => exact exec_ftGet_none (List.getElem?_eq_none beyond) ▸ raise_only .badOperand 0 s

end Sys2Proof.Machine
end

section
/-! PROOFS. SEGMENT (41_frequency_segmenter.md R150). Its three ways to end stand with the registers above; here is what the
padded text is, and that the padded length is the least multiple of BLKLEN. -/

namespace Sys2Proof.Machine

open Sys2Proof

set_option autoImplicit false

/-! ## What ending and a SYMLEN write leave of the text -/

@[simp] theorem State.text_ended (s : State) (c : Completion) (pos : Nat) : (s.ended c pos).text = s.text :=
  State.elements_ended s c pos .txt 0 _

@[simp] theorem State.element_setSymLen (v : Word) (s : State) (sp : Space) (k : Nat) :
    (State.setSymLen v s).element sp k = s.element sp k :=
  State.element_eq_of_memory (State.memory_setSymLen s v sp) rfl k

@[simp] theorem State.text_setSymLen (v : Word) (s : State) : (State.setSymLen v s).text = s.text :=
  State.elements_eq_of_memory (State.memory_setSymLen s v .txt) rfl 0 _

/-! ## The padded length and the padded text (R150) -/

/-- There is one multiple of `l` in `len … len + l − 1`, and it is the padded length. -/
theorem paddedLength_eq {len l p : Nat} (dvd : l ∣ p) (low : len ≤ p) (least : p < len + l) :
    paddedLength len l = p := by
  obtain ⟨q, rfl⟩ := dvd
  have quotient : (len + l - 1) / l = q :=
    Nat.div_eq_of_lt_le (by rw [Nat.mul_comm]; omega) (by rw [Nat.succ_mul, Nat.mul_comm]; omega)
  rw [paddedLength, quotient, Nat.mul_comm]

section
variable {s : State} {p : Nat} (hp : paddedLength s.txtLen.toNat s.blkLen.toNat = p) (low : s.txtLen.toNat ≤ p)
include hp low

theorem State.text_padText (small : p < 2 ^ 32) :
    s.padText.text = s.text ++ List.replicate (p - s.txtLen.toNat) charSpace := by
  have len : s.padText.txtLen.toNat = s.txtLen.toNat + (List.replicate (p - s.txtLen.toNat) charSpace).length := by
    rw [State.padText, hp, word_toNat small, List.length_replicate, Nat.add_sub_cancel' low]
  have stored (k n : Nat) : s.padText.elements .txt k n =
      (s.storeAll .txt s.txtLen.toNat (List.replicate (p - s.txtLen.toNat) charSpace)).elements .txt k n := by
    subst hp
    exact State.elements_eq_of_memory rfl rfl k n
  rw [State.text, len, stored, State.elements_append, Nat.zero_add, State.elements_storeAll_same,
    State.elements_storeAll_other _ _ _ _ _ _ _ (.inr (.inl (Nat.zero_add _).le)), State.text]

theorem State.element_padText {k : Nat} (hk : k < s.txtLen.toNat ∨ p ≤ k) :
    s.padText.element .txt k = s.element .txt k := by
  subst hp
  have stored : s.padText.element .txt k = (s.storeAll .txt s.txtLen.toNat
      (List.replicate (paddedLength s.txtLen.toNat s.blkLen.toNat - s.txtLen.toNat) charSpace)).element .txt k :=
    State.element_eq_of_memory rfl rfl k
  rw [stored, State.element_storeAll, List.length_replicate]
  exact if_neg (by omega)

end

/-- SEGMENT's whole update, field by field. -/
theorem State.setSymLen_padText (v : Word) (s : State) :
    s.padText.setSymLen v = { s with
      txt := s.padText.txt, txtLen := word (paddedLength s.txtLen.toNat s.blkLen.toNat), symLen := v, ft := [], sl := none,
      tree := .none, nodes := [], queue := [], root := NIL, ct := [] } := by
  rw [State.padText, State.storeAll_eq_setMemory]
  rfl

/-! ## The obligation -/

/-- Settles O28: the named multiple is the padded length, which selects the way SEGMENT ends; on success the state is
`padText` with its SYMLEN write. -/
theorem segmentPadsTheText : Obligations.SegmentPadsTheText := by
  refine ⟨by decide, fun s p low high dvd le least fits => ?done, fun s => ⟨fun range => ?badOperand, ?capacity⟩⟩
  case done =>
    have hp := paddedLength_eq dvd le least
    have small : p < 2 ^ 32 := fits.trans_lt s.caps.txt.isLt
    have code : okOrNoData (decide (paddedLength s.txtLen.toNat s.blkLen.toNat = 0)) = if p = 0 then .noData else .ok :=
      okOrNoData_of_iff (by rw [decide_eq_true_eq, hp])
    have err : (s.padText.setSymLen s.blkLen).err = s.err := by rw [State.setSymLen_padText]
    refine ⟨_, exec_segment_done (by omega) (by omega), code ▸ State.ended_Ended _ 0 err, ?frame, ?text, fun k hk => ?others⟩
    case frame =>
      rw [← hp, State.setSymLen_padText]
      rfl
    case text =>
      rw [State.text_ended, State.text_setSymLen, State.text_padText hp le small]
      rfl
    case others => rw [State.element_ended, State.element_setSymLen, State.element_padText hp le hk]
  case badOperand => exact exec_segment_badOperand range ▸ raise_only .badOperand 0 s
  case capacity =>
    intro p low high dvd le least tooLong
    rw [← paddedLength_eq dvd le least] at tooLong
    exact exec_segment_capacity (by omega) tooLong ▸ raise_only .capacity s.txtLen.toNat s

end Sys2Proof.Machine
end

section
/-! PROOFS. The real number 2^H of a family of counts (41_frequency_segmenter.md R146). With `p = n / N` it is the product of
`(1/p)^p` over the observed indices, so that `(2^H)^N · Π n^n = N^N`; the integer test of R147 therefore asks for `k ≤ 2^H`.
The weighted inequality of the geometric and the arithmetic mean bounds 2^H by the number of observed indices (R148). -/

namespace Sys2Proof.Machine

open Sys2Proof

set_option autoImplicit false

/-- H of the counts `n` over the indices `s`, `N` their total: −Σ p·log2 p over the observed indices (R146). -/
noncomputable def entropy {ι : Type} (s : Finset ι) (n : ι → ℕ) (N : ℕ) : ℝ :=
  -∑ c ∈ s with n c ≠ 0, (n c / N : ℝ) * Real.logb 2 (n c / N)

theorem two_rpow_neg_mul_logb {p : ℝ} (hp : 0 < p) : (2 : ℝ) ^ (-(p * Real.logb 2 p)) = p⁻¹ ^ p := by
  rw [← mul_neg, mul_comm, Real.rpow_mul two_pos.le, ← Real.logb_inv,
    Real.rpow_logb two_pos (by norm_num) (inv_pos.2 hp)]

section
variable {ι : Type} {s : Finset ι} {n : ι → ℕ} {N : ℕ} (hN : 0 < N)
include hN

theorem two_rpow_entropy :
    (2 : ℝ) ^ entropy s n N = ∏ c ∈ s with n c ≠ 0, (n c / N : ℝ)⁻¹ ^ (n c / N : ℝ) := by
  rw [entropy, ← Finset.sum_neg_distrib, Real.rpow_sum_of_pos two_pos]
  refine Finset.prod_congr rfl fun c hc => two_rpow_neg_mul_logb ?_
  have observed := (Finset.mem_filter.1 hc).2
  positivity

variable (total : ∑ c ∈ s, n c = N)
include total

theorem sum_observed_div_total : ∑ c ∈ s with n c ≠ 0, (n c / N : ℝ) = 1 := by
  rw [← Finset.sum_div, ← Nat.cast_sum, Finset.sum_filter_ne_zero, total]
  exact div_self (by positivity)

theorem two_rpow_entropy_le_card_observed : (2 : ℝ) ^ entropy s n N ≤ (s.filter (n · ≠ 0)).card := by
  rw [two_rpow_entropy hN]
  calc ∏ c ∈ s with n c ≠ 0, (n c / N : ℝ)⁻¹ ^ (n c / N : ℝ)
      ≤ ∑ c ∈ s with n c ≠ 0, (n c / N : ℝ) * (n c / N : ℝ)⁻¹ :=
        Real.geom_mean_le_arith_mean_weighted _ _ _ (fun c _ => by positivity) (sum_observed_div_total hN total)
          (fun c _ => by positivity)
    _ = ∑ c ∈ s with n c ≠ 0, (1 : ℝ) := by
        refine Finset.sum_congr rfl fun c hc => mul_inv_cancel₀ ?_
        have observed := (Finset.mem_filter.1 hc).2
        positivity
    _ = (s.filter (n · ≠ 0)).card := by rw [Finset.sum_const, nsmul_one]

theorem one_le_two_rpow_entropy : 1 ≤ (2 : ℝ) ^ entropy s n N := by
  refine Real.one_le_rpow one_le_two (neg_nonneg.2 (Finset.sum_nonpos fun c hc => ?_))
  have le : n c ≤ N := total ▸ Finset.single_le_sum (fun _ _ => Nat.zero_le _) (Finset.mem_filter.1 hc).1
  refine mul_nonpos_of_nonneg_of_nonpos (by positivity) (Real.logb_nonpos one_lt_two (by positivity) ?_)
  exact div_le_one_of_le₀ (by exact_mod_cast le) (by positivity)

theorem two_rpow_entropy_pow_mul_prod :
    ((2 : ℝ) ^ entropy s n N) ^ N * ∏ c ∈ s, (n c : ℝ) ^ n c = (N : ℝ) ^ N := by
  have onlyObserved : ∏ c ∈ s, (n c : ℝ) ^ n c = ∏ c ∈ s with n c ≠ 0, (n c : ℝ) ^ n c := by
    refine (Finset.prod_filter_of_ne fun c _ h => ?_).symm
    rintro zero
    simp [zero] at h
  have each : ∀ c ∈ s.filter (n · ≠ 0), ((n c / N : ℝ)⁻¹ ^ (n c / N : ℝ)) ^ N * (n c : ℝ) ^ n c = (N : ℝ) ^ n c := by
    intro c hc
    have observed := (Finset.mem_filter.1 hc).2
    rw [← Real.rpow_mul_natCast (by positivity), div_mul_cancel₀ _ (by positivity), Real.rpow_natCast, ← mul_pow]
    congr 1
    field_simp
  rw [two_rpow_entropy hN, onlyObserved, ← Finset.prod_pow, ← Finset.prod_mul_distrib, Finset.prod_congr rfl each,
    Finset.prod_pow_eq_pow_sum, Finset.sum_filter_ne_zero, total]

/-- The test of R147 asks whether an integer is at most the floor of 2^H. -/
theorem pow_mul_prod_le_iff (k : ℕ) : k ^ N * ∏ c ∈ s, n c ^ n c ≤ N ^ N ↔ k ≤ ⌊(2 : ℝ) ^ entropy s n N⌋₊ := by
  have prod_pos : (0 : ℝ) < ∏ c ∈ s, (n c : ℝ) ^ n c :=
    Finset.prod_pos fun c _ => by exact_mod_cast Nat.pow_self_pos
  calc k ^ N * ∏ c ∈ s, n c ^ n c ≤ N ^ N
      ↔ (k : ℝ) ^ N * ∏ c ∈ s, (n c : ℝ) ^ n c ≤ (N : ℝ) ^ N := by exact_mod_cast Iff.rfl
    _ ↔ (k : ℝ) ^ N ≤ ((2 : ℝ) ^ entropy s n N) ^ N := by
        rw [← two_rpow_entropy_pow_mul_prod hN total, mul_le_mul_iff_left₀ prod_pos]
    _ ↔ (k : ℝ) ≤ (2 : ℝ) ^ entropy s n N := pow_le_pow_iff_left₀ (by positivity) (by positivity) hN.ne'
    _ ↔ k ≤ ⌊(2 : ℝ) ^ entropy s n N⌋₊ := (Nat.le_floor_iff (by positivity)).symm

end

end Sys2Proof.Machine
end

section
/-! PROOFS. SEGLEN (41_frequency_segmenter.md R145 to R147). The model's test on the histogram is the test of R147, so its
search down from 256 finds the floor of 2^H, which is at most 256; both obligations are read off that. -/

namespace Sys2Proof.Machine

open Sys2Proof

set_option autoImplicit false

/-! ## The histogram as counts of characters -/

/-- `n_c`, how often the character of value `c` occurs in the text (R145). -/
def charCount (text : List Byte) (c : Nat) : Nat := (text.filter (fun x => x.toNat = c)).length

theorem histogram_eq_map (text : List Byte) : histogram text = (List.range 256).map (charCount text) :=
  List.map_congr_left fun _ _ => List.countP_eq_length_filter

theorem sum_charCount (text : List Byte) : ∑ c ∈ Finset.range 256, charCount text c = text.length := by
  rw [← histogram_sum, histogram_eq_map]
  rfl

/-- The product may run over all counts, since 0^0 = 1. -/
theorem selfPowers_eq (n : List Nat) : selfPowers n = (n.map (fun k => k ^ k)).prod := by
  induction n with
  | nil => rfl
  | cons k ks ih =>
    rw [selfPowers] at ih ⊢
    rcases Nat.eq_zero_or_pos k with rfl | pos
    · simp [ih]
    · simp [pos, ih]

theorem selfPowers_histogram (text : List Byte) :
    selfPowers (histogram text) = ∏ c ∈ Finset.range 256, charCount text c ^ charCount text c := by
  rw [selfPowers_eq, histogram_eq_map, List.map_map]
  rfl

theorem blockLenTest_histogram (text : List Byte) (k : Nat) :
    blockLenTest (histogram text) k = true ↔
      k ^ text.length * ∏ c ∈ Finset.range 256, charCount text c ^ charCount text c ≤ text.length ^ text.length := by
  rw [blockLenTest, decide_eq_true_eq, histogram_sum, selfPowers_histogram]

/-! ## The block length is the floor of 2^H (R146, R147) -/

/-- H of a text (R146). -/
noncomputable def textEntropy (text : List Byte) : ℝ := entropy (Finset.range 256) (charCount text) text.length

section
variable {text : List Byte} (nonempty : 0 < text.length)
include nonempty

theorem pow_mul_prod_charCount_le_iff (k : Nat) :
    k ^ text.length * ∏ c ∈ Finset.range 256, charCount text c ^ charCount text c ≤ text.length ^ text.length ↔
      k ≤ ⌊(2 : ℝ) ^ textEntropy text⌋₊ :=
  pow_mul_prod_le_iff nonempty (sum_charCount text) k

theorem one_le_floor_two_rpow_textEntropy : 1 ≤ ⌊(2 : ℝ) ^ textEntropy text⌋₊ :=
  Nat.one_le_floor_iff _ |>.2 (one_le_two_rpow_entropy nonempty (sum_charCount text))

theorem floor_two_rpow_textEntropy_le : ⌊(2 : ℝ) ^ textEntropy text⌋₊ ≤ 256 :=
  calc ⌊(2 : ℝ) ^ textEntropy text⌋₊
      ≤ ((Finset.range 256).filter (charCount text · ≠ 0)).card :=
        Nat.floor_le_of_le (two_rpow_entropy_le_card_observed nonempty (sum_charCount text))
    _ ≤ (Finset.range 256).card := Finset.card_filter_le _ _
    _ = 256 := Finset.card_range 256

theorem blockLen_histogram : blockLen (histogram text) = ⌊(2 : ℝ) ^ textEntropy text⌋₊ := by
  have test (k : Nat) : blockLenTest (histogram text) k = true ↔ k ≤ ⌊(2 : ℝ) ^ textEntropy text⌋₊ :=
    (blockLenTest_histogram text k).trans (pow_mul_prod_charCount_le_iff nonempty k)
  obtain ⟨-, -, greatest, passes⟩ := greatestPassing_spec (blockLenTest (histogram text)) 256
  have one := one_le_floor_two_rpow_textEntropy nonempty
  apply Nat.le_antisymm
  · exact (test _).1 (passes ((test 1).2 one))
  · exact greatest _ one (floor_two_rpow_textEntropy_le nonempty) ((test _).2 le_rfl)

theorem word_blockLen_toNat : (word (blockLen (histogram text))).toNat = ⌊(2 : ℝ) ^ textEntropy text⌋₊ := by
  rw [word_toNat ((blockLen_range _).2.trans_lt (by norm_num)), blockLen_histogram nonempty]

end

/-! ## The two ways SEGLEN ends (R145) -/

theorem exec_seglen_empty {s : State} (empty : s.txtLen = 0#32) :
    exec .seglen s = done .noData { s with blkLen := 1#32 } :=
  if_pos (congrArg BitVec.toNat empty)

theorem exec_seglen_done {s : State} (nonempty : s.txtLen ≠ 0#32) :
    exec .seglen s = done .ok { s with blkLen := word (blockLen (histogram s.text)) } :=
  if_neg fun zero => nonempty (BitVec.eq_of_toNat_eq zero)

@[simp] theorem State.text_length (s : State) : s.text.length = s.txtLen.toNat := State.elements_length s .txt 0 _

theorem State.text_length_pos {s : State} (nonempty : s.txtLen ≠ 0#32) : 0 < s.text.length := by
  rw [State.text_length, Nat.pos_iff_ne_zero]
  exact fun zero => nonempty (BitVec.eq_of_toNat_eq zero)

/-! ## The obligations -/

/-- Settles O25: an integer passes exactly when it is at most the floor of 2^H, which is the block length. -/
theorem seglenIsTheGreatestPassingInteger : Obligations.SeglenIsTheGreatestPassingInteger := by
  refine ⟨by decide, fun s empty => ?empty, fun s nonempty => ?done⟩
  case empty => exact ⟨_, exec_seglen_empty empty, State.ended_Ended .noData 0 rfl, rfl⟩
  case done =>
    have pos := State.text_length_pos nonempty
    refine ⟨_, exec_seglen_done nonempty, State.ended_Ended .ok 0 rfl, rfl, ?_⟩
    rw [State.ended_blkLen, word_blockLen_toNat pos, ← State.text_length]
    exact ⟨one_le_floor_two_rpow_textEntropy pos, (pow_mul_prod_charCount_le_iff pos _).2 le_rfl,
      fun k => (pow_mul_prod_charCount_le_iff pos k).1⟩

/-- Settles O26: `textEntropy` of the text is the H of the statement. -/
theorem seglenIsTheFloorOfTwoToTheEntropy : Obligations.SeglenIsTheFloorOfTwoToTheEntropy := by
  intro s t nonempty run
  rw [exec_seglen_done nonempty, done_eq_next] at run
  subst run
  rw [State.ended_blkLen, word_blockLen_toNat (State.text_length_pos nonempty), ← State.text_length]
  rfl

end Sys2Proof.Machine
end

section
/-! PROOFS. The two read-outs of the Huffman Tree Builder: ND_GET (42_huffman.md R175) and PQ_GET (R176). What PQ_GET shows is
an element of the pop order, so its rank is the number of members that come before it. -/

namespace Sys2Proof

set_option autoImplicit false

/-! ## The fields of a word `opcode + 256 · imm` (R102, R103) -/

theorem opcodeField_formatI_word {op : Nat} (hop : op < 256) (imm : Nat) :
    (opcodeField (BitVec.ofNat 32 (op + 256 * imm))).toNat = op := by
  rw [opcodeField_toNat, BitVec.toNat_ofNat]
  omega

theorem operandField_formatI_word {op imm : Nat} (hop : op < 256) (himm : imm < 2 ^ 24) :
    (operandField (BitVec.ofNat 32 (op + 256 * imm))).toNat = imm := by
  rw [operandField_toNat, BitVec.toNat_ofNat]
  omega

theorem decode_ndGet {imm : Nat} (h : imm < 2 ^ 24) :
    decode (BitVec.ofNat 32 (0x24 + 256 * imm)) = .command (.ndGet imm) := by
  have opcode := opcodeField_formatI_word (op := 0x24) (by decide) imm
  have operand := operandField_formatI_word (op := 0x24) (by decide) h
  simp only [decode, opcode, formatI, operand]

theorem decode_pqGet {imm : Nat} (h : imm < 2 ^ 24) :
    decode (BitVec.ofNat 32 (0x25 + 256 * imm)) = .command (.pqGet imm) := by
  have opcode := opcodeField_formatI_word (op := 0x25) (by decide) imm
  have operand := operandField_formatI_word (op := 0x25) (by decide) h
  simp only [decode, opcode, formatI, operand]

end Sys2Proof

namespace Sys2Proof.Machine

open Sys2Proof

set_option autoImplicit false

/-! ## ND_GET (R175) -/

section
variable {s : State} {imm : Nat}

theorem exec_ndGet_leaf {f : Nat} {c : Byte} (h : s.nodes[imm]? = some (.leaf f c)) :
    exec (.ndGet imm) s = done .ok
      { s with nTag := 0#32, nFreq := word f, nSym := c.setWidth 32, nLeft := NIL, nRight := NIL } := by
  simp only [exec, execNdGet, h]

theorem exec_ndGet_internal {f l r : Nat} (h : s.nodes[imm]? = some (.internal f l r)) :
    exec (.ndGet imm) s = done .ok
      { s with nTag := 1#32, nFreq := word f, nSym := 0#32, nLeft := word l, nRight := word r } := by
  simp only [exec, execNdGet, h]

theorem exec_ndGet_none (h : s.nodes[imm]? = none) : exec (.ndGet imm) s = raise .badOperand 0 s := by
  simp only [exec, execNdGet, h]

/-! ## PQ_GET (R176) -/

theorem exec_pqGet_some {k : Nat} (h : (popOrder s.nodes s.queue)[imm]? = some k) :
    exec (.pqGet imm) s = done .ok { s with kIdx := word k } := by
  simp only [exec, execPqGet, h]

theorem exec_pqGet_none (h : (popOrder s.nodes s.queue)[imm]? = none) :
    exec (.pqGet imm) s = raise .badOperand 0 s := by
  simp only [exec, execPqGet, h]

end

/-- The queue lists its members in rising index, in every state of the tree. -/
theorem TreeInvariant.queueRising {s : State} (h : TreeInvariant s) : s.queue.Pairwise (· < ·) := by
  cases ht : s.tree
  case none | empty =>
    obtain ⟨-, hq, -⟩ := h.bare (by simp [ht])
    rw [hq]
    exact List.Pairwise.nil
  case building | valid =>
    obtain ⟨n, hf⟩ := h.forest (by simp [ht])
    exact hf.queueRising

theorem TreeInvariant.queue_nodup {s : State} (h : TreeInvariant s) : s.queue.Nodup :=
  h.queueRising.imp Nat.ne_of_lt

theorem popOrder_length (nodes : List Node) (queue : List Nat) : (popOrder nodes queue).length = queue.length :=
  (popOrder_perm nodes queue).length_eq

/-- In a list in pop order the members before an element are those that stand in front of it. -/
theorem filter_popsBefore_getElem {nodes : List Node} {l : List Nat}
    (h : l.Pairwise (fun a b => popsBefore nodes a b = true)) {i : Nat} (hi : i < l.length) :
    l.filter (fun j => popsBefore nodes j l[i]) = l.take i := by
  have split : l = l.take i ++ l[i] :: l.drop (i + 1) := by rw [List.cons_getElem_drop_succ, List.take_append_drop]
  generalize l[i] = k at split ⊢
  generalize l.take i = front, l.drop (i + 1) = back at split ⊢
  subst split
  obtain ⟨-, hback, hfront⟩ := List.pairwise_append.1 h
  have keep : front.filter (fun j => popsBefore nodes j k) = front :=
    List.filter_eq_self.2 fun j hj => hfront j hj k List.mem_cons_self
  have drop : (k :: back).filter (fun j => popsBefore nodes j k) = [] := by
    rw [List.filter_eq_nil_iff]
    intro j hj
    rw [Bool.not_eq_true]
    obtain rfl | hj := List.mem_cons.1 hj
    · exact popsBefore_irrefl nodes j
    · exact popsBefore_asymm ((List.pairwise_cons.1 hback).1 j hj)
  rw [List.filter_append, keep, drop, List.append_nil]

/-- The element of the pop order at a rank has that many members of the queue before it. -/
theorem popOrder_rank {nodes : List Node} {queue : List Nat} (h : queue.Nodup) {i k : Nat}
    (hk : (popOrder nodes queue)[i]? = some k) : (queue.filter (fun j => popsBefore nodes j k)).length = i := by
  obtain ⟨hi, rfl⟩ := List.getElem?_eq_some_iff.1 hk
  rw [← ((popOrder_perm nodes queue).filter _).length_eq, filter_popsBefore_getElem (popOrder_pairwise h) hi,
    List.length_take, Nat.min_eq_left hi.le]

/-! ## The obligations -/

/-- Settles O36, record by record: the equation of ND_GET for a leaf, an internal record and an index beyond the arena. -/
theorem ndGetShowsTheRecord : Obligations.NdGetShowsTheRecord := by
  refine ⟨fun imm => decode_ndGet, fun s imm => ⟨fun f c h => ?leaf, fun f l r h => ?internal, fun beyond => ?badOperand⟩⟩
  case leaf =>
    rw [BitVec.ofNat_toNat]
    exact ⟨_, exec_ndGet_leaf h, State.ended_Ended .ok 0 rfl, rfl⟩
  case internal => exact ⟨_, exec_ndGet_internal h, State.ended_Ended .ok 0 rfl, rfl⟩
  case badOperand => exact exec_ndGet_none (List.getElem?_eq_none beyond) ▸ raise_only .badOperand 0 s

/-- Settles O37: the pop order lists the queue's members, each at the rank the statement counts. -/
theorem pqGetGivesTheMemberOfThatRank : Obligations.PqGetGivesTheMemberOfThatRank := by
  refine ⟨fun imm => decode_pqGet, fun s imm inv => ⟨fun within => ?member, fun beyond => ?badOperand⟩⟩
  case member =>
    rw [← popOrder_length s.nodes] at within
    have hk := List.getElem?_eq_getElem within
    refine ⟨_, _, exec_pqGet_some hk, State.ended_Ended .ok 0 rfl, rfl,
      (popOrder_perm s.nodes s.queue).mem_iff.1 (List.getElem_mem within), ?_⟩
    simpa only [← popsBefore_iff, Bool.decide_eq_true] using popOrder_rank inv.tree.queue_nodup hk
  case badOperand =>
    rw [← popOrder_length s.nodes] at beyond
    exact exec_pqGet_none (List.getElem?_eq_none beyond) ▸ raise_only .badOperand 0 s

end Sys2Proof.Machine
end

section
/-! PROOFS. HINIT and HSTEP (42_huffman.md R161, R163). HINIT is the update `startTree`; HSTEP is one merge, whose laws
`mergeStep_spec` and `Forest.merge` stand in the Orders and Tree laws. -/

namespace Sys2Proof.Machine

open Sys2Proof

set_option autoImplicit false

/-! ## HINIT -/

theorem exec_hinit_badSeq {s : State} (h : s.symLen ≠ 1#32) : exec .hinit s = raise .badSeq 0 s := if_pos h

theorem exec_hinit_done {s : State} (h : s.symLen = 1#32) :
    exec .hinit s = done (okOrNoData s.ft.isEmpty) (startTree s) := if_neg (not_not.2 h)

@[simp] theorem startTree_nodes (s : State) : (startTree s).nodes = s.ft.map leafOf := rfl
@[simp] theorem startTree_queue (s : State) : (startTree s).queue = List.range s.ft.length := rfl

@[simp] theorem startTree_root (s : State) : (startTree s).root = if s.ft.length = 1 then 0#32 else NIL := rfl

@[simp] theorem startTree_tree (s : State) :
    (startTree s).tree = if s.ft.length = 0 then .empty else if s.ft.length = 1 then .valid else .building := rfl

/-- The leaf of an entry over one character (R161). -/
theorem leafOf_of_sym {e : FtEntry} {c : Byte} (h : e.sym = [c]) : leafOf e = .leaf e.cnt c := by
  rw [leafOf, h, List.headD_cons]

/-- Where SYMLEN is 1 every entry's symbol is one character. -/
theorem FtInvariant.length_sym {s : State} (h : FtInvariant s) (one : s.symLen = 1#32) :
    ∀ e ∈ s.ft, e.sym.length = 1 := by
  intro e he
  rw [h.symLength e he, one]
  rfl

/-! ## HSTEP -/

theorem exec_hstep_badSeq {s : State} (h : s.tree ≠ .building) : exec .hstep s = raise .badSeq 0 s := if_pos h

theorem exec_hstep_done {s t : State} (h : s.tree = .building) (merge : mergeStep s = some t) :
    exec .hstep s = done .ok t := by
  rw [exec, execHstep, if_neg (not_not.2 h), merge]

/-! ## The obligations -/

/-- Settles O30: the fields of `startTree`, with an entry's symbol one character by the invariant of FT. -/
theorem hinitMakesOneLeafPerEntry : Obligations.HinitMakesOneLeafPerEntry := by
  refine ⟨by decide, fun s inv => ⟨fun one => ?done, fun other => exec_hinit_badSeq other ▸ raise_only .badSeq 0 s⟩⟩
  rw [← okOrNoData_of_iff List.isEmpty_iff]
  refine ⟨_, exec_hinit_done one, State.ended_Ended _ 0 rfl, rfl, by simp, fun k e he => ?leaf, by simp, by simp,
    fun h => ?empty, fun h => ?single, fun h => ?several⟩
  case leaf =>
    obtain ⟨c, hc⟩ := List.length_eq_one_iff.1 (inv.ft.length_sym one e (List.mem_of_getElem? he))
    exact ⟨c, hc, by simp [he, leafOf_of_sym hc]⟩
  case empty => simp [h, NIL]
  case single => simp [h]
  case several =>
    have h0 : s.ft.length ≠ 0 := by omega
    have h1 : s.ft.length ≠ 1 := by omega
    simp [h0, h1, NIL]

/-- Settles O31: `mergeStep_spec` names the two members, and whether a third is left decides TREE and ROOT. -/
theorem hstepMergesTheTwoLowest : Obligations.HstepMergesTheTwoLowest := by
  refine ⟨by decide, fun s inv => ⟨fun building => ?merge, fun other => exec_hstep_badSeq other ▸ raise_only .badSeq 0 s⟩⟩
  obtain ⟨two, root⟩ := inv.tree.building building
  obtain ⟨a, b, q, ha, hb, hab, first, second, hq, length, merge⟩ := mergeStep_spec inv.tree.queue_nodup two
  refine ⟨_, a, b, exec_hstep_done building merge, State.ended_Ended .ok 0 rfl, rfl, ha, hb, hab,
    ⟨popsBefore_iff.1 first, fun k hk hka hkb => popsBefore_iff.1 (second k hk hka hkb)⟩, rfl, ?queue, ?length,
    fun h => ?last, fun h => ?earlier⟩
  case queue => simp [hq]
  case length =>
    rw [State.ended_queue, List.length_append, List.length_singleton]
    omega
  case last =>
    have hnil : q = [] := List.length_eq_zero_iff.1 (by omega)
    simp [hnil, word]
  case earlier =>
    have hne : q ≠ [] := List.ne_nil_of_length_pos (by omega)
    simp [hne, building, root, NIL]

end Sys2Proof.Machine
end

section
/-! PROOFS. HBUILD (42_huffman.md R164). `Merging m` holds of a build with `m` merges to go: HINIT makes it, a merge takes it
one down, and at 0 the tree is VALID. HBUILD's loop and the sequence of HSTEPs are followed side by side along it. -/

namespace Sys2Proof.Machine

open Sys2Proof

set_option autoImplicit false

theorem exec_hbuild_badSeq {s : State} (h : s.symLen ≠ 1#32) : exec .hbuild s = raise .badSeq 0 s := if_pos h

theorem exec_hbuild_done {s : State} (h : s.symLen = 1#32) :
    exec .hbuild s = done (okOrNoData s.ft.isEmpty) (mergeWhileBuilding s.ft.length (startTree s)) :=
  if_neg (not_not.2 h)

theorem mergeWhileBuilding_of_not_building {s : State} (h : s.tree ≠ .building) (n : Nat) :
    mergeWhileBuilding n s = s := by
  cases n with
  | zero => rfl
  | succ n => rw [mergeWhileBuilding, if_pos h]

theorem mergeWhileBuilding_succ {s t : State} (h : s.tree = .building) (merge : mergeStep s = some t) (n : Nat) :
    mergeWhileBuilding (n + 1) s = mergeWhileBuilding n t := by
  rw [mergeWhileBuilding, if_neg (not_not.2 h), merge]

theorem execAll_cons {i : Instr} {is : List Instr} {s t : State} (h : exec i s = .next t) :
    execAll (i :: is) s = execAll is t := by
  rw [execAll, h]

/-! ## A build with merges to go -/

/-- A Huffman build with `m` merges to go: a forest of `m + 1` trees, VALID when it is down to one (R31). -/
structure Merging (m : Nat) (s : State) : Prop where
  forest : ∃ n, Forest n s.nodes s.queue
  queue : s.queue.length = m + 1
  tree : s.tree = if m = 0 then .valid else .building

theorem startTree_merging {s : State} {m : Nat} (inv : Invariant s) (one : s.symLen = 1#32)
    (size : s.ft.length = m + 1) : Merging m (startTree s) where
  forest := by
    have nonempty : s.ft ≠ [] := List.ne_nil_of_length_pos (by omega)
    have total : ftTotal s.ft < 2 ^ 32 := inv.ft.total.trans_lt s.caps.txt.isLt
    exact ⟨_, startTree_forest nonempty inv.ft.ascend (inv.ft.length_sym one) total⟩
  queue := by rw [startTree_queue, List.length_range, size]
  tree := by simp [size]

theorem Merging.valid {s : State} (h : Merging 0 s) : s.tree = .valid := h.tree

theorem Merging.building {m : Nat} {s : State} (h : Merging (m + 1) s) : s.tree = .building := h.tree

/-- A merge leaves one merge fewer to go. -/
theorem Merging.mergeStep {m : Nat} {s : State} (h : Merging (m + 1) s) :
    ∃ t, mergeStep s = some t ∧ Merging m t := by
  obtain ⟨n, forest⟩ := h.forest
  have two : 2 ≤ s.queue.length := by rw [h.queue]; omega
  obtain ⟨a, b, q, ha, hb, hab, -, -, rfl, length, merge⟩ :=
    mergeStep_spec (forest.queueRising.imp Nat.ne_of_lt) two
  rw [h.queue] at length
  refine ⟨_, merge, ⟨n, forest.merge ha hb hab⟩, ?queue, ?tree⟩
  case queue =>
    rw [List.length_append, List.length_singleton]
    omega
  case tree =>
    have last : s.queue.filter (fun j => j ≠ a ∧ j ≠ b) = [] ↔ m = 0 := by
      rw [← List.length_eq_zero_iff]
      omega
    simp only [last, h.building]

/-! ## HSTEP after a command that ended OK -/

/-- A merge neither reads nor writes the record of an end. -/
theorem mergeStep_endedAs (s u : State) : mergeStep (s.endedAs u) = (mergeStep s).map (fun t => t.endedAs u) := by
  cases hfirst : popMin s.nodes s.queue with
  | none => simp [mergeStep, State.endedAs, hfirst]
  | some first =>
    cases hsecond : popMin s.nodes first.2 <;> simp [mergeStep, State.endedAs, hfirst, hsecond]

/-- An HSTEP on what an OK left ends as it would have ended without that OK. -/
theorem exec_hstep_ended {s t : State} (h : s.tree = .building) (merge : mergeStep s = some t) :
    exec .hstep (s.ended .ok 0) = .next (t.ended .ok 0) := by
  have merge' : mergeStep (s.ended .ok 0) = some (t.endedAs (s.ended .ok 0)) := by
    rw [State.ended_eq s, mergeStep_endedAs, merge]
    rfl
  have err : nextErr .ok s.err = t.err := by rw [nextErr_success _ rfl, mergeStep_frame merge]
  have ended : (t.endedAs (s.ended .ok 0)).ended .ok 0 = { t with err := nextErr .ok s.err }.ended .ok 0 := rfl
  rw [exec_hstep_done (s := s.ended .ok 0) h merge', done, ended, err]

/-- The loop run to the end and that many HSTEPs leave the same state, with TREE VALID. -/
theorem Merging.hsteps {m : Nat} {s : State} (h : Merging m s) :
    execAll (List.replicate m .hstep) (s.ended .ok 0) = done .ok (mergeWhileBuilding (m + 1) s) ∧
      (mergeWhileBuilding (m + 1) s).tree = .valid := by
  induction m generalizing s with
  | zero =>
    have stop : s.tree ≠ .building := by rw [h.valid]; decide
    rw [mergeWhileBuilding_of_not_building stop]
    exact ⟨rfl, h.valid⟩
  | succ m ih =>
    obtain ⟨t, merge, ht⟩ := h.mergeStep
    rw [mergeWhileBuilding_succ h.building merge, List.replicate_succ, execAll_cons (exec_hstep_ended h.building merge)]
    exact ih ht

/-! ## The obligation -/

/-- Settles O32: an empty FT leaves nothing to merge, any other starts a build with FT_N − 1 merges to go. -/
theorem hbuildIsHinitThenHsteps : Obligations.HbuildIsHinitThenHsteps := by
  refine ⟨by decide, fun s inv => ⟨fun one => ?done, fun other => exec_hbuild_badSeq other ▸ raise_only .badSeq 0 s⟩⟩
  refine ⟨_, exec_hbuild_done one, ?_⟩
  rw [execAll_cons (exec_hinit_done one)]
  rcases hft : s.ft with _ | ⟨e, es⟩
  case nil => exact ⟨rfl, rfl, fun _ => by simp [mergeWhileBuilding, hft], fun h => absurd rfl h⟩
  case cons =>
    have size : s.ft.length = es.length + 1 := by rw [hft, List.length_cons]
    obtain ⟨steps, valid⟩ := (startTree_merging inv one size).hsteps
    exact ⟨steps, rfl, fun h => absurd h (List.cons_ne_nil e es), fun _ => valid⟩

end Sys2Proof.Machine
end

section
/-! PROOFS. HCODES (42_huffman.md R170 to R172). The arena of a VALID tree is a forest of one tree whose root is its last
record; the walk from it has its specification `Forest.leafPaths_spec` in the Tree laws. What R170 and R172 say of the table
is read off that, and the one-leaf tree (R171) is the case of a leaf at the root. -/

namespace Sys2Proof.Machine

open Sys2Proof

set_option autoImplicit false

/-! ## The ways HCODES ends -/

section
variable {s : State}

theorem exec_hcodes_valid (h : s.tree = .valid) :
    exec .hcodes s = done .ok { s with ct := treeCodes s.nodes s.root.toNat } := by
  simp only [exec, execHcodes, h]

theorem exec_hcodes_empty (h : s.tree = .empty) : exec .hcodes s = done .noData { s with ct := [] } := by
  simp only [exec, execHcodes, h]

theorem exec_hcodes_badSeq (h : s.tree = .none ∨ s.tree = .building) : exec .hcodes s = raise .badSeq 0 s := by
  rcases h with h | h <;> simp only [exec, execHcodes, h]

/-- HCODES ends with OK only where the tree is VALID. -/
theorem exec_hcodes_ok {t : State} (h : exec .hcodes s = .next t) (hc : t.code = .ok) :
    s.tree = .valid ∧ t.ct = treeCodes s.nodes s.root.toNat := by
  cases ht : s.tree
  case none | building =>
    rw [exec_hcodes_badSeq (by simp [ht]), raise_eq_next] at h
    subst h
    cases hc
  case empty =>
    rw [exec_hcodes_empty ht, done_eq_next] at h
    subst h
    cases hc
  case valid =>
    rw [exec_hcodes_valid ht, done_eq_next] at h
    subst h
    exact ⟨rfl, rfl⟩

end

/-! ## The leaves in the order of the arena -/

/-- A record is a leaf or internal. -/
theorem record_cases {nodes : List Node} {i : Nat} (hi : i < nodes.length) :
    (∃ f c, nodes[i]? = some (Node.leaf f c)) ∨ ∃ f l r, nodes[i]? = some (Node.internal f l r) := by
  rw [List.getElem?_eq_getElem hi]
  cases nodes[i] with
  | leaf f c => exact .inl ⟨f, c, rfl⟩
  | internal f l r => exact .inr ⟨f, l, r, rfl⟩

theorem mem_leafSymbols {nodes : List Node} {x : Symbol} :
    x ∈ leafSymbols nodes ↔ ∃ (k g : Nat) (c : Byte), nodes[k]? = some (Node.leaf g c) ∧ x = [c] := by
  rw [leafSymbols, List.mem_filterMap]
  constructor
  · rintro ⟨m | m, hm, hx⟩
    · obtain ⟨k, hk⟩ := List.getElem?_of_mem hm
      exact ⟨k, _, _, hk, (Option.some.inj hx).symm⟩
    · cases hx
  · rintro ⟨k, g, c, hk, rfl⟩
    exact ⟨_, List.mem_of_getElem? hk, rfl⟩

theorem Forest.leafSymbols_ascend {n : Nat} {nodes : List Node} {queue : List Nat} (h : Forest n nodes queue) :
    SymbolsAscend (leafSymbols nodes) := by
  refine List.pairwise_filterMap.2 (List.pairwise_iff_getElem.2 fun i j hi hj hij => ?_)
  intro x hx y hy
  cases hm : nodes[i] <;> rw [hm] at hx <;> cases hx
  cases hm' : nodes[j] <;> rw [hm'] at hy <;> cases hy
  rw [symLt_singleton]
  exact h.leavesAscend i j _ _ _ _ hij (List.getElem?_eq_some_iff.2 ⟨hi, hm⟩) (List.getElem?_eq_some_iff.2 ⟨hj, hm'⟩)

/-! ## The code table of a tree -/

/-- A VALID tree is a forest of one tree, whose root ROOT names (R31). -/
theorem TreeInvariant.valid_forest {s : State} (h : TreeInvariant s) (valid : s.tree = .valid) :
    s.root.toNat < s.nodes.length ∧ ∃ n, Forest n s.nodes [s.root.toNat] := by
  obtain ⟨n, forest⟩ := h.forest (.inr valid)
  obtain ⟨queue, root⟩ := h.valid valid
  rw [queue] at forest
  have count := forest.count
  have few := forest.leavesMax
  have positive := forest.leavesPos
  rw [List.length_singleton] at count
  have last : s.root.toNat = s.nodes.length - 1 := by
    rw [root, BitVec.toNat_ofNat]
    omega
  rw [last]
  exact ⟨by omega, n, forest⟩

theorem treeCodes_leaf {nodes : List Node} {root f : Nat} {c : Byte} (h : nodes[root]? = some (.leaf f c)) :
    treeCodes nodes root = [⟨[c], [false]⟩] := by
  rw [treeCodes, h]

theorem treeCodes_internal {nodes : List Node} {root f l r : Nat} (h : nodes[root]? = some (.internal f l r)) :
    treeCodes nodes root = ctOf (leafPaths nodes nodes.length root []) := by
  rw [treeCodes, h]

section
variable {n : Nat} {nodes : List Node} {root : Nat} (h : Forest n nodes [root]) (hroot : root < nodes.length)
include h hroot

/-- The table of a tree ascends in its symbols. -/
theorem Forest.treeCodes_ascend : SymbolsAscend ((treeCodes nodes root).map CtEntry.sym) := by
  obtain ⟨f, c, hm⟩ | ⟨f, l, r, hm⟩ := record_cases hroot
  · simp [treeCodes_leaf hm, SymbolsAscend]
  · rw [treeCodes_internal hm]
    exact ctOf_ascend (h.leafPaths_syms _ root [] hroot hroot)

/-- The codes of a tree's table satisfy R172. -/
theorem Forest.treeCodes_prefixFree : PrefixFree ((treeCodes nodes root).map CtEntry.code) := by
  obtain ⟨f, c, hm⟩ | ⟨f, l, r, hm⟩ := record_cases hroot
  · simp [treeCodes_leaf hm, PrefixFree]
  · rw [treeCodes_internal hm]
    obtain ⟨-, free, -⟩ := h.leafPaths_spec _ root [] hroot hroot
    exact free.perm ((ctOf_perm _).symm.map _)

/-- Below an internal root the table holds exactly the leaves with their root paths. -/
theorem Forest.mem_treeCodes {f l r : Nat} (hm : nodes[root]? = some (.internal f l r)) (e : CtEntry) :
    e ∈ treeCodes nodes root ↔
      ∃ k g c, follow nodes root e.code = some k ∧ nodes[k]? = some (Node.leaf g c) ∧ e.sym = [c] := by
  rw [treeCodes_internal hm, (ctOf_perm _).mem_iff]
  obtain ⟨mem, -, -⟩ := h.leafPaths_spec _ root [] hroot hroot
  simp [mem]

omit hroot in
/-- A tree whose root is a leaf has no other record. -/
theorem Forest.eq_root_of_leaf {f : Nat} {c : Byte} (hm : nodes[root]? = some (.leaf f c)) {k : Nat}
    (hk : k < nodes.length) : k = root := by
  obtain ⟨_ | ⟨b, p⟩, hp⟩ := h.reach k hk
  · exact (Option.some.inj hp).symm
  · simp [follow, hm] at hp

/-- The symbols of a tree's table are its leaves'. -/
theorem Forest.mem_treeCodes_syms (x : Symbol) :
    x ∈ (treeCodes nodes root).map CtEntry.sym ↔ x ∈ leafSymbols nodes := by
  rw [mem_leafSymbols, List.mem_map]
  obtain ⟨f, c, hm⟩ | ⟨f, l, r, hm⟩ := record_cases hroot
  · rw [treeCodes_leaf hm]
    constructor
    · rintro ⟨e, he, rfl⟩
      rw [List.mem_singleton.1 he]
      exact ⟨root, f, c, hm, rfl⟩
    · rintro ⟨k, g, d, hk, rfl⟩
      rw [h.eq_root_of_leaf hm (List.getElem?_eq_some_iff.1 hk).1, hm] at hk
      cases hk
      exact ⟨_, List.mem_singleton_self _, rfl⟩
  · have mem := h.mem_treeCodes hroot hm
    constructor
    · rintro ⟨e, he, rfl⟩
      obtain ⟨k, g, c, -, hk, hs⟩ := (mem e).1 he
      exact ⟨k, g, c, hk, hs⟩
    · rintro ⟨k, g, c, hk, rfl⟩
      obtain ⟨p, hp⟩ := h.reach k (List.getElem?_eq_some_iff.1 hk).1
      exact ⟨⟨[c], p⟩, (mem _).2 ⟨k, g, c, hp, hk, rfl⟩, rfl⟩

/-- The symbols of a tree's table are its leaves', in the order of the arena. -/
theorem Forest.treeCodes_syms : (treeCodes nodes root).map CtEntry.sym = leafSymbols nodes := by
  have ascend := h.treeCodes_ascend hroot
  have ascend' := h.leafSymbols_ascend
  exact ascend.eq_of_perm ascend'
    ((List.perm_ext_iff_of_nodup ascend.nodup ascend'.nodup).2 (h.mem_treeCodes_syms hroot))

/-- In a table of two or more entries every code has a bit and leads from the root to its leaf. -/
theorem Forest.treeCodes_paths (two : 2 ≤ (treeCodes nodes root).length) {e : CtEntry} (he : e ∈ treeCodes nodes root) :
    1 ≤ e.code.length ∧
      ∃ k g c, follow nodes root e.code = some k ∧ nodes[k]? = some (Node.leaf g c) ∧ e.sym = [c] := by
  obtain ⟨f, c, hm⟩ | ⟨f, l, r, hm⟩ := record_cases hroot
  · rw [treeCodes_leaf hm] at two
    exact absurd two (by simp)
  · obtain ⟨k, g, c, path, leaf, sym⟩ := (h.mem_treeCodes hroot hm e).1 he
    refine ⟨List.length_pos_iff.2 fun empty => ?_, k, g, c, path, leaf, sym⟩
    rw [empty] at path
    obtain rfl : root = k := Option.some.inj path
    rw [hm] at leaf
    cases leaf

end

/-! ## The obligations -/

/-- Settles O34: the table is `treeCodes` of the arena, which is one leaf's table or holds the root paths. -/
theorem hcodesGivesRootPaths : Obligations.HcodesGivesRootPaths := by
  refine ⟨by decide, fun s inv => ⟨fun valid => ?valid, fun empty => ?empty,
    fun unfinished => exec_hcodes_badSeq unfinished ▸ raise_only .badSeq 0 s⟩⟩
  case valid =>
    obtain ⟨hroot, n, forest⟩ := inv.tree.valid_forest valid
    exact ⟨_, exec_hcodes_valid valid, State.ended_Ended .ok 0 rfl, rfl, forest.treeCodes_ascend hroot,
      fun f c leaf => treeCodes_leaf leaf, fun f l r internal => forest.mem_treeCodes hroot internal⟩
  case empty => exact ⟨_, exec_hcodes_empty empty, State.ended_Ended .noData 0 rfl, rfl⟩

/-- Settles O35: the table that an OK leaves is that of a VALID tree, which is a forest of one tree. -/
theorem huffmanTableIsPrefixFree : Obligations.HuffmanTableIsPrefixFree := by
  intro s t inv run ok
  obtain ⟨valid, table⟩ := exec_hcodes_ok run ok
  obtain ⟨hroot, n, forest⟩ := inv.tree.valid_forest valid
  rw [table]
  exact ⟨forest.treeCodes_prefixFree hroot, forest.treeCodes_syms hroot, fun two e => forest.treeCodes_paths hroot two⟩

end Sys2Proof.Machine
end

section
/-! PROOFS. The sorted list and its read-out: SFSORT (43_shannon_fano.md R191) and SL_GET (R201). The sort itself has its
specification `sortedList_spec` in the Order laws. -/

namespace Sys2Proof.Machine

open Sys2Proof

set_option autoImplicit false

/-! ## The two commands, one equation per way to end -/

theorem exec_sfsort (s : State) :
    exec .sfsort s = done (okOrNoData s.ft.isEmpty) { s with sl := some (sortedList s.ft) } := rfl

section
variable {s : State} {imm : Nat}

theorem exec_slGet_some {l : List Nat} {a : Nat} (hl : s.sl = some l) (ha : l[imm]? = some a) :
    exec (.slGet imm) s = done .ok { s with kIdx := word a } := by
  simp only [exec, execSlGet, hl, ha]

theorem exec_slGet_badSeq (hl : s.sl = none) : exec (.slGet imm) s = raise .badSeq 0 s := by
  simp only [exec, execSlGet, hl]

theorem exec_slGet_badOperand {l : List Nat} (hl : s.sl = some l) (beyond : l.length ≤ imm) :
    exec (.slGet imm) s = raise .badOperand 0 s := by
  simp only [exec, execSlGet, hl, List.getElem?_eq_none beyond]

end

theorem decode_slGet {imm : Nat} (h : imm < 2 ^ 24) :
    decode (BitVec.ofNat 32 (0x33 + 256 * imm)) = .command (.slGet imm) := by
  have opcode := opcodeField_formatI_word (op := 0x33) (by decide) imm
  have operand := operandField_formatI_word (op := 0x33) (by decide) h
  simp only [decode, opcode, formatI, operand]

/-! ## The counts and the length of a sorted list -/

theorem cntOf_of_getElem? {ft : List FtEntry} {i : Nat} {e : FtEntry} (h : ft[i]? = some e) : cntOf ft i = e.cnt := by
  rw [cntOf, h]

theorem length_of_perm_range {l : List Nat} {n : Nat} (h : l.Perm (List.range n)) : l.length = n :=
  h.length_eq.trans List.length_range

/-! ## The obligations -/

/-- Settles O38: the sorted list is a permutation of the entry indices whose earlier elements sort before the later ones. -/
theorem sfsortSortsByCountThenIndex : Obligations.SfsortSortsByCountThenIndex := by
  refine ⟨by decide, fun s => ?_⟩
  obtain ⟨perm, sorted⟩ := sortedList_spec s.ft
  rw [← okOrNoData_of_iff List.isEmpty_iff]
  refine ⟨_, _, exec_sfsort s, State.ended_Ended _ 0 rfl, rfl, perm, fun j k a b d e hjk ha hb hd he => ?order⟩
  case order =>
    obtain ⟨hj, rfl⟩ := List.getElem?_eq_some_iff.1 ha
    obtain ⟨hk, rfl⟩ := List.getElem?_eq_some_iff.1 hb
    have before := sortsBefore_iff.1 (List.pairwise_iff_getElem.1 sorted j k hj hk hjk)
    rwa [cntOf_of_getElem? hd, cntOf_of_getElem? he] at before

/-- Settles O43: a valid list has FT_N elements, so `imm` names one of them exactly when it is below FT_N. -/
theorem slGetGivesTheElement : Obligations.SlGetGivesTheElement := by
  refine ⟨fun imm => decode_slGet, fun s imm inv => ⟨fun l a hl ha => ?element,
    fun hl => exec_slGet_badSeq hl ▸ raise_only .badSeq 0 s, fun hsl beyond => ?badOperand⟩⟩
  case element => exact ⟨_, exec_slGet_some hl ha, State.ended_Ended .ok 0 rfl, rfl⟩
  case badOperand =>
    obtain ⟨l, hl⟩ := Option.ne_none_iff_exists'.1 hsl
    have length := length_of_perm_range (inv.sl l hl).1
    exact exec_slGet_badOperand hl (length ▸ beyond) ▸ raise_only .badOperand 0 s

end Sys2Proof.Machine
end

section
/-! PROOFS. The split index and the code table of the partition: SFPART and SFBUILD (43_shannon_fano.md R192 to R200). The
split search and the partition have their specifications `splitIndex_spec` and `partition_spec` in the Partition laws; here
the table that SFPART makes of the partition gets its own. -/

namespace Sys2Proof.Machine

open Sys2Proof

set_option autoImplicit false

/-! ## The imbalance (R195) -/

/-- |T − 2·C_i| as the integer of rule R195. -/
theorem imbalanceAt_eq_abs (counts : List Nat) (i : Nat) :
    (imbalanceAt counts i : Int) = |(counts.sum : Int) - 2 * ((counts.take i).sum : Int)| :=
  Int.natCast_natAbs _

/-! ## The three ways to end (R192, R200) -/

theorem exec_sfpart_badSeq {s : State} (hl : s.sl = none) : exec .sfpart s = raise .badSeq 0 s := by
  simp only [exec, execSfpart, hl]

theorem exec_sfpart_done {s : State} {l : List Nat} (hl : s.sl = some l) :
    exec .sfpart s = done (okOrNoData s.ft.isEmpty) { s with ct := partitionCodes (blocksOf s.ft l) } := by
  simp only [exec, execSfpart, hl, finishPartition]

theorem exec_sfbuild (s : State) :
    exec .sfbuild s = done (okOrNoData s.ft.isEmpty)
      { s with sl := some (sortedList s.ft), ct := partitionCodes (blocksOf s.ft (sortedList s.ft)) } := rfl

/-- SFPART ends with OK only where there is a sorted list. -/
theorem exec_sfpart_ok {s t : State} (h : exec .sfpart s = .next t) (hc : t.code = .ok) :
    ∃ l, s.sl = some l ∧ t.ct = partitionCodes (blocksOf s.ft l) := by
  cases hl : s.sl with
  | none =>
    rw [exec_sfpart_badSeq hl, raise_eq_next] at h
    subst h
    cases hc
  | some l =>
    rw [exec_sfpart_done hl, done_eq_next] at h
    subst h
    exact ⟨l, rfl, rfl⟩

/-- Two success-class ends in a row are the second alone. -/
theorem State.ended_ended_success (s : State) {c : Completion} (hc : c.isError = false) (d : Completion) (p q : Nat) :
    (s.ended c p).ended d q = s.ended d q := by
  rw [State.ended_ended, nextErr_success s.err hc]

/-! ## The table of a list of blocks (R192, R194) -/

theorem partitionCodes_lone (b : FtEntry) : partitionCodes [b] = [⟨b.sym, [false]⟩] := rfl

theorem partitionCodes_eq_ctOf {blocks : List FtEntry} (h : blocks.length ≠ 1) :
    partitionCodes blocks = ctOf (partition blocks.length blocks []) := by
  unfold partitionCodes
  split
  · exact absurd rfl h
  · rfl

/-- The table has exactly one entry per block. -/
theorem partitionCodes_syms_perm (blocks : List FtEntry) :
    ((partitionCodes blocks).map CtEntry.sym).Perm (blocks.map FtEntry.sym) := by
  by_cases lone : blocks.length = 1
  · obtain ⟨b, rfl⟩ := List.length_eq_one_iff.1 lone
    exact List.Perm.refl _
  · obtain ⟨syms, -, -⟩ := partition_spec blocks.length blocks [] le_rfl
    rw [partitionCodes_eq_ctOf lone, ← syms]
    exact (ctOf_perm _).map _

/-- The table ascends in its symbols when no two blocks have the same one. -/
theorem partitionCodes_ascend {blocks : List FtEntry} (h : (blocks.map FtEntry.sym).Nodup) :
    SymbolsAscend ((partitionCodes blocks).map CtEntry.sym) := by
  by_cases lone : blocks.length = 1
  · obtain ⟨b, rfl⟩ := List.length_eq_one_iff.1 lone
    exact List.pairwise_singleton _ _
  · obtain ⟨syms, -, -⟩ := partition_spec blocks.length blocks [] le_rfl
    rw [partitionCodes_eq_ctOf lone]
    exact ctOf_ascend (syms ▸ h)

theorem partitionCodes_prefixFree (blocks : List FtEntry) : PrefixFree ((partitionCodes blocks).map CtEntry.code) := by
  by_cases lone : blocks.length = 1
  · obtain ⟨b, rfl⟩ := List.length_eq_one_iff.1 lone
    exact List.pairwise_singleton _ _
  · obtain ⟨-, -, free⟩ := partition_spec blocks.length blocks [] le_rfl
    rw [partitionCodes_eq_ctOf lone]
    exact free.perm ((ctOf_perm _).symm.map _)

/-- A code of the table has a bit, and with two or more blocks fewer bits than there are blocks (R198). -/
theorem partitionCodes_code_length {blocks : List FtEntry} {e : CtEntry} (he : e ∈ partitionCodes blocks) :
    1 ≤ e.code.length ∧ (2 ≤ blocks.length → e.code.length ≤ blocks.length - 1) := by
  by_cases lone : blocks.length = 1
  · obtain ⟨b, rfl⟩ := List.length_eq_one_iff.1 lone
    rw [partitionCodes_lone, List.mem_singleton] at he
    subst he
    exact ⟨le_rfl, fun two => absurd two (by simp)⟩
  · rw [partitionCodes_eq_ctOf lone, (ctOf_perm _).mem_iff] at he
    obtain ⟨-, bounds, -⟩ := partition_spec blocks.length blocks [] le_rfl
    obtain ⟨-, upper, lower⟩ := bounds e he
    have pos : 0 < blocks.length := by
      rw [List.length_pos_iff]
      rintro rfl
      cases he
    rw [List.length_nil] at upper lower
    exact ⟨lower (by omega), fun _ => by omega⟩

/-- With the blocks of a sorted list the table has the symbols of FT, in FT's order. -/
theorem partitionCodes_blocksOf_syms {ft : List FtEntry} {l : List Nat} (ascend : SymbolsAscend (ft.map FtEntry.sym))
    (perm : l.Perm (List.range ft.length)) :
    (partitionCodes (blocksOf ft l)).map CtEntry.sym = ft.map FtEntry.sym := by
  have syms : ((blocksOf ft l).map FtEntry.sym).Perm (ft.map FtEntry.sym) := (blocksOf_perm perm).map _
  have nodup : ((blocksOf ft l).map FtEntry.sym).Nodup := syms.nodup_iff.2 ascend.nodup
  exact (partitionCodes_ascend nodup).eq_of_perm ascend ((partitionCodes_syms_perm _).trans syms)

/-! ## The obligations -/

/-- Settles O39: `splitIndex_spec` with the imbalance read as an integer. -/
theorem splitIsTheFirstMinimum : Obligations.SplitIsTheFirstMinimum := by
  intro counts two
  obtain ⟨low, high, least⟩ := splitIndex_spec two
  simp only [← imbalanceAt_eq_abs, Nat.cast_le, Nat.cast_lt]
  exact ⟨low, high, least⟩

/-- Settles O41: what holds of the table of any list of blocks, for the blocks of the sorted list, which are FT's entries. -/
theorem shannonFanoTableIsPrefixFree : Obligations.ShannonFanoTableIsPrefixFree := by
  intro s t inv run ok
  obtain ⟨l, hl, table⟩ := exec_sfpart_ok run ok
  obtain ⟨perm, -⟩ := inv.sl l hl
  have length : (blocksOf s.ft l).length = s.ft.length := (blocksOf_perm perm).length_eq
  rw [table, ← length]
  exact ⟨partitionCodes_prefixFree _, partitionCodes_blocksOf_syms inv.ft.ascend perm,
    fun e he => (partitionCodes_code_length he).1, fun e he => (partitionCodes_code_length he).2⟩

/-- Settles O42: SFPART finds the list that SFSORT left, and its end overwrites SFSORT's, which was no error. -/
theorem sfbuildIsSfsortThenSfpart : Obligations.SfbuildIsSfsortThenSfpart := by
  refine ⟨by decide, fun s => ⟨_, exec_sfbuild s, ?sequence, Option.some_ne_none _, okOrNoData_of_iff List.isEmpty_iff⟩⟩
  case sequence =>
    rw [execAll_cons (exec_sfsort s), execAll_cons (exec_sfpart_done rfl), execAll]
    exact congrArg Host.Outcome.next (State.ended_ended_success { s with
      sl := some (sortedList s.ft), ct := partitionCodes (blocksOf s.ft (sortedList s.ft)) } (okOrNoData_isError _) _ 0 0)

end Sys2Proof.Machine
end

section
/-! PROOFS. SFPART's recursion seen from its codes (43_shannon_fano.md R193). A code that begins the codes of two
blocks is the code of a call of `partition`, and no code outside that call begins with it. So the range that shares it is the
range of the call, and the split of the range is the split of the call. -/

namespace Sys2Proof.Machine

open Sys2Proof

set_option autoImplicit false

/-! ## The positions whose codes share their first bits -/

/-- The codes that begin with `p` are exactly those at the positions `lo` to `hi − 1`. -/
def SharedInRange (p : Code) (codes : List Code) (lo hi : Nat) : Prop :=
  ∀ (j : Nat) (c : Code), codes[j]? = some c → (p <+: c ↔ lo ≤ j ∧ j < hi)

section
variable {p : Code} {before range after : List Code}

theorem sharedInRange_append (shared : ∀ c ∈ range, p <+: c) (outside : ∀ c ∈ before ++ after, ¬ p <+: c) :
    SharedInRange p (before ++ range ++ after) before.length (before.length + range.length) := by
  intro j c hc
  by_cases hb : j < before.length
  · rw [List.append_assoc, List.getElem?_append_left hb] at hc
    have not_shared := outside c (List.mem_append_left _ (List.mem_of_getElem? hc))
    exact iff_of_false not_shared (by omega)
  by_cases hr : j < before.length + range.length
  · rw [List.getElem?_append_left (by rwa [List.length_append]), List.getElem?_append_right (by omega)] at hc
    exact iff_of_true (shared c (List.mem_of_getElem? hc)) (by omega)
  · rw [List.getElem?_append_right (by rw [List.length_append]; omega)] at hc
    have not_shared := outside c (List.mem_append_right _ (List.mem_of_getElem? hc))
    exact iff_of_false not_shared (by omega)

end

/-- The range of positions is determined by the codes, if it is a range of positions at all. -/
theorem SharedInRange.unique {p : Code} {codes : List Code} {lo hi lo' hi' : Nat} (h : SharedInRange p codes lo hi)
    (h' : SharedInRange p codes lo' hi') (pos : lo < hi) (le : hi ≤ codes.length) (pos' : lo' < hi')
    (le' : hi' ≤ codes.length) : lo = lo' ∧ hi = hi' := by
  have same (j : Nat) (hj : j < codes.length) : (lo ≤ j ∧ j < hi) ↔ (lo' ≤ j ∧ j < hi') :=
    (h j _ (List.getElem?_eq_getElem hj)).symm.trans (h' j _ (List.getElem?_eq_getElem hj))
  have first := same lo (by omega)
  have last := same (hi - 1) (by omega)
  have first' := same lo' (by omega)
  have last' := same (hi' - 1) (by omega)
  omega

/-- A range `lo … hi − 1` of codes that begin with `p` is split after `i` positions: the codes before the split go on with 0, the
rest with 1, and a part of one code ends with that bit (R193). -/
structure SplitInRange (p : Code) (codes : List Code) (lo i hi : Nat) : Prop where
  zeros : SharedInRange (p ++ [false]) codes lo (lo + i)
  ones : SharedInRange (p ++ [true]) codes (lo + i) hi
  loneZero : i = 1 → codes[lo]? = some (p ++ [false])
  loneOne : lo + i + 1 = hi → codes[lo + i]? = some (p ++ [true])

/-- A code does not go on with both bits. -/
theorem not_prefix_of_other_bit {code c : Code} {b b' : Bool} (hb : b ≠ b') (h : code ++ [b] <+: c) :
    ¬ code ++ [b'] <+: c := by
  intro h'
  have same : code ++ [b] = code ++ [b'] := (List.prefix_of_prefix_length_le h h' (by simp)).eq_of_length (by simp)
  exact hb (List.singleton_inj.1 (List.append_cancel_left same))

section
variable {p : Code} {before zeros ones after : List Code}

theorem splitInRange_append (hz : ∀ c ∈ zeros, p ++ [false] <+: c) (ho : ∀ c ∈ ones, p ++ [true] <+: c)
    (outside : ∀ c ∈ before ++ after, ¬ p <+: c) (loneZero : zeros.length = 1 → zeros = [p ++ [false]])
    (loneOne : ones.length = 1 → ones = [p ++ [true]]) :
    SplitInRange p (before ++ (zeros ++ ones) ++ after) before.length zeros.length
      (before.length + zeros.length + ones.length) := by
  have outside_bit (b : Bool) (c : Code) (hc : c ∈ before ++ after) : ¬ p ++ [b] <+: c :=
    fun h => outside c hc ((List.prefix_append p [b]).trans h)
  have as_zeros : before ++ (zeros ++ ones) ++ after = before ++ zeros ++ (ones ++ after) := by simp
  have as_ones : before ++ (zeros ++ ones) ++ after = before ++ zeros ++ ones ++ after := by simp
  have start : (before ++ zeros).length = before.length + zeros.length := List.length_append
  refine ⟨?zeros, ?ones, fun one => ?loneZero, fun one => ?loneOne⟩
  case zeros =>
    rw [as_zeros]
    refine sharedInRange_append hz fun c hc => ?_
    rcases List.mem_append.1 hc with hb | hr
    · exact outside_bit false c (List.mem_append_left _ hb)
    rcases List.mem_append.1 hr with hr | ha
    · exact not_prefix_of_other_bit Bool.false_ne_true.symm (ho c hr)
    · exact outside_bit false c (List.mem_append_right _ ha)
  case ones =>
    rw [as_ones, ← start]
    refine sharedInRange_append ho fun c hc => ?_
    rcases List.mem_append.1 hc with hr | ha
    · rcases List.mem_append.1 hr with hb | hr
      · exact outside_bit true c (List.mem_append_left _ hb)
      · exact not_prefix_of_other_bit Bool.false_ne_true (hz c hr)
    · exact outside_bit true c (List.mem_append_right _ ha)
  case loneZero =>
    rw [as_zeros, loneZero one]
    simp
  case loneOne =>
    rw [as_ones, loneOne (by omega), ← start]
    simp

end

/-! ## The codes that a call of the recursion gives -/

/-- The codes that `partition` gives its blocks, in the order of the blocks. -/
def partCodes (depth : Nat) (blocks : List FtEntry) (code : Code) : List Code :=
  (partition depth blocks code).map CtEntry.code

/-- The split of a list of blocks (R195). -/
def splitOf (blocks : List FtEntry) : Nat := splitIndex (blocks.map FtEntry.cnt)

theorem splitOf_bounds {blocks : List FtEntry} (two : 2 ≤ blocks.length) :
    1 ≤ splitOf blocks ∧ splitOf blocks < blocks.length := by
  rw [← List.length_map FtEntry.cnt] at two
  have bounds := splitIndex_bounds two
  rwa [List.length_map] at bounds

section
variable {depth : Nat} {blocks : List FtEntry} (two : 2 ≤ blocks.length)
include two

theorem length_take_splitOf : (blocks.take (splitOf blocks)).length = splitOf blocks :=
  List.length_take_of_le (splitOf_bounds two).2.le

section
variable (hd : blocks.length ≤ depth + 1)
include hd

/-- Each part of a split has fewer blocks than its caller (R198). -/
theorem length_take_splitOf_le : (blocks.take (splitOf blocks)).length ≤ depth := by
  obtain ⟨-, high⟩ := splitOf_bounds two
  rw [length_take_splitOf two]
  omega

theorem length_drop_splitOf_le : (blocks.drop (splitOf blocks)).length ≤ depth := by
  obtain ⟨low, -⟩ := splitOf_bounds two
  rw [List.length_drop]
  omega

end

theorem partCodes_split (code : Code) :
    partCodes (depth + 1) blocks code =
      partCodes depth (blocks.take (splitOf blocks)) (code ++ [false]) ++
      partCodes depth (blocks.drop (splitOf blocks)) (code ++ [true]) := by
  match blocks, two with
  | b :: b' :: bs, _ => exact (congrArg _ (partition_split depth b b' bs code)).trans List.map_append

end

section
variable {depth : Nat} {blocks : List FtEntry} {code : Code} (hd : blocks.length ≤ depth)
include hd

theorem partCodes_length : (partCodes depth blocks code).length = blocks.length := by
  obtain ⟨syms, -, -⟩ := partition_spec depth blocks code hd
  simpa [partCodes] using congrArg List.length syms

theorem partCodes_nodup : (partCodes depth blocks code).Nodup :=
  (partition_spec depth blocks code hd).2.2.nodup

theorem prefix_of_mem_partCodes {c : Code} (hc : c ∈ partCodes depth blocks code) : code <+: c := by
  obtain ⟨-, bounds, -⟩ := partition_spec depth blocks code hd
  obtain ⟨e, he, rfl⟩ := List.mem_map.1 hc
  exact (bounds e he).1

theorem partCodes_lone (one : blocks.length = 1) : partCodes depth blocks code = [code] := by
  obtain ⟨b, rfl⟩ := List.length_eq_one_iff.1 one
  cases depth with
  | zero => exact absurd hd (by simp)
  | succ depth => rfl

end

/-! ## The calls below a call -/

/-- Among `blocks` with their `codes`, the blocks `range` have the codes of a call of `partition` with the code `p`, and no other
code extends `p`. -/
structure CallAt (p : Code) (depth : Nat) (blocks before range after : List FtEntry)
    (codes codesBefore codesAfter : List Code) : Prop where
  blocks : blocks = before ++ range ++ after
  codes : codes = codesBefore ++ partCodes (depth + 1) range p ++ codesAfter
  position : codesBefore.length = before.length
  two : 2 ≤ range.length
  depth : range.length ≤ depth + 1
  outside : ∀ c ∈ codesBefore ++ codesAfter, ¬ p <+: c

section
variable {p : Code} {depth : Nat} {blocks before range after : List FtEntry} {codes codesBefore codesAfter : List Code}

theorem CallAt.self (two : 2 ≤ range.length) (hd : range.length ≤ depth + 1) :
    CallAt p depth range [] range [] (partCodes (depth + 1) range p) [] [] :=
  ⟨by simp, by simp, rfl, two, hd, by simp⟩

section
variable (call : CallAt p depth blocks before range after codes codesBefore codesAfter)
include call

theorem CallAt.append_right {blocks' : List FtEntry} {codes' : List Code} (others : ∀ c ∈ codes', ¬ p <+: c) :
    CallAt p depth (blocks ++ blocks') before range (after ++ blocks') (codes ++ codes') codesBefore
      (codesAfter ++ codes') := by
  refine ⟨by simp [call.blocks], by simp [call.codes], call.position, call.two, call.depth, fun c hc => ?_⟩
  rw [← List.append_assoc, List.mem_append] at hc
  exact hc.elim (call.outside c) (others c)

theorem CallAt.append_left {blocks' : List FtEntry} {codes' : List Code} (length : codes'.length = blocks'.length)
    (others : ∀ c ∈ codes', ¬ p <+: c) :
    CallAt p depth (blocks' ++ blocks) (blocks' ++ before) range after (codes' ++ codes) (codes' ++ codesBefore)
      codesAfter := by
  refine ⟨by simp [call.blocks], by simp [call.codes], by simp [length, call.position], call.two, call.depth,
    fun c hc => ?_⟩
  rw [List.append_assoc, List.mem_append] at hc
  exact hc.elim (others c) (call.outside c)

theorem CallAt.sharedInRange : SharedInRange p codes before.length (before.length + range.length) := by
  have range_length : (partCodes (depth + 1) range p).length = range.length := partCodes_length call.depth
  rw [call.codes, ← call.position, ← range_length]
  exact sharedInRange_append (fun c => prefix_of_mem_partCodes call.depth) call.outside

theorem CallAt.end_le : before.length + range.length ≤ blocks.length := by
  rw [call.blocks, ← List.length_append, List.length_append (bs := after)]
  exact Nat.le_add_right _ _

theorem CallAt.range_eq : range = (blocks.drop before.length).take range.length := by
  rw [call.blocks]
  simp

/-- The codes of a call's range are split as R193 says. -/
theorem CallAt.splitInRange :
    SplitInRange p codes before.length (splitOf range) (before.length + range.length) := by
  have zeros_depth := length_take_splitOf_le call.two call.depth
  have ones_depth := length_drop_splitOf_le call.two call.depth
  have split := splitInRange_append (p := p) (before := codesBefore) (after := codesAfter)
    (fun c => prefix_of_mem_partCodes zeros_depth) (fun c => prefix_of_mem_partCodes ones_depth) call.outside
    (fun one => partCodes_lone zeros_depth (partCodes_length zeros_depth ▸ one))
    (fun one => partCodes_lone ones_depth (partCodes_length ones_depth ▸ one))
  rw [← partCodes_split call.two, ← call.codes, partCodes_length zeros_depth, partCodes_length ones_depth,
    length_take_splitOf call.two, List.length_drop, call.position, Nat.add_assoc,
    Nat.add_sub_cancel' (splitOf_bounds call.two).2.le] at split
  exact split

end
end

/-- The codes of the part that goes on with `b'` do not begin with a code that goes on with `b`. -/
theorem not_prefix_of_mem_other_part {depth : Nat} {blocks : List FtEntry} {code q : Code} {b b' : Bool} (hb : b' ≠ b)
    (hd : blocks.length ≤ depth) : ∀ x ∈ partCodes depth blocks (code ++ [b']), ¬ code ++ b :: q <+: x := by
  intro x hx h
  have next : code ++ [b] <+: code ++ b :: q := ⟨q, by simp⟩
  exact not_prefix_of_other_bit hb (prefix_of_mem_partCodes hd hx) (next.trans h)

/-- A code that begins the codes of two blocks of a call is the code of a call below it: of the call itself, or of one below
the part that goes on with its next bit. -/
theorem exists_callAt {depth : Nat} {blocks : List FtEntry} {code p c d : Code} (hd : blocks.length ≤ depth)
    (ext : code <+: p) (hc : c ∈ partCodes depth blocks code) (hc' : d ∈ partCodes depth blocks code) (ne : c ≠ d)
    (shared : p <+: c) (shared' : p <+: d) :
    ∃ depth' before range after codesBefore codesAfter,
      CallAt p depth' blocks before range after (partCodes depth blocks code) codesBefore codesAfter := by
  induction depth generalizing blocks code with
  | zero => cases hc
  | succ depth ih =>
    have two : 2 ≤ blocks.length := by
      have pair : [c, d].Nodup := by simpa using ne
      have members := (pair.subperm (l₂ := partCodes (depth + 1) blocks code) (by simp [hc, hc'])).length_le
      rwa [partCodes_length hd] at members
    obtain ⟨_ | ⟨b, q⟩, rfl⟩ := ext
    case nil =>
      rw [List.append_nil]
      exact ⟨_, _, _, _, _, _, CallAt.self two hd⟩
    case cons =>
      have zeros_depth := length_take_splitOf_le two hd
      have ones_depth := length_drop_splitOf_le two hd
      have next : code ++ [b] <+: code ++ b :: q := ⟨q, by simp⟩
      have parts := List.take_append_drop (splitOf blocks) blocks
      rw [partCodes_split two, List.mem_append] at hc hc'
      rw [partCodes_split two]
      cases b with
      | false =>
        have others := not_prefix_of_mem_other_part (code := code) (q := q) Bool.false_ne_true.symm ones_depth
        obtain ⟨_, _, _, _, _, _, call⟩ := ih zeros_depth next (hc.resolve_right fun h => others c h shared)
          (hc'.resolve_right fun h => others d h shared')
        exact ⟨_, _, _, _, _, _, parts ▸ call.append_right others⟩
      | true =>
        have others := not_prefix_of_mem_other_part (code := code) (q := q) Bool.false_ne_true zeros_depth
        obtain ⟨_, _, _, _, _, _, call⟩ := ih ones_depth next (hc.resolve_left fun h => others c h shared)
          (hc'.resolve_left fun h => others d h shared')
        exact ⟨_, _, _, _, _, _, parts ▸ call.append_left (partCodes_length zeros_depth) others⟩

/-- In the codes of a call, every range that shares its first bits is split at its split index. -/
theorem SharedInRange.splitInRange {blocks : List FtEntry} {p : Code} {lo hi : Nat} (two : lo + 2 ≤ hi)
    (le : hi ≤ blocks.length) (h : SharedInRange p (partCodes blocks.length blocks []) lo hi) :
    SplitInRange p (partCodes blocks.length blocks []) lo (splitOf ((blocks.drop lo).take (hi - lo))) hi := by
  have length : (partCodes blocks.length blocks []).length = blocks.length := partCodes_length le_rfl
  have first : lo < (partCodes blocks.length blocks []).length := by omega
  have second : lo + 1 < (partCodes blocks.length blocks []).length := by omega
  have different : (partCodes blocks.length blocks [])[lo] ≠ (partCodes blocks.length blocks [])[lo + 1] :=
    fun h => absurd ((partCodes_nodup le_rfl).getElem_inj_iff.1 h) lo.lt_succ_self.ne
  obtain ⟨_, _, _, _, _, _, call⟩ := exists_callAt le_rfl List.nil_prefix (List.getElem_mem first)
    (List.getElem_mem second) different
    ((h lo _ (List.getElem?_eq_getElem first)).2 (by omega))
    ((h (lo + 1) _ (List.getElem?_eq_getElem second)).2 (by omega))
  have range_two := call.two
  obtain ⟨rfl, rfl⟩ := h.unique call.sharedInRange (by omega) (by omega) (by omega) (length.symm ▸ call.end_le)
  rw [Nat.add_sub_cancel_left, ← call.range_eq]
  exact call.splitInRange

/-! ## The blocks of the sorted list -/

/-- The blocks of a list of entry indices are the entries at those indices, position by position. -/
theorem forall₂_blocksOf {ft : List FtEntry} {l : List Nat} (inside : ∀ i ∈ l, i < ft.length) :
    List.Forall₂ (fun i e => ft[i]? = some e) l (blocksOf ft l) := by
  induction l with
  | nil => exact .nil
  | cons i l ih =>
    have entry := List.getElem?_eq_getElem (inside i List.mem_cons_self)
    rw [blocksOf, List.filterMap_cons_some entry]
    exact .cons entry (ih fun j hj => inside j (List.mem_cons_of_mem i hj))

section
variable {ft : List FtEntry} {l : List Nat} (perm : l.Perm (List.range ft.length))
include perm

theorem forall₂_blocksOf_of_perm : List.Forall₂ (fun i e => ft[i]? = some e) l (blocksOf ft l) :=
  forall₂_blocksOf fun _ hi => List.mem_range.1 (perm.mem_iff.1 hi)

theorem map_cnt_blocksOf : (blocksOf ft l).map FtEntry.cnt = l.map (cntOf ft) := by
  have same : List.Forall₂ (· = ·) (l.map (cntOf ft)) ((blocksOf ft l).map FtEntry.cnt) :=
    List.forall₂_map_left_iff.2 (List.forall₂_map_right_iff.2
      ((forall₂_blocksOf_of_perm perm).imp fun _ _ => cntOf_of_getElem?))
  rw [List.forall₂_eq_eq_eq] at same
  exact same.symm

theorem splitOf_blocksOf (lo n : Nat) :
    splitOf (((blocksOf ft l).drop lo).take n) = splitIndex (((l.drop lo).take n).map (cntOf ft)) := by
  rw [splitOf, List.map_take, List.map_drop, map_cnt_blocksOf perm, List.map_take, List.map_drop]

theorem getElem?_blocksOf {j a : Nat} (ha : l[j]? = some a) : (blocksOf ft l)[j]? = ft[a]? := by
  have entries := forall₂_blocksOf_of_perm perm
  obtain ⟨hj, rfl⟩ := List.getElem?_eq_some_iff.1 ha
  have hj' : j < (blocksOf ft l).length := entries.length_eq ▸ hj
  rw [List.getElem?_eq_getElem hj']
  exact (entries.get hj hj').symm

/-- The block at a position of the list is in the table with the code at that position. -/
theorem mem_partitionCodes_of_getElem? (two : 2 ≤ ft.length) {j a : Nat} {e : FtEntry} {c : Code} (ha : l[j]? = some a)
    (he : ft[a]? = some e) (hc : (partCodes (blocksOf ft l).length (blocksOf ft l) [])[j]? = some c) :
    (⟨e.sym, c⟩ : CtEntry) ∈ partitionCodes (blocksOf ft l) := by
  have length : (blocksOf ft l).length = ft.length := (blocksOf_perm perm).length_eq
  rw [partCodes, List.getElem?_map] at hc
  obtain ⟨x, hx, rfl⟩ := Option.map_eq_some_iff.1 hc
  have block : (blocksOf ft l)[j]? = some e := (getElem?_blocksOf perm ha).trans he
  have sym : x.sym = e.sym := by
    obtain ⟨syms, -, -⟩ := partition_spec (blocksOf ft l).length (blocksOf ft l) [] le_rfl
    have at_j := congrArg (fun syms => syms[j]?) syms
    simpa [hx, block] using at_j
  rw [partitionCodes_eq_ctOf (by omega), (ctOf_perm _).mem_iff, ← sym]
  exact List.mem_of_getElem? hx

end

/-! ## The obligation -/

/-- Settles O40: the codes, in the order of the sorted list, are those of the call of `partition` on all its blocks. -/
theorem sfpartSplitsEveryRange : Obligations.SfpartSplitsEveryRange := by
  refine ⟨by decide, fun s inv => ⟨fun l hl => ?done, fun hl => exec_sfpart_badSeq hl ▸ raise_only .badSeq 0 s⟩⟩
  obtain ⟨perm, -⟩ := inv.sl l hl
  have length : (blocksOf s.ft l).length = l.length := (forall₂_blocksOf_of_perm perm).length_eq.symm
  have entries : (blocksOf s.ft l).length = s.ft.length := (blocksOf_perm perm).length_eq
  rw [← okOrNoData_of_iff List.isEmpty_iff]
  refine ⟨_, exec_sfpart_done hl, State.ended_Ended _ 0 rfl, rfl, partitionCodes_blocksOf_syms inv.ft.ascend perm,
    fun one => ?lone, fun two => ⟨partCodes (blocksOf s.ft l).length (blocksOf s.ft l) [], ?length, ?member, ?ranges⟩⟩
  case lone =>
    obtain ⟨b, hb⟩ := List.length_eq_one_iff.1 (entries.trans one)
    rw [State.ended_ct, hb]
    rfl
  case length => exact (partCodes_length le_rfl).trans length
  case member => exact fun j a e c ha he hc => mem_partitionCodes_of_getElem? perm two ha he hc
  case ranges =>
    intro p lo hi range_two le shared
    have split := SharedInRange.splitInRange range_two (length ▸ le) shared
    rw [splitOf_blocksOf perm] at split
    refine fun j c hc => ⟨split.zeros j c hc, split.ones j c hc, ?loneZero, ?loneOne⟩
    case loneZero =>
      rintro one rfl
      exact Option.some.inj (hc.symm.trans (split.loneZero one))
    case loneOne =>
      rintro one rfl
      exact Option.some.inj (hc.symm.trans (split.loneOne one))

end Sys2Proof.Machine
end

section
/-! PROOFS. The code table's four table-access commands: CT_ADD (44_code_table.md R212), CT_GET (R215), CT_FWD (R217) and
CT_REV (R219). Each gets one equation per way to end; the lookups and the insertion have their laws in the Tables laws. -/

namespace Sys2Proof.Machine

open Sys2Proof

set_option autoImplicit false

/-! ## The staged code as bits (R212, R219) -/

theorem State.stagedCode_eq_ok {s : State} {code : Code} (h : s.stagedCodeChars = codeChars code) :
    s.stagedCode = .ok code :=
  scanBits_eq_ok.2 h

/-- A run of elements that are all bits shows a code. -/
theorem State.exists_elements_eq_codeChars {s : State} {sp : Space} {n : Nat}
    (bits : ∀ k, k < n → s.element sp k = 0x30#8 ∨ s.element sp k = 0x31#8) :
    ∃ code : Code, s.elements sp 0 n = codeChars code := by
  refine ⟨(List.range n).map (fun k => s.element sp k = 0x31#8), ?_⟩
  rw [State.elements, codeChars, List.map_map]
  refine List.map_congr_left fun k hk => ?_
  obtain zero | one := bits k (List.mem_range.1 hk)
  · simp [zero, chr_eq]
  · simp [one, chr_eq]

theorem State.stagedCode_eq_error {s : State} {j : Nat} (hj : j < s.kClen.toNat)
    (notZero : s.element .kCode j ≠ 0x30#8) (notOne : s.element .kCode j ≠ 0x31#8)
    (bits : ∀ k, k < j → s.element .kCode k = 0x30#8 ∨ s.element .kCode k = 0x31#8) : s.stagedCode = .error j := by
  obtain ⟨code, hcode⟩ := State.exists_elements_eq_codeChars bits
  have length : code.length = j := by rw [← codeChars_length, ← hcode, State.elements_length]
  have split : s.kClen.toNat = j + (1 + (s.kClen.toNat - j - 1)) := by omega
  refine scanBits_eq_error.2 ⟨code, s.element .kCode j, s.elements .kCode (j + 1) (s.kClen.toNat - j - 1), ?_,
    bitOf_eq_none.2 ⟨notZero, notOne⟩, by rw [length, Nat.zero_add]⟩
  rw [State.stagedCodeChars, split, State.elements_append, State.elements_append, hcode, Nat.zero_add, ← split]
  rfl

/-! ## CT_ADD (R212) -/

section
variable {s : State} {code : Code}

theorem exec_ctAdd_badChar {j : Nat} (staged : s.stagedCode = .error j) : exec .ctAdd s = raise .badChar j s := by
  rw [exec, execCtAdd, staged]

theorem exec_ctAdd_duplicate (staged : s.stagedCode = .ok code)
    (known : s.stagedSymbol ∈ s.ct.map CtEntry.sym ∨ code ∈ s.ct.map CtEntry.code) :
    exec .ctAdd s = raise .duplicate 0 s := by
  have found : ((ctForward s.stagedSymbol s.ct).isSome || (ctReverse code s.ct).isSome) = true := by
    rwa [Bool.or_eq_true, Option.isSome_iff_ne_none, Option.isSome_iff_ne_none, Ne, Ne, ctForward_eq_none,
      ctReverse_eq_none, not_not, not_not]
  rw [exec, execCtAdd, staged]
  exact if_pos found

/-- A new entry gets past the lookups, and the room in CT decides. -/
theorem exec_ctAdd_new (staged : s.stagedCode = .ok code) (newSymbol : s.stagedSymbol ∉ s.ct.map CtEntry.sym)
    (newCode : code ∉ s.ct.map CtEntry.code) :
    exec .ctAdd s = if s.caps.sym.toNat ≤ s.ct.length then raise .capacity 0 s
      else done .ok { s with ct := ctInsert ⟨s.stagedSymbol, code⟩ s.ct } := by
  rw [exec, execCtAdd, staged, ctForward_eq_none.2 newSymbol]
  simp only [ctReverse_eq_none.2 newCode]
  rfl

/-! ## CT_GET (R215) -/

theorem decode_ctGet {imm : Nat} (h : imm < 2 ^ 24) :
    decode (BitVec.ofNat 32 (0x42 + 256 * imm)) = .command (.ctGet imm) := by
  have opcode := opcodeField_formatI_word (op := 0x42) (by decide) imm
  have operand := operandField_formatI_word (op := 0x42) (by decide) h
  simp only [decode, opcode, formatI, operand]

theorem exec_ctGet_some {imm : Nat} {e : CtEntry} (h : s.ct[imm]? = some e) :
    exec (.ctGet imm) s = done .ok ((s.stageSymbol e.sym).stageCode e.code) := by
  simp only [exec, execCtGet, h]

theorem exec_ctGet_none {imm : Nat} (h : s.ct[imm]? = none) : exec (.ctGet imm) s = raise .badOperand 0 s := by
  simp only [exec, execCtGet, h]

/-! ## CT_FWD (R217) -/

theorem exec_ctFwd_hit {r : Nat} {e : CtEntry} (found : ctForward s.stagedSymbol s.ct = some (r, e)) :
    exec .ctFwd s = done .ok { s.stageCode e.code with kIdx := word r, hit := true } := by
  rw [exec, execCtFwd, found]

theorem exec_ctFwd_miss (absent : ctForward s.stagedSymbol s.ct = none) :
    exec .ctFwd s = done .ok { s with hit := false } := by
  rw [exec, execCtFwd, absent]

/-! ## CT_REV (R219) -/

theorem exec_ctRev_badChar {j : Nat} (staged : s.stagedCode = .error j) : exec .ctRev s = raise .badChar j s := by
  rw [exec, execCtRev, staged]

theorem exec_ctRev_hit {r : Nat} {e : CtEntry} (staged : s.stagedCode = .ok code)
    (found : ctReverse code s.ct = some (r, e)) :
    exec .ctRev s = done .ok { s.stageSymbol e.sym with kIdx := word r, hit := true } := by
  simp only [exec, execCtRev, staged, found]

theorem exec_ctRev_miss (staged : s.stagedCode = .ok code) (absent : ctReverse code s.ct = none) :
    exec .ctRev s = done .ok { s with hit := false } := by
  simp only [exec, execCtRev, staged, absent]

end

/-! ## What staging an entry of CT leaves to read -/

/-- The symbol of an entry fills K_SYM[0..SYMLEN), since it has SYMLEN characters. -/
theorem CtInvariant.staged_symbol {s : State} (h : CtInvariant s) {e : CtEntry} (he : e ∈ s.ct) :
    (s.stageSymbol e.sym).elements .kSym 0 s.symLen.toNat = e.sym ∧
    ∀ k, s.symLen.toNat ≤ k → (s.stageSymbol e.sym).element .kSym k = s.element .kSym k :=
  h.symLength e he ▸ State.stageSymbol_elements e.sym s

/-! ## The obligations -/

/-- Settles O44: the scan of the staged code tells BADCHAR from a code, the lookups tell DUPLICATE from a new entry, and an
insertion is a permutation that keeps the order. -/
theorem ctAddLoadsTheStagedEntry : Obligations.CtAddLoadsTheStagedEntry := by
  refine ⟨by decide, fun s inv => ⟨fun code staged newSymbol newCode room => ?done,
    fun j hj notZero notOne bits => ?badChar, fun code staged known => ?duplicate,
    fun code staged newSymbol newCode full => ?capacity⟩⟩
  case done =>
    have perm := ctInsert_perm ⟨s.stagedSymbol, code⟩ s.ct
    have exec_done := exec_ctAdd_new (State.stagedCode_eq_ok staged) newSymbol newCode
    rw [if_neg (Nat.not_le.2 room)] at exec_done
    refine ⟨_, exec_done, State.ended_Ended .ok 0 rfl, rfl, ctInsert_ascend inv.ct.ascend newSymbol, perm.length_eq,
      fun e => ?_⟩
    rw [State.ended_ct, perm.mem_iff, List.mem_cons, or_comm]
  case badChar =>
    exact exec_ctAdd_badChar (State.stagedCode_eq_error hj notZero notOne bits) ▸ raise_only .badChar j s
  case duplicate => exact exec_ctAdd_duplicate (State.stagedCode_eq_ok staged) known ▸ raise_only .duplicate 0 s
  case capacity =>
    rw [exec_ctAdd_new (State.stagedCode_eq_ok staged) newSymbol newCode, if_pos full.ge]
    exact raise_only .capacity 0 s

/-- Settles O45: staging the symbol and staging the code write different spaces, so each reads back as if alone. -/
theorem ctGetStagesTheEntry : Obligations.CtGetStagesTheEntry := by
  refine ⟨fun imm => decode_ctGet, fun s imm inv => ⟨fun e he => ?staged, fun beyond => ?badOperand⟩⟩
  case staged =>
    obtain ⟨symbol, symbolOthers⟩ := inv.ct.staged_symbol (List.mem_of_getElem? he)
    obtain ⟨code, codeOthers⟩ := State.stageCode_elements e.code s
    rw [State.stageSymbol_eq] at symbol symbolOthers
    rw [State.stageCode_eq] at code codeOthers
    rw [exec_ctGet_some he, State.stageCode_eq, State.stageSymbol_eq]
    exact ⟨_, rfl, State.ended_Ended .ok 0 rfl, rfl, symbol, code, symbolOthers, codeOthers⟩
  case badOperand => exact exec_ctGet_none (List.getElem?_eq_none beyond) ▸ raise_only .badOperand 0 s

/-- Settles O46: in an ascending table the forward lookup answers the entry of the staged symbol, or none exactly when there
is no such entry. -/
theorem ctFwdFindsTheCode : Obligations.CtFwdFindsTheCode := by
  refine ⟨by decide, fun s inv => ⟨fun r e he sym => ?hit, fun absent => ?miss⟩⟩
  case hit =>
    obtain ⟨code, others⟩ := State.stageCode_elements e.code s
    rw [State.stageCode_eq] at code others
    rw [exec_ctFwd_hit ((ctForward_eq_some inv.ct.ascend).2 ⟨he, sym⟩), State.stageCode_eq]
    exact ⟨_, rfl, State.ended_Ended .ok 0 rfl, rfl, code, others⟩
  case miss => exact ⟨_, exec_ctFwd_miss (ctForward_eq_none.2 absent), State.ended_Ended .ok 0 rfl, rfl⟩

/-- Settles O47: in a table of different codes the reverse lookup answers the entry of the staged code, or none exactly when
there is no such entry. -/
theorem ctRevFindsTheSymbol : Obligations.CtRevFindsTheSymbol := by
  refine ⟨by decide, fun s inv => ⟨fun r e he staged => ?hit, fun code staged absent => ?miss,
    fun j hj notZero notOne bits => ?badChar⟩⟩
  case hit =>
    obtain ⟨symbol, others⟩ := inv.ct.staged_symbol (List.mem_of_getElem? he)
    have found := (ctReverse_eq_some inv.ct.codesDiffer).2 ⟨he, rfl⟩
    rw [State.stageSymbol_eq] at symbol others
    rw [exec_ctRev_hit (State.stagedCode_eq_ok staged) found, State.stageSymbol_eq]
    exact ⟨_, rfl, State.ended_Ended .ok 0 rfl, rfl, symbol, others⟩
  case miss =>
    exact ⟨_, exec_ctRev_miss (State.stagedCode_eq_ok staged) (ctReverse_eq_none.2 absent),
      State.ended_Ended .ok 0 rfl, rfl⟩
  case badChar =>
    exact exec_ctRev_badChar (State.stagedCode_eq_error hj notZero notOne bits) ▸ raise_only .badChar j s

end Sys2Proof.Machine
end

section
/-! PROOFS. ENCODE (44_code_table.md R224). Over symbols that have their codes the loop appends the codes; the symbol after
them, if there is one, is where it stops. -/

namespace Sys2Proof.Machine

open Sys2Proof

set_option autoImplicit false

/-! ## ENCODE's loop -/

/-- Forward lookup by membership: the entry of a symbol in an ascending table is the one found. -/
theorem ctForward_of_mem {ct : List CtEntry} (ascend : SymbolsAscend (ct.map CtEntry.sym)) {k : Symbol} {c : Code}
    (h : (⟨k, c⟩ : CtEntry) ∈ ct) : ∃ r, ctForward k ct = some (r, ⟨k, c⟩) := by
  obtain ⟨r, hr⟩ := List.mem_iff_getElem?.1 h
  exact ⟨r, (ctForward_eq_some ascend).2 ⟨hr, rfl⟩⟩

section
variable {len pos : Nat} {after : List Symbol} {k : Symbol} {s : State} (ascend : SymbolsAscend (s.ct.map CtEntry.sym))

theorem encodeSymbols_cons_noSymbol (absent : k ∉ s.ct.map CtEntry.sym) :
    encodeSymbols len (k :: after) pos s = (s, some (.noSymbol, pos)) := by
  rw [encodeSymbols, ctForward_eq_none.2 absent]

include ascend

theorem encodeSymbols_cons_capacity {c : Code} (entry : (⟨k, c⟩ : CtEntry) ∈ s.ct)
    (full : s.caps.bit.toNat < s.bitLen.toNat + c.length) :
    encodeSymbols len (k :: after) pos s = (s, some (.capacity, pos)) := by
  obtain ⟨r, found⟩ := ctForward_of_mem ascend entry
  rw [encodeSymbols, found]
  exact if_pos full

theorem encodeSymbols_cons_fits {c : Code} (entry : (⟨k, c⟩ : CtEntry) ∈ s.ct)
    (fits : s.bitLen.toNat + c.length ≤ s.caps.bit.toNat) :
    encodeSymbols len (k :: after) pos s = encodeSymbols len after (pos + len) (s.appendBits c) := by
  obtain ⟨r, found⟩ := ctForward_of_mem ascend entry
  rw [encodeSymbols, found]
  exact if_neg (Nat.not_lt.2 fits)

end

/-- Over symbols whose codes fit the loop appends the codes and goes on with the symbols after them. -/
theorem encodeSymbols_append {len : Nat} {before after : List Symbol} {codes : List Code} {ct : List CtEntry}
    (h : CodesOf ct before codes) (ascend : SymbolsAscend (ct.map CtEntry.sym)) {pos : Nat} {s : State} (hct : s.ct = ct)
    (fits : s.bitLen.toNat + codes.flatten.length ≤ s.caps.bit.toNat) :
    encodeSymbols len (before ++ after) pos s =
      encodeSymbols len after (pos + before.length * len) (s.appendBits codes.flatten) := by
  induction h generalizing pos s with
  | nil => rw [List.nil_append, List.length_nil, Nat.zero_mul, Nat.add_zero, List.flatten_nil, State.appendBits_nil]
  | @cons k c before codes entry _ ih =>
    subst hct
    rw [List.flatten_cons, List.length_append, ← Nat.add_assoc] at fits
    have small : s.bitLen.toNat + c.length < 2 ^ 32 :=
      (Nat.le_of_add_right_le fits).trans_lt s.caps.bit.isLt
    obtain ⟨bitLen, -⟩ := State.appendBits_bitChars c s small
    obtain ⟨ct_eq, caps_eq⟩ : (s.appendBits c).ct = s.ct ∧ (s.appendBits c).caps = s.caps := by
      rw [State.appendBits_eq]
      exact ⟨rfl, rfl⟩
    rw [List.cons_append, encodeSymbols_cons_fits ascend entry (Nat.le_of_add_right_le fits),
      ih ct_eq (by rwa [bitLen, caps_eq]), State.appendBits_append small, List.flatten_cons, List.length_cons,
      Nat.succ_mul, Nat.add_assoc, Nat.add_comm len]

/-! ## The encoding ENCODE leaves in BIT -/

/-- `s` with BIT holding the code `c` alone. -/
def State.encoded (c : Code) (s : State) : State := { s with bitLen := 0#32 }.appendBits c

theorem State.encoded_eq (c : Code) (s : State) :
    s.encoded c = { s with bit := Memory.writeAll 0 (codeChars c) s.bit, bitLen := word c.length } := by
  rw [State.encoded, State.appendBits_eq, BitVec.toNat_zero, Nat.zero_add]

/-- The loop from an empty BIT, over symbols whose codes fit, is left with their encoding and the symbols after them. -/
theorem encodeSymbols_encoded {len : Nat} {before after : List Symbol} {codes : List Code} {s : State}
    (h : CodesOf s.ct before codes) (ascend : SymbolsAscend (s.ct.map CtEntry.sym))
    (fits : codes.flatten.length ≤ s.caps.bit.toNat) :
    encodeSymbols len (before ++ after) 0 { s with bitLen := 0#32 } =
      encodeSymbols len after (before.length * len) (s.encoded codes.flatten) := by
  have run := encodeSymbols_append (len := len) (after := after) (pos := 0) (s := { s with bitLen := 0#32 }) h ascend rfl
    (by simpa using fits)
  rwa [Nat.zero_add] at run

/-- A command that ends from `s.encoded c` changes BIT up to `c.length`, and BIT_LEN. -/
theorem State.encoded_ended {s t : State} {c : Code} {e : Completion} {pos : Nat} (fits : c.length ≤ s.caps.bit.toNat)
    (ht : t = (s.encoded c).ended e pos) :
    Ended s t e pos ∧ t = { s.endedAs t with bit := t.bit, bitLen := BitVec.ofNat 32 c.length } ∧
    t.bitChars = codeChars c ∧ ∀ k, c.length ≤ k → t.element .bit k = s.element .bit k := by
  have small : c.length < 2 ^ 32 := fits.trans_lt s.caps.bit.isLt
  obtain ⟨-, bits, others⟩ := State.appendBits_bitChars c { s with bitLen := 0#32 } (by simpa using small)
  have frame := State.encoded_eq c s
  subst ht
  refine ⟨State.ended_Ended e pos (by rw [frame]), ?_, ?_, fun k hk => ?_⟩
  · rw [frame]
    rfl
  · exact (State.elements_ended _ e pos .bit 0 _).trans bits
  · rw [State.element_ended]
    exact others k (by simpa using hk)

/-! ## The ways ENCODE ends (R224) -/

theorem exec_encode_badSeq {s : State} (h : s.txtLen.toNat % s.symLen.toNat ≠ 0) :
    exec .encode s = raise .badSeq 0 s := if_pos h

section
variable {s u : State} (whole : s.txtLen.toNat % s.symLen.toNat = 0)
include whole

theorem exec_encode_done (run : encodeSymbols s.symLen.toNat s.textSymbols 0 { s with bitLen := 0#32 } = (u, none)) :
    exec .encode s = done (okOrNoData s.textSymbols.isEmpty) u := by
  rw [exec, execEncode, if_neg (not_not.2 whole), run]

theorem exec_encode_stop {c : Completion} {pos : Nat}
    (run : encodeSymbols s.symLen.toNat s.textSymbols 0 { s with bitLen := 0#32 } = (u, some (c, pos))) :
    exec .encode s = raise c pos u := by
  rw [exec, execEncode, if_neg (not_not.2 whole), run]

end

/-! ## The obligation -/

/-- Settles O48: the loop goes through the symbols that have their codes, and the symbol after them selects the stop. -/
theorem encodeConcatenatesTheCodes : Obligations.EncodeConcatenatesTheCodes := by
  refine ⟨by decide, fun s codes inv whole codesOf fits => ?done,
    fun s h => exec_encode_badSeq h ▸ raise_only .badSeq 0 s,
    fun s before after k codes inv whole split codesOf fits c stop => ?stop⟩
  case done =>
    have run := encodeSymbols_encoded (len := s.symLen.toNat) (after := []) codesOf inv.ct.ascend fits
    rw [List.append_nil] at run
    rw [← okOrNoData_of_iff List.isEmpty_iff]
    exact ⟨_, exec_encode_done whole run, State.encoded_ended fits rfl⟩
  case stop =>
    have run := encodeSymbols_encoded (len := s.symLen.toNat) (after := k :: after) codesOf inv.ct.ascend fits
    have state := State.encoded_eq codes.flatten s
    have small : codes.flatten.length < 2 ^ 32 := fits.trans_lt s.caps.bit.isLt
    have last : encodeSymbols s.symLen.toNat (k :: after) (before.length * s.symLen.toNat) (s.encoded codes.flatten) =
        (s.encoded codes.flatten, some (c, before.length * s.symLen.toNat)) := by
      obtain ⟨rfl, absent⟩ | ⟨rfl, d, entry, full⟩ := stop
      · exact encodeSymbols_cons_noSymbol (by rwa [state])
      · exact encodeSymbols_cons_capacity (by rw [state]; exact inv.ct.ascend) (by rwa [state])
          (by rwa [state, word_toNat small])
    rw [← split] at run
    exact ⟨_, exec_encode_stop whole (run.trans last), State.encoded_ended fits rfl⟩

end Sys2Proof.Machine
end

section
/-! PROOFS. The two decoders (45_decoder.md R241, R245). Each loop reads whole codes while their symbols fit OUT; what
stands after them selects the way it ends. Both commands are left with the same update of the state, `State.decodedTo`. -/

namespace Sys2Proof.Machine

open Sys2Proof

set_option autoImplicit false

/-! ## The text a decoder leaves in OUT -/

section
variable (cs : List Byte) (s : State)

@[simp] theorem State.emit_nodes : (s.emit cs).nodes = s.nodes := by rw [State.emit_eq]
@[simp] theorem State.emit_root : (s.emit cs).root = s.root := by rw [State.emit_eq]
@[simp] theorem State.emit_ct : (s.emit cs).ct = s.ct := by rw [State.emit_eq]
@[simp] theorem State.emit_caps : (s.emit cs).caps = s.caps := by rw [State.emit_eq]
@[simp] theorem State.emit_symLen : (s.emit cs).symLen = s.symLen := by rw [State.emit_eq]

end

/-- `s` with OUT holding the characters `cs` alone. -/
def State.decodedTo (cs : List Byte) (s : State) : State := { s with outLen := 0#32 }.emit cs

theorem State.decodedTo_eq (cs : List Byte) (s : State) :
    s.decodedTo cs = { s with out := Memory.writeAll 0 cs s.out, outLen := word cs.length } := by
  rw [State.decodedTo, State.emit_eq, BitVec.toNat_zero, Nat.zero_add]

section
variable (cs : List Byte) (s : State)

@[simp] theorem State.decodedTo_nodes : (s.decodedTo cs).nodes = s.nodes := by simp [State.decodedTo]
@[simp] theorem State.decodedTo_root : (s.decodedTo cs).root = s.root := by simp [State.decodedTo]
@[simp] theorem State.decodedTo_ct : (s.decodedTo cs).ct = s.ct := by simp [State.decodedTo]
@[simp] theorem State.decodedTo_caps : (s.decodedTo cs).caps = s.caps := by simp [State.decodedTo]
@[simp] theorem State.decodedTo_symLen : (s.decodedTo cs).symLen = s.symLen := by simp [State.decodedTo]

end

theorem State.decodedTo_outLen {cs : List Byte} {s : State} (fits : cs.length ≤ s.caps.out.toNat) :
    (s.decodedTo cs).outLen.toNat = cs.length := by
  rw [State.decodedTo_eq]
  exact word_toNat (fits.trans_lt s.caps.out.isLt)

/-- A command that ends from `s.decodedTo cs` changes OUT up to `cs.length`, and OUT_LEN. -/
theorem State.decodedTo_ended {s t : State} {cs : List Byte} {e : Completion} {pos : Nat}
    (fits : cs.length ≤ s.caps.out.toNat) (ht : t = (s.decodedTo cs).ended e pos) :
    Ended s t e pos ∧ t = { s.endedAs t with out := t.out, outLen := BitVec.ofNat 32 cs.length } ∧
    t.decoded = cs ∧ ∀ k, cs.length ≤ k → t.element .out k = s.element .out k := by
  have small : cs.length < 2 ^ 32 := fits.trans_lt s.caps.out.isLt
  obtain ⟨-, text, others⟩ := State.emit_decoded cs { s with outLen := 0#32 } (by simpa using small)
  have frame := State.decodedTo_eq cs s
  subst ht
  refine ⟨State.ended_Ended e pos (by rw [frame]), ?_, ?_, fun k hk => ?_⟩
  · rw [frame]
    rfl
  · exact (State.elements_ended _ e pos .out 0 _).trans text
  · rw [State.element_ended]
    exact others k (by simpa using hk)

/-! ## The bit string as bits and what follows them -/

@[simp] theorem State.bitChars_length (s : State) : s.bitChars.length = s.bitLen.toNat :=
  State.elements_length s .bit 0 _

theorem State.bitChars_eq_nil {s : State} : s.bitChars = [] ↔ s.bitLen = 0#32 := by
  rw [← List.length_eq_zero_iff, State.bitChars_length, BitVec.toNat_eq]
  rfl

theorem State.bitChars_ne_nil {s : State} {bits tail : Code} {rest : List Byte}
    (h : s.bitChars = codeChars (bits ++ tail) ++ rest) (more : tail ≠ [] ∨ rest ≠ []) : s.bitChars ≠ [] := by
  rw [h]
  simp only [codeChars, ne_eq, List.append_eq_nil_iff, List.map_eq_nil_iff]
  tauto

/-- Ends with OK from two states that agree are ends with NODATA that agree. -/
theorem done_noData_of_done_ok {s u : State} (h : done .ok s = done .ok u) : done .noData s = done .noData u := by
  have again := congrArg (fun v : State => v.ended .noData 0) (Host.Outcome.next.inj h)
  simp only [State.ended_ended_success _ (c := .ok) rfl] at again
  exact congrArg Host.Outcome.next again

/-! ## RDECODE (R245) -/

theorem exec_rdecode_empty {s : State} (h : s.bitLen = 0#32) :
    exec .rdecode s = done .noData { s with outLen := 0#32 } := if_pos (by rw [h]; rfl)

theorem exec_rdecode_nonempty {s : State} (h : s.bitChars ≠ []) :
    exec .rdecode s = tableDecode s.bitChars 0 [] 0 { s with outLen := 0#32 } :=
  if_neg fun zero => h (State.bitChars_eq_nil.2 (BitVec.eq_of_toNat_eq zero))

theorem exec_rdecode_whole {s u : State}
    (run : tableDecode s.bitChars 0 [] 0 { s with outLen := 0#32 } = done .ok u) :
    exec .rdecode s = done (if s.bitLen = 0#32 then .noData else .ok) u := by
  by_cases empty : s.bitLen = 0#32
  · rw [State.bitChars_eq_nil.2 empty] at run
    rw [exec_rdecode_empty empty, if_pos empty]
    exact done_noData_of_done_ok run
  · rw [exec_rdecode_nonempty (mt State.bitChars_eq_nil.1 empty), if_neg empty, run]

section
variable {p start : Nat} {acc : Code} {s : State}

theorem tableDecode_nil_incomplete (h : acc ≠ []) : tableDecode [] p acc start s = raise .incomplete start s := if_pos h

theorem tableDecode_badChar {x : Byte} {xs : List Byte} (hx : bitOf x = none) :
    tableDecode (x :: xs) p acc start s = raise .badChar p s := by
  rw [tableDecode, hx]

end

/-- From an empty OUT the loop goes through first matches whose symbols fit, and is left with what follows them. -/
theorem tableDecode_decodedTo {s : State} {syms : List Symbol} {codes : List Code} {tail : Code} {rest : List Byte}
    (inv : CtInvariant s) (codesOf : CodesOf s.ct syms codes) (first : ∀ d ∈ codes, MatchedFirst s.ct d)
    (fits : syms.length * s.symLen.toNat ≤ s.caps.out.toNat)
    (bits : s.bitChars = codeChars (codes.flatten ++ tail) ++ rest) :
    tableDecode s.bitChars 0 [] 0 { s with outLen := 0#32 } =
      tableDecode (codeChars tail ++ rest) codes.flatten.length [] codes.flatten.length (s.decodedTo syms.flatten) ∧
    syms.flatten.length = syms.length * s.symLen.toNat := by
  have run := tableDecode_codes codesOf first (codeChars tail ++ rest) 0 { s with outLen := 0#32 } rfl inv.codesDiffer
    inv.symLength (by simpa using fits)
  rwa [← List.append_assoc, ← codeChars_append, ← bits, Nat.zero_add] at run

/-- Settles O49: the loop goes through the first matches, and what follows them selects the end. -/
theorem rdecodeEmitsTheFirstMatches : Obligations.RdecodeEmitsTheFirstMatches := by
  refine ⟨by decide, fun s syms codes tail rest c pos inv codesOf first fits bits stop => ?_⟩
  obtain ⟨run, length⟩ := tableDecode_decodedTo inv.ct codesOf first fits bits
  rw [← length] at fits ⊢
  suffices exec .rdecode s = .next ((s.decodedTo syms.flatten).ended c pos) from
    ⟨_, this, State.decodedTo_ended fits rfl⟩
  have nonempty := State.bitChars_ne_nil bits
  obtain ⟨rfl, rfl, rfl, rfl⟩ | ⟨unmatched, stop⟩ | ⟨rfl, entry, matched, rfl, full⟩ := stop
  · exact exec_rdecode_whole run
  · rw [tableDecode_accumulate _ _ _ _ _ _ (by simpa using unmatched), List.nil_append] at run
    obtain ⟨rfl, rfl, unfinished, rfl⟩ | ⟨rfl, rfl, x, xs, rfl, notZero, notOne⟩ := stop
    · rw [exec_rdecode_nonempty (nonempty (.inl unfinished)), run]
      exact tableDecode_nil_incomplete unfinished
    · rw [exec_rdecode_nonempty (nonempty (.inr (List.cons_ne_nil x xs))), run]
      exact tableDecode_badChar (bitOf_eq_none.2 ⟨notZero, notOne⟩)
  · obtain ⟨e, he, rfl⟩ := List.mem_map.1 entry
    obtain ⟨notNil, least⟩ := matched
    rw [exec_rdecode_nonempty (nonempty (.inl notNil)), run,
      tableDecode_code (by simpa using inv.ct.codesDiffer) (by simpa using he) notNil
        (fun q hq hqe other member => other (least q (by simpa using member) hq hqe)), if_pos]
    · rfl
    · rw [State.decodedTo_outLen fits, length, State.decodedTo_caps, State.decodedTo_symLen, ← Nat.succ_mul]
      exact full

/-! ## TDECODE (R241) -/

section
variable {s : State}

theorem exec_tdecode_badSeq (h : s.tree = .none ∨ s.tree = .building) : exec .tdecode s = raise .badSeq 0 s := by
  rcases h with h | h <;> simp only [exec, execTdecode, h]

theorem exec_tdecode_empty (h : s.tree = .empty) :
    exec .tdecode s =
      .next (State.ended (if s.bitLen = 0#32 then .noData else .incomplete) 0 { s with outLen := 0#32 }) := by
  simp only [exec, execTdecode, h, treeDecodeFrom, BitVec.toNat_eq, BitVec.toNat_zero, if_true]
  split <;> rfl

theorem exec_tdecode_noData (valid : s.tree = .valid) (h : s.bitLen = 0#32) :
    exec .tdecode s = done .noData { s with outLen := 0#32 } := by
  simp only [exec, execTdecode, valid, treeDecodeFrom, h, BitVec.toNat_zero, if_true]

theorem exec_tdecode_nonempty (valid : s.tree = .valid) (h : s.bitChars ≠ []) :
    exec .tdecode s = treeDecode s.root.toNat s.bitChars 0 s.root.toNat 0 { s with outLen := 0#32 } := by
  have nonzero : s.bitLen.toNat ≠ 0 := fun zero => h (State.bitChars_eq_nil.2 (BitVec.eq_of_toNat_eq zero))
  simp only [exec, execTdecode, valid, treeDecodeFrom, if_neg nonzero, reduceCtorEq, if_false]

end

section
variable {root p cur start : Nat} {s : State}

theorem treeDecode_nil_root : treeDecode root [] p root start s = done .ok s := if_neg (not_not.2 rfl)

theorem treeDecode_nil_incomplete (h : cur ≠ root) : treeDecode root [] p cur start s = raise .incomplete start s :=
  if_pos h

theorem treeDecode_badChar {x : Byte} {xs : List Byte} (hx : bitOf x = none) :
    treeDecode root (x :: xs) p cur start s = raise .badChar p s := by
  rw [treeDecode, hx]

/-- Where the root is a leaf, a '1' leads nowhere (R242). -/
theorem treeDecode_one_of_leaf {f : Nat} {x : Byte} (leaf : s.nodes[root]? = some (.leaf f x)) (xs : List Byte) :
    treeDecode root (chr true :: xs) p cur start s = raise .incomplete p s := by
  rw [treeDecode, bitOf_chr]
  simp only [nextNode, leaf, if_true]

end

theorem exec_tdecode_whole {s u : State} (valid : s.tree = .valid)
    (run : treeDecode s.root.toNat s.bitChars 0 s.root.toNat 0 { s with outLen := 0#32 } = done .ok u) :
    exec .tdecode s = done (if s.bitLen = 0#32 then .noData else .ok) u := by
  by_cases empty : s.bitLen = 0#32
  · rw [State.bitChars_eq_nil.2 empty, treeDecode_nil_root] at run
    rw [exec_tdecode_noData valid empty, if_pos empty]
    exact done_noData_of_done_ok run
  · rw [exec_tdecode_nonempty valid (mt State.bitChars_eq_nil.1 empty), if_neg empty, run]

/-- Where a path ends at an internal record, it began at one. -/
theorem internal_of_follow_internal {nodes : List Node} {i k : Nat} {bits : Code} (path : follow nodes i bits = some k)
    (internal : ∃ f l r, nodes[k]? = some (Node.internal f l r)) : ∃ f l r, nodes[i]? = some (Node.internal f l r) := by
  cases bits with
  | nil =>
    obtain rfl : i = k := Option.some.inj path
    exact internal
  | cons b bits =>
    obtain ⟨j, f, l, r, start, record, -⟩ := follow_next (p := []) path
    obtain rfl : i = j := Option.some.inj start
    exact ⟨f, l, r, record⟩

/-- From an empty OUT the loop goes through whole paths whose characters fit, and is left with what follows them. -/
theorem treeDecode_decodedTo {s : State} {chars : List Byte} {codes : List Code} {tail : Code} {rest : List Byte}
    (paths : List.Forall₂ (EndsAtLeaf s) chars codes) (fits : chars.length ≤ s.caps.out.toNat)
    (bits : s.bitChars = codeChars (codes.flatten ++ tail) ++ rest) :
    treeDecode s.root.toNat s.bitChars 0 s.root.toNat 0 { s with outLen := 0#32 } =
      treeDecode s.root.toNat (codeChars tail ++ rest) codes.flatten.length s.root.toNat codes.flatten.length
        (s.decodedTo chars) := by
  have run := treeDecode_codes paths (codeChars tail ++ rest) 0 { s with outLen := 0#32 } rfl rfl (by simpa using fits)
  rwa [← List.append_assoc, ← codeChars_append, ← bits, Nat.zero_add] at run

/-- A path to an internal record leaves the cursor there. -/
theorem treeDecode_unfinished {s : State} {chars : List Byte} {tail : Code} {k : Nat} (rest : List Byte) (p : Nat)
    (path : follow s.nodes s.root.toNat tail = some k) (internal : ∃ f l r, s.nodes[k]? = some (Node.internal f l r)) :
    treeDecode s.root.toNat (codeChars tail ++ rest) p s.root.toNat p (s.decodedTo chars) =
      treeDecode s.root.toNat rest (p + tail.length) k p (s.decodedTo chars) := by
  obtain ⟨f, l, r, record⟩ := internal
  obtain ⟨f', l', r', rootRecord⟩ := internal_of_follow_internal path ⟨f, l, r, record⟩
  exact treeDecode_internal (by simpa using rootRecord) tail rest p p k f l r (by simpa using path)
    (by simpa using record)

/-- Settles O51: the loop goes through the whole paths, and what follows them selects the end. -/
theorem tdecodeFollowsTheTree : Obligations.TdecodeFollowsTheTree := by
  refine ⟨by decide, fun s h => exec_tdecode_badSeq h ▸ raise_only .badSeq 0 s,
    fun s h => ⟨_, exec_tdecode_empty h, State.ended_Ended _ 0 rfl, rfl⟩,
    fun s chars codes tail rest c pos inv valid paths bits fits stop => ?_⟩
  have run := treeDecode_decodedTo paths fits bits
  suffices exec .tdecode s = .next ((s.decodedTo chars).ended c pos) from
    ⟨_, this, State.decodedTo_ended fits rfl⟩
  have nonempty := State.bitChars_ne_nil bits
  obtain ⟨rfl, rfl, rfl, rfl⟩ | ⟨⟨k, f, l, r, path, record⟩, rfl, rfl, unfinished, rfl⟩ |
    ⟨inside, rfl, rfl, x, xs, rfl, notZero, notOne⟩ | ⟨⟨f, x, leaf⟩, rfl, rfl, rfl, xs, rfl⟩ |
    ⟨rfl, ⟨x, path⟩, rfl, full⟩ := stop
  · exact exec_tdecode_whole valid (run.trans treeDecode_nil_root)
  · obtain ⟨-, n, forest⟩ := inv.tree.valid_forest valid
    have below := forest.follow_le path
    have away : k ≠ s.root.toNat := by
      have := List.length_pos_iff.2 unfinished
      omega
    rw [exec_tdecode_nonempty valid (nonempty (.inl unfinished)), run, treeDecode_unfinished _ _ path ⟨f, l, r, record⟩]
    exact treeDecode_nil_incomplete away
  · have noBit := bitOf_eq_none.2 ⟨notZero, notOne⟩
    rw [exec_tdecode_nonempty valid (nonempty (.inr (List.cons_ne_nil x xs))), run]
    obtain rfl | ⟨k, f, l, r, path, record⟩ := inside
    · exact treeDecode_badChar noBit
    · rw [treeDecode_unfinished _ _ path ⟨f, l, r, record⟩]
      exact treeDecode_badChar noBit
  · rw [exec_tdecode_nonempty valid (nonempty (.inr (List.cons_ne_nil _ xs))), run]
    exact treeDecode_one_of_leaf (by simpa using leaf) xs
  · have notNil : tail ≠ [] := by
      obtain ⟨-, -, rfl⟩ | ⟨-, -, h, -⟩ := path
      · exact List.cons_ne_nil _ _
      · exact h
    have capacity := treeDecode_code (s := s.decodedTo chars) (x := x) (code := tail) (by simpa [EndsAtLeaf] using path)
      rest codes.flatten.length codes.flatten.length
    rw [if_pos (by rw [State.decodedTo_outLen fits, State.decodedTo_caps]; omega), State.decodedTo_root] at capacity
    rw [exec_tdecode_nonempty valid (nonempty (.inl notNil)), run, capacity]
    rfl

end Sys2Proof.Machine
end

section
/-! PROOFS. The two decoders over the tree and the table HCODES made of it (45_decoder.md R249). Below an internal root
the cursor of TDECODE stands where RDECODE's accumulator leads from the root, so the loops go in step. On the one-leaf
tree they go in step up to the first '1', where TDECODE stops and RDECODE reads on. -/

namespace Sys2Proof.Machine

open Sys2Proof

set_option autoImplicit false

/-! ## Two or more leaves -/

section
variable {n root f l r : Nat} {nodes : List Node} (forest : Forest n nodes [root])
  (hroot : root < nodes.length) (top : nodes[root]? = some (.internal f l r)) {code : Code} {k : Nat}
  (path : follow nodes root code = some k)
include forest hroot top path

/-- The reverse lookup of a path to a leaf finds the leaf's character. -/
theorem Forest.ctReverse_treeCodes_leaf {g : Nat} {c : Byte} (leaf : nodes[k]? = some (.leaf g c)) :
    ∃ i, ctReverse code (treeCodes nodes root) = some (i, ⟨[c], code⟩) := by
  have entry : (⟨[c], code⟩ : CtEntry) ∈ treeCodes nodes root :=
    (forest.mem_treeCodes hroot top _).2 ⟨k, g, c, path, leaf, rfl⟩
  obtain ⟨i, hi⟩ := List.mem_iff_getElem?.1 entry
  exact ⟨i, (ctReverse_eq_some (forest.treeCodes_prefixFree hroot).nodup).2 ⟨hi, rfl⟩⟩

/-- The reverse lookup of a path to an internal record finds nothing. -/
theorem Forest.ctReverse_treeCodes_internal {g a b : Nat} (internal : nodes[k]? = some (.internal g a b)) :
    ctReverse code (treeCodes nodes root) = none := by
  rw [ctReverse_eq_none]
  intro member
  obtain ⟨e, he, rfl⟩ := List.mem_map.1 member
  obtain ⟨j, g', c, path', leaf, -⟩ := (forest.mem_treeCodes hroot top e).1 he
  obtain rfl : k = j := Option.some.inj (path.symm.trans path')
  rw [internal] at leaf
  cases leaf

end

/-- A child of a record is a record. -/
theorem Forest.child_record {n : Nat} {nodes : List Node} {queue : List Nat} (h : Forest n nodes queue) {i g a b : Nat}
    (hi : nodes[i]? = some (.internal g a b)) (bit : Bool) :
    (∃ f c, nodes[if bit then b else a]? = some (Node.leaf f c)) ∨
      ∃ f l r, nodes[if bit then b else a]? = some (Node.internal f l r) := by
  have child : ChildOf nodes (if bit then b else a) i := ⟨g, a, b, hi, by cases bit <;> simp⟩
  exact record_cases ((h.child_lt child).trans child.lt_length)

/-- Below an internal root the two loops do the same from wherever the accumulator leads the cursor. -/
theorem treeDecode_eq_tableDecode {n root f l r : Nat} {nodes : List Node} (forest : Forest n nodes [root])
    (hroot : root < nodes.length) (top : nodes[root]? = some (.internal f l r)) (cs : List Byte) (p cur start : Nat)
    (acc : Code) (s : State) (nodes_eq : s.nodes = nodes) (table : s.ct = treeCodes nodes root) (one : s.symLen = 1#32)
    (path : follow nodes root acc = some cur) (inside : ∃ g a b, nodes[cur]? = some (Node.internal g a b)) :
    treeDecode root cs p cur start s = tableDecode cs p acc start s := by
  induction cs generalizing p cur start acc s with
  | nil =>
    have same : cur ≠ root ↔ acc ≠ [] := not_congr
      ⟨fun h => forest.path_unique (path.trans (congrArg some h)) rfl, fun h => by
        rw [h] at path
        exact (Option.some.inj path).symm⟩
    rw [treeDecode, tableDecode]
    simp only [same]
  | cons c cs ih =>
    rw [treeDecode, tableDecode]
    cases bitOf c with
    | none => rfl
    | some bit =>
      obtain ⟨g, a, b, record⟩ := inside
      have next : nextNode nodes root cur bit = some (if bit then b else a) := by
        simp only [nextNode, top, record]
      have path' : follow nodes root (acc ++ [bit]) = some (if bit then b else a) := by
        rw [follow_append, path]
        simp only [Option.bind, follow, record]
      simp only [nodes_eq, next, table]
      obtain ⟨g', x, leaf⟩ | ⟨g', a', b', internal⟩ := forest.child_record record bit
      · obtain ⟨i, found⟩ := forest.ctReverse_treeCodes_leaf hroot top path' leaf
        simp only [leaf, found, one]
        rw [ih (p + 1) root (p + 1) [] (s.emit [x]) (by simpa using nodes_eq) (by simpa using table)
          (by simpa using one) rfl ⟨f, l, r, top⟩]
        rfl
      · simp only [internal, forest.ctReverse_treeCodes_internal hroot top path' internal]
        exact ih (p + 1) _ start (acc ++ [bit]) s nodes_eq table one path' ⟨g', a', b', internal⟩

/-! ## One leaf -/

/-- What the one-leaf tree can hide from TDECODE: a stop at the '1' at `pos`, before the element at `pos'`, no bit, at
which RDECODE stops. -/
def MasksBadChar (bits : List Byte) (c : Completion) (pos : Nat) (d : Completion) (pos' : Nat) : Prop :=
  c = .incomplete ∧ d = .badChar ∧ pos < pos' ∧ bits[pos]? = some 0x31#8 ∧ ∃ x, bits[pos']? = some x ∧ bitOf x = none

/-- From an accumulator that begins no code the loop reads to the end or to the first element that is no bit. -/
theorem tableDecode_of_no_code {acc : Code} {s : State} (h : ∀ q, acc ++ q ∉ s.ct.map CtEntry.code) (hne : acc ≠ [])
    (cs : List Byte) (p start : Nat) :
    tableDecode cs p acc start s = raise .incomplete start s ∨
      ∃ j x, cs[j]? = some x ∧ bitOf x = none ∧ tableDecode cs p acc start s = raise .badChar (p + j) s := by
  cases scan : scanBits 0 cs with
  | ok bits =>
    left
    have run := tableDecode_accumulate bits [] p acc start s (fun q _ _ => h q)
    rw [List.append_nil, ← scanBits_eq_ok.1 scan] at run
    exact run.trans (tableDecode_nil_incomplete (by simp [hne]))
  | error j =>
    right
    obtain ⟨bits, x, xs, rfl, noBit, rfl⟩ := scanBits_eq_error.1 scan
    refine ⟨bits.length, x, ?_, noBit, ?_⟩
    · rw [List.getElem?_append_right (codeChars_length bits).le, codeChars_length, Nat.sub_self]
      rfl
    · rw [tableDecode_accumulate bits (x :: xs) p acc start s (fun q _ _ => h q)]
      exact tableDecode_badChar noBit

/-- Over the one-leaf tree and its table the two loops are left with the same text, and end alike but for what TDECODE
masks. -/
theorem treeDecode_tableDecode_of_leaf {bits : List Byte} {f : Nat} {x : Byte} (cs : List Byte) (p : Nat) (s : State)
    (leaf : s.nodes[s.root.toNat]? = some (.leaf f x)) (table : s.ct = [⟨[x], [false]⟩]) (one : s.symLen = 1#32)
    (ahead : bits.drop p = cs) :
    ∃ (u : State) (c d : Completion) (pos pos' : Nat),
      treeDecode s.root.toNat cs p s.root.toNat p s = .next (u.ended c pos) ∧
      tableDecode cs p [] p s = .next (u.ended d pos') ∧ ((c = d ∧ pos = pos') ∨ MasksBadChar bits c pos d pos') := by
  induction cs generalizing p s with
  | nil => exact ⟨s, .ok, .ok, 0, 0, treeDecode_nil_root, rfl, .inl ⟨rfl, rfl⟩⟩
  | cons c cs ih =>
    have here : bits[p]? = some c := by
      have := congrArg (fun l : List Byte => l[0]?) ahead
      simpa using this
    have ahead' : bits.drop (p + 1) = cs := by rw [← List.tail_drop, ahead, List.tail_cons]
    cases hc : bitOf c with
    | none => exact ⟨s, .badChar, .badChar, p, p, treeDecode_badChar hc, tableDecode_badChar hc, .inl ⟨rfl, rfl⟩⟩
    | some bit =>
      obtain rfl := bitOf_eq_some.1 hc
      cases bit with
      | true =>
        have absent : ctReverse [true] s.ct = none := ctReverse_eq_none.2 (by simp [table])
        have read : tableDecode (chr true :: cs) p [] p s = tableDecode cs (p + 1) [true] p s := by
          rw [tableDecode]
          simp only [hc, List.nil_append, absent]
        rw [treeDecode_one_of_leaf leaf, read]
        obtain stop | ⟨j, y, hy, noBit, stop⟩ :=
          tableDecode_of_no_code (acc := [true]) (s := s) (by simp [table]) (List.cons_ne_nil _ _) cs (p + 1) p
        · exact ⟨s, _, _, _, _, rfl, stop, .inl ⟨rfl, rfl⟩⟩
        · refine ⟨s, _, _, _, _, rfl, stop, .inr ⟨rfl, rfl, by omega, here, y, ?_, noBit⟩⟩
          rwa [← List.getElem?_drop, ahead']
      | false =>
        have tree := treeDecode_code (s := s) (x := x) (.inl ⟨f, leaf, rfl⟩) cs p p
        have reverse := tableDecode_code (s := s) (e := ⟨[x], [false]⟩) (by simp [table]) (by simp [table])
          (List.cons_ne_nil _ _) (fun q _ _ other => by simpa [table] using other) cs p p
        rw [one] at reverse
        change treeDecode s.root.toNat (chr false :: cs) p s.root.toNat p s = _ at tree
        change tableDecode (chr false :: cs) p [] p s = _ at reverse
        rw [tree, reverse]
        by_cases full : s.caps.out.toNat < s.outLen.toNat + 1
        · exact ⟨s, _, _, _, _, if_pos full, if_pos full, .inl ⟨rfl, rfl⟩⟩
        · simp only [BitVec.toNat_ofNat, if_neg full]
          simpa using ih (p + 1) (s.emit [x]) (by simpa using leaf) (by simpa using table) (by simpa using one) ahead'

/-! ## The obligation -/

theorem State.element_bit_of_getElem? {s : State} {k : Nat} {x : Byte} (h : s.bitChars[k]? = some x) :
    s.element .bit k = x := by
  obtain ⟨hk, rfl⟩ := List.getElem?_eq_some_iff.1 h
  simp [State.bitChars, State.elements]

/-- What TDECODE masks, as the registers show it. -/
theorem MasksBadChar.registers {s u : State} {c d : Completion} {pos pos' : Nat}
    (h : MasksBadChar s.bitChars c pos d pos') :
    (u.ended c pos).code = .incomplete ∧ (u.ended d pos').code = .badChar ∧
      (u.ended c pos).errPos.toNat < (u.ended d pos').errPos.toNat ∧
      s.element .bit (u.ended c pos).errPos.toNat = 0x31#8 ∧ s.element .bit (u.ended d pos').errPos.toNat ≠ 0x30#8 ∧
      s.element .bit (u.ended d pos').errPos.toNat ≠ 0x31#8 := by
  obtain ⟨rfl, rfl, before, isOne, x, there, noBit⟩ := h
  have inside : pos' < 2 ^ 32 :=
    (State.bitChars_length s ▸ (List.getElem?_eq_some_iff.1 there).1).trans s.bitLen.isLt
  rw [State.ended_errPos, State.ended_errPos, word_toNat (before.trans inside), word_toNat inside,
    State.element_bit_of_getElem? isOne, State.element_bit_of_getElem? there]
  exact ⟨rfl, rfl, before, rfl, bitOf_eq_none.1 noBit⟩

/-- Settles O53: below an internal root the two loops are one; on the one-leaf tree they differ by what TDECODE masks. -/
theorem theTwoDecodersAgree : Obligations.TheTwoDecodersAgree := by
  intro s t inv valid run
  obtain ⟨hroot, n, forest⟩ := inv.tree.valid_forest valid
  have one : s.symLen = 1#32 := inv.tree.overCharacters (by simp [valid])
  rw [exec_hcodes_valid valid, done_eq_next] at run
  obtain ⟨t_tree, t_nodes, t_root, t_ct, t_symLen⟩ : t.tree = .valid ∧ t.nodes = s.nodes ∧ t.root = s.root ∧
      t.ct = treeCodes s.nodes s.root.toNat ∧ t.symLen = 1#32 := by
    subst run
    exact ⟨valid, rfl, rfl, rfl, one⟩
  rw [← t_nodes, ← t_root] at hroot forest t_ct
  rw [← t_nodes]
  by_cases empty : t.bitLen = 0#32
  · exact ⟨_, _, exec_tdecode_noData t_tree empty, exec_rdecode_empty empty, fun _ => rfl, rfl, rfl, .inl ⟨rfl, rfl⟩⟩
  have nonempty := mt State.bitChars_eq_nil.1 empty
  rw [exec_tdecode_nonempty t_tree nonempty, exec_rdecode_nonempty nonempty]
  obtain ⟨f, x, leaf⟩ | ⟨f, l, r, internal⟩ := record_cases hroot
  · rw [treeCodes_leaf leaf] at t_ct
    obtain ⟨u, c, d, pos, pos', tree, table, ends⟩ :=
      treeDecode_tableDecode_of_leaf t.bitChars 0 { t with outLen := 0#32 } leaf t_ct t_symLen List.drop_zero
    refine ⟨_, _, tree, table, fun two => ?_, rfl, rfl, ends.imp ?_ MasksBadChar.registers⟩
    · have zero := forest.eq_root_of_leaf leaf (k := 0) (by omega)
      have last := forest.eq_root_of_leaf leaf (k := 1) (by omega)
      omega
    · rintro ⟨rfl, rfl⟩
      exact ⟨rfl, rfl⟩
  · obtain ⟨u, c, pos, tree, -⟩ := treeDecode_frame t.root.toNat t.bitChars 0 t.root.toNat 0 { t with outLen := 0#32 }
    have same := treeDecode_eq_tableDecode forest hroot internal t.bitChars 0 t.root.toNat 0 [] { t with outLen := 0#32 }
      rfl t_ct t_symLen rfl ⟨f, l, r, internal⟩
    exact ⟨_, _, tree, same ▸ tree, fun _ => rfl, rfl, rfl, .inl ⟨rfl, rfl⟩⟩

end Sys2Proof.Machine
end

section
/-! PROOFS. How each command ends (60_exceptions.md R261, R263, R270, R271, R275). The rules name three kinds of state in
which a command ends before it does its work: `LacksState` gives BADSEQ, `OutOfRange` gives BADOPERAND, `InputEmpty` gives
NODATA and the empty result. In every other state the command ends with OK or with a stop of its own. Each of the four is
proved once, command by command, and `exec_ending` puts them together; the obligations follow from it. -/

namespace Sys2Proof.Machine

open Sys2Proof

set_option autoImplicit false

/-! ## The three kinds of state -/

/-- The command's state is not there (R270). HSTEP's second alternative is met in no state that keeps the invariant
(log entry 9). -/
def LacksState (i : Instr) (s : State) : Prop :=
  match i with
  | .fcount | .encode => ¬ s.symLen.toNat ∣ s.txtLen.toNat
  | .hinit | .hbuild => s.symLen ≠ 1#32
  | .hstep => s.tree ≠ .building ∨ mergeStep s = none
  | .hcodes | .tdecode => s.tree = .none ∨ s.tree = .building
  | .sfpart | .slGet _ => s.sl = none
  | _ => False

/-- The command's operand is outside its range (R271). -/
def OutOfRange (i : Instr) (s : State) : Prop :=
  match i with
  | .ftGet imm => s.ft.length ≤ imm
  | .ndGet imm => s.nodes.length ≤ imm
  | .pqGet imm => s.queue.length ≤ imm
  | .slGet imm => ∃ l, s.sl = some l ∧ l.length ≤ imm
  | .ctGet imm => s.ct.length ≤ imm
  | .segment => s.blkLen.toNat = 0 ∨ 256 < s.blkLen.toNat
  | _ => False

/-- The command's preconditions hold and its primary input is empty (R263). -/
def InputEmpty (i : Instr) (s : State) : Prop :=
  match i with
  | .fcount | .seglen | .encode => s.txtLen = 0#32
  | .segment => s.txtLen = 0#32 ∧ 1 ≤ s.blkLen.toNat ∧ s.blkLen.toNat ≤ 256
  | .hinit | .hbuild => s.symLen = 1#32 ∧ s.ft = []
  | .hcodes => s.tree = .empty
  | .sfsort | .sfbuild => s.ft = []
  | .sfpart => s.sl ≠ none ∧ s.ft = []
  | .tdecode => (s.tree = .empty ∨ s.tree = .valid) ∧ s.bitLen = 0#32
  | .rdecode => s.bitLen = 0#32
  | _ => False

/-- The command's empty result (R263). -/
def EmptyResult (i : Instr) (s t : State) : Prop :=
  match i with
  | .fcount => t.ft = []
  | .seglen => t.blkLen = 1#32
  | .segment => t.txtLen = 0#32 ∧ t.symLen = s.blkLen
  | .hinit | .hbuild => t.tree = .empty ∧ t.nodes = []
  | .hcodes | .sfpart | .sfbuild => t.ct = []
  | .sfsort => t.sl = some []
  | .encode => t.bitLen = 0#32
  | .tdecode | .rdecode => t.outLen = 0#32
  | _ => True

/-! ## Empty and non-empty inputs -/

section
variable {α : Type} {l : List α}

theorem done_of_empty (h : l = []) (s : State) : done (okOrNoData l.isEmpty) s = done .noData s := by
  rw [h]
  rfl

theorem done_of_nonempty (h : l ≠ []) (s : State) : done (okOrNoData l.isEmpty) s = done .ok s := by
  rw [List.isEmpty_eq_false_iff.2 h]
  rfl

end

theorem State.textSymbols_eq_nil {s : State} (h : s.txtLen = 0#32) : s.textSymbols = [] := by
  rw [← List.length_eq_zero_iff, State.textSymbols_length, h]
  exact Nat.zero_div _

theorem State.textSymbols_ne_nil {s : State} (whole : s.symLen.toNat ∣ s.txtLen.toNat) (h : s.txtLen ≠ 0#32) :
    s.textSymbols ≠ [] := by
  rw [Ne, ← List.length_eq_zero_iff, State.textSymbols_length]
  intro none
  exact h (BitVec.eq_of_toNat_eq (Nat.eq_zero_of_dvd_of_div_eq_zero whole none))

theorem paddedLength_zero {l : Nat} (h : 1 ≤ l) : paddedLength 0 l = 0 :=
  paddedLength_eq (Nat.dvd_zero l) le_rfl (by omega)

theorem le_paddedLength {len l : Nat} (h : 1 ≤ l) : len ≤ paddedLength len l := by
  have parts := Nat.div_add_mod' (len + l - 1) l
  have rest := Nat.mod_lt (len + l - 1) h
  rw [paddedLength]
  omega

theorem startTree_of_empty {s : State} (h : s.ft = []) : (startTree s).tree = .empty ∧ (startTree s).nodes = [] := by
  simp [h]

theorem sortedList_of_empty {ft : List FtEntry} (h : ft = []) : sortedList ft = [] := by
  rw [h]
  rfl

theorem partitionCodes_of_empty {ft : List FtEntry} (h : ft = []) (l : List Nat) : partitionCodes (blocksOf ft l) = [] := by
  have none : blocksOf ft l = [] := List.filterMap_eq_nil_iff.2 fun i _ => by rw [h]; rfl
  rw [none]
  rfl

/-! ## The three early ends, command by command -/

theorem exec_of_lacksState {i : Instr} {s : State} (h : LacksState i s) : exec i s = raise .badSeq 0 s := by
  cases i
  case fcount => exact exec_fcount_badSeq (mt Nat.dvd_of_mod_eq_zero h)
  case encode => exact exec_encode_badSeq (mt Nat.dvd_of_mod_eq_zero h)
  case hinit => exact exec_hinit_badSeq h
  case hbuild => exact exec_hbuild_badSeq h
  case hstep =>
    by_cases building : s.tree = .building
    · rw [exec, execHstep, if_neg (not_not.2 building), h.resolve_left (not_not.2 building)]
    · exact exec_hstep_badSeq building
  case hcodes => exact exec_hcodes_badSeq h
  case tdecode => exact exec_tdecode_badSeq h
  case sfpart => exact exec_sfpart_badSeq h
  case slGet => exact exec_slGet_badSeq h
  all_goals exact h.elim

theorem exec_of_outOfRange {i : Instr} {s : State} (h : OutOfRange i s) : exec i s = raise .badOperand 0 s := by
  cases i
  case ftGet => exact exec_ftGet_none (List.getElem?_eq_none h)
  case ndGet => exact exec_ndGet_none (List.getElem?_eq_none h)
  case pqGet => exact exec_pqGet_none (List.getElem?_eq_none ((popOrder_length _ _).trans_le h))
  case slGet =>
    obtain ⟨l, hl, beyond⟩ := h
    exact exec_slGet_badOperand hl beyond
  case ctGet => exact exec_ctGet_none (List.getElem?_eq_none h)
  case segment => exact exec_segment_badOperand h
  all_goals exact h.elim

theorem exec_of_inputEmpty {i : Instr} {s : State} (h : InputEmpty i s) :
    ∃ u, exec i s = done .noData u ∧ u.err = s.err ∧ EmptyResult i s u := by
  cases i
  case fcount =>
    have noSymbols := State.textSymbols_eq_nil h
    have whole : s.txtLen.toNat % s.symLen.toNat = 0 := by rw [h]; exact Nat.zero_mod _
    exact ⟨_, (exec_fcount_done whole (by rw [noSymbols]; rfl)).trans (done_of_empty noSymbols _), rfl, rfl⟩
  case encode =>
    have noSymbols := State.textSymbols_eq_nil h
    have whole : s.txtLen.toNat % s.symLen.toNat = 0 := by rw [h]; exact Nat.zero_mod _
    have run : encodeSymbols s.symLen.toNat s.textSymbols 0 { s with bitLen := 0#32 } =
        ({ s with bitLen := 0#32 }, none) := by rw [noSymbols]; rfl
    exact ⟨_, (exec_encode_done whole run).trans (done_of_empty noSymbols _), rfl, rfl⟩
  case seglen => exact ⟨_, exec_seglen_empty h, rfl, rfl⟩
  case segment =>
    obtain ⟨empty, low, high⟩ := h
    have zero : paddedLength s.txtLen.toNat s.blkLen.toNat = 0 := by rw [empty]; exact paddedLength_zero low
    have run := exec_segment_done (s := s) (by omega) (by omega)
    rw [State.setSymLen_padText, zero] at run
    exact ⟨_, run, rfl, rfl, rfl⟩
  case hinit =>
    obtain ⟨one, empty⟩ := h
    exact ⟨_, (exec_hinit_done one).trans (done_of_empty empty _), rfl, startTree_of_empty empty⟩
  case hbuild =>
    obtain ⟨one, empty⟩ := h
    have result := startTree_of_empty empty
    have still : (startTree s).tree ≠ .building := by rw [result.1]; decide
    have run := exec_hbuild_done one
    rw [mergeWhileBuilding_of_not_building still, done_of_empty empty] at run
    exact ⟨_, run, rfl, result⟩
  case hcodes => exact ⟨_, exec_hcodes_empty h, rfl, rfl⟩
  case sfsort =>
    exact ⟨_, (exec_sfsort s).trans (done_of_empty h _), rfl, congrArg some (sortedList_of_empty h)⟩
  case sfbuild =>
    exact ⟨_, (exec_sfbuild s).trans (done_of_empty h _), rfl, partitionCodes_of_empty h _⟩
  case sfpart =>
    obtain ⟨sorted, empty⟩ := h
    obtain ⟨l, hl⟩ := Option.ne_none_iff_exists'.1 sorted
    exact ⟨_, (exec_sfpart_done hl).trans (done_of_empty empty _), rfl, partitionCodes_of_empty empty l⟩
  case tdecode =>
    obtain ⟨empty | valid, none⟩ := h
    · have run := exec_tdecode_empty empty
      rw [if_pos none] at run
      exact ⟨_, run, rfl, rfl⟩
    · exact ⟨_, exec_tdecode_noData valid none, rfl, rfl⟩
  case rdecode => exact ⟨_, exec_rdecode_empty h, rfl, rfl⟩
  all_goals exact h.elim

/-! ## Every other state -/

/-- A code of the command's row (R275) that is none of the three early ones. -/
abbrev LaterCode (i : Instr) (c : Completion) : Prop :=
  c ∈ codesOfCommand i ∧ c ∉ [.badSeq, .badOperand, .noData]

/-- The command ends with one of its later codes, and up to that end it left ERR alone, CLEAR excepted. -/
def EndsOtherwise (i : Instr) (s : State) (r : Result) : Prop :=
  ∃ (u : State) (c : Completion) (pos : Nat), r = .next (u.ended c pos) ∧ LaterCode i c ∧
    (i ≠ .clear → u.err = s.err)

theorem EndsOtherwise.ok {i : Instr} {s u : State} {r : Result} (run : r = done .ok u)
    (err : i ≠ .clear → u.err = s.err) : EndsOtherwise i s r :=
  ⟨u, .ok, 0, run, ⟨by cases i <;> simp [codesOfCommand], by decide⟩, err⟩

theorem fcount_endsOtherwise {s : State} (whole : s.symLen.toNat ∣ s.txtLen.toNat) (nonempty : s.txtLen ≠ 0#32) :
    EndsOtherwise .fcount s (exec .fcount s) := by
  have mod := Nat.mod_eq_zero_of_dvd whole
  rcases run : countSymbols s.caps.sym.toNat s.symLen.toNat s.textSymbols 0 [] with ⟨ft, stop⟩
  cases stop with
  | none =>
    exact .ok ((exec_fcount_done mod run).trans (done_of_nonempty (State.textSymbols_ne_nil whole nonempty) _)) fun _ => rfl
  | some pos => exact ⟨_, _, _, exec_fcount_capacity mod run, by decide, fun _ => rfl⟩

theorem encode_endsOtherwise {s : State} (whole : s.symLen.toNat ∣ s.txtLen.toNat) (nonempty : s.txtLen ≠ 0#32) :
    EndsOtherwise .encode s (exec .encode s) := by
  have mod := Nat.mod_eq_zero_of_dvd whole
  obtain ⟨u, stop, run, frame, ends, -⟩ := encodeSymbols_frame s.symLen.toNat s.textSymbols 0 { s with bitLen := 0#32 }
  have err : u.err = s.err := by rw [frame]
  obtain rfl | ⟨pos, rfl | rfl⟩ := ends
  · exact .ok ((exec_encode_done mod run).trans (done_of_nonempty (State.textSymbols_ne_nil whole nonempty) _)) fun _ => err
  · exact ⟨_, _, _, exec_encode_stop mod run, by decide, fun _ => err⟩
  · exact ⟨_, _, _, exec_encode_stop mod run, by decide, fun _ => err⟩

theorem segment_endsOtherwise {s : State} (range : ¬ (s.blkLen.toNat = 0 ∨ 256 < s.blkLen.toNat))
    (nonempty : s.txtLen ≠ 0#32) : EndsOtherwise .segment s (exec .segment s) := by
  by_cases fits : s.caps.txt.toNat < paddedLength s.txtLen.toNat s.blkLen.toNat
  · exact ⟨_, _, _, exec_segment_capacity range fits, by decide, fun _ => rfl⟩
  · have longer : s.txtLen.toNat ≤ paddedLength s.txtLen.toNat s.blkLen.toNat := le_paddedLength (by omega)
    have positive : s.txtLen.toNat ≠ 0 := fun zero => nonempty (BitVec.eq_of_toNat_eq zero)
    have run := exec_segment_done range fits
    rw [State.setSymLen_padText, decide_eq_false (by omega)] at run
    exact .ok run fun _ => rfl

theorem ctAdd_endsOtherwise (s : State) : EndsOtherwise .ctAdd s (exec .ctAdd s) := by
  cases staged : s.stagedCode with
  | error j => exact ⟨_, _, _, exec_ctAdd_badChar staged, by decide, fun _ => rfl⟩
  | ok code =>
    by_cases known : s.stagedSymbol ∈ s.ct.map CtEntry.sym ∨ code ∈ s.ct.map CtEntry.code
    · exact ⟨_, _, _, exec_ctAdd_duplicate staged known, by decide, fun _ => rfl⟩
    · obtain ⟨newSymbol, newCode⟩ := not_or.1 known
      rw [exec_ctAdd_new staged newSymbol newCode]
      split
      · exact ⟨_, _, _, rfl, by decide, fun _ => rfl⟩
      · exact .ok rfl fun _ => rfl

theorem ctFwd_endsOtherwise (s : State) : EndsOtherwise .ctFwd s (exec .ctFwd s) := by
  cases found : ctForward s.stagedSymbol s.ct with
  | none => exact .ok (exec_ctFwd_miss found) fun _ => rfl
  | some entry => exact .ok (exec_ctFwd_hit found) fun _ => by simp [State.stageCode_eq]

theorem ctRev_endsOtherwise (s : State) : EndsOtherwise .ctRev s (exec .ctRev s) := by
  cases staged : s.stagedCode with
  | error j => exact ⟨_, _, _, exec_ctRev_badChar staged, by decide, fun _ => rfl⟩
  | ok code =>
    cases found : ctReverse code s.ct with
    | none => exact .ok (exec_ctRev_miss staged found) fun _ => rfl
    | some entry => exact .ok (exec_ctRev_hit staged found) fun _ => by simp [State.stageSymbol_eq]

/-- The codes that either decoder's loop ends with are codes of that decoder. -/
theorem laterCode_decoders {c : Completion} {pos : Nat}
    (h : c = .ok ∧ pos = 0 ∨ c = .incomplete ∨ c = .badChar ∨ c = .capacity) :
    LaterCode .tdecode c ∧ LaterCode .rdecode c := by
  obtain ⟨rfl, -⟩ | rfl | rfl | rfl := h <;> decide

theorem rdecode_endsOtherwise {s : State} (nonempty : s.bitLen ≠ 0#32) : EndsOtherwise .rdecode s (exec .rdecode s) := by
  obtain ⟨u, c, pos, run, frame, codes⟩ := tableDecode_frame s.bitChars 0 [] 0 { s with outLen := 0#32 }
  have start := exec_rdecode_nonempty (mt State.bitChars_eq_nil.1 nonempty)
  exact ⟨u, c, pos, start.trans run, (laterCode_decoders codes).2, fun _ => by rw [frame]⟩

theorem tdecode_endsOtherwise {s : State} (tree : s.tree = .empty ∨ s.tree = .valid) (nonempty : s.bitLen ≠ 0#32) :
    EndsOtherwise .tdecode s (exec .tdecode s) := by
  obtain empty | valid := tree
  · have run := exec_tdecode_empty empty
    rw [if_neg nonempty] at run
    exact ⟨_, _, _, run, by decide, fun _ => rfl⟩
  · obtain ⟨u, c, pos, run, frame, codes⟩ :=
      treeDecode_frame s.root.toNat s.bitChars 0 s.root.toNat 0 { s with outLen := 0#32 }
    have start := exec_tdecode_nonempty valid (mt State.bitChars_eq_nil.1 nonempty)
    exact ⟨u, c, pos, start.trans run, (laterCode_decoders codes).1, fun _ => by rw [frame]⟩

theorem TreeState.built_of_not {tree : TreeState} (h : ¬ (tree = .none ∨ tree = .building)) :
    tree = .empty ∨ tree = .valid := by
  cases tree <;> simp at h ⊢

section
variable {i : Instr} {s : State} (present : ¬ LacksState i s) (inRange : ¬ OutOfRange i s) (nonempty : ¬ InputEmpty i s)
include present inRange nonempty

theorem exec_endsOtherwise : EndsOtherwise i s (exec i s) := by
  cases i
  case nop => exact .ok (exec_nop s) fun _ => rfl
  case clear => exact .ok (exec_clear s) (absurd rfl)
  case ctClear => exact .ok (exec_ctClear s) fun _ => rfl
  case fcount => exact fcount_endsOtherwise (not_not.1 present) nonempty
  case encode => exact encode_endsOtherwise (not_not.1 present) nonempty
  case seglen => exact .ok (exec_seglen_done nonempty) fun _ => rfl
  case segment =>
    refine segment_endsOtherwise inRange fun empty => nonempty ⟨empty, ?_⟩
    have range : ¬ (s.blkLen.toNat = 0 ∨ 256 < s.blkLen.toNat) := inRange
    omega
  case ftGet imm =>
    exact .ok (exec_ftGet_some (List.getElem?_eq_getElem (not_le.1 inRange))) fun _ => by simp [State.stageSymbol_eq]
  case ctGet imm =>
    exact .ok (exec_ctGet_some (List.getElem?_eq_getElem (not_le.1 inRange))) fun _ => by
      simp [State.stageSymbol_eq, State.stageCode_eq]
  case ndGet imm =>
    obtain ⟨f, c, leaf⟩ | ⟨f, l, r, internal⟩ := record_cases (not_le.1 inRange)
    · exact .ok (exec_ndGet_leaf leaf) fun _ => rfl
    · exact .ok (exec_ndGet_internal internal) fun _ => rfl
  case pqGet imm =>
    have within : imm < (popOrder s.nodes s.queue).length := (popOrder_length _ _).symm ▸ not_le.1 inRange
    exact .ok (exec_pqGet_some (List.getElem?_eq_getElem within)) fun _ => rfl
  case slGet imm =>
    obtain ⟨l, hl⟩ := Option.ne_none_iff_exists'.1 present
    have within : imm < l.length := not_le.1 fun beyond => inRange ⟨l, hl, beyond⟩
    exact .ok (exec_slGet_some hl (List.getElem?_eq_getElem within)) fun _ => rfl
  case hinit =>
    have one := not_not.1 present
    exact .ok ((exec_hinit_done one).trans (done_of_nonempty (fun empty => nonempty ⟨one, empty⟩) _)) fun _ => rfl
  case hbuild =>
    have one := not_not.1 present
    obtain ⟨u, build, frame⟩ := mergeWhileBuilding_frame s.ft.length (startTree s)
    refine .ok ((exec_hbuild_done one).trans (done_of_nonempty (fun empty => nonempty ⟨one, empty⟩) _)) fun _ => ?_
    rw [build, frame]
    rfl
  case hstep =>
    obtain ⟨building, merges⟩ := not_or.1 present
    obtain ⟨u, merge⟩ := Option.ne_none_iff_exists'.1 merges
    refine .ok (exec_hstep_done (not_not.1 building) merge) fun _ => ?_
    rw [mergeStep_frame merge]
  case hcodes => exact .ok (exec_hcodes_valid ((TreeState.built_of_not present).resolve_left nonempty)) fun _ => rfl
  case sfsort => exact .ok ((exec_sfsort s).trans (done_of_nonempty nonempty _)) fun _ => rfl
  case sfbuild => exact .ok ((exec_sfbuild s).trans (done_of_nonempty nonempty _)) fun _ => rfl
  case sfpart =>
    obtain ⟨l, hl⟩ := Option.ne_none_iff_exists'.1 present
    exact .ok ((exec_sfpart_done hl).trans (done_of_nonempty (fun empty => nonempty ⟨present, empty⟩) _)) fun _ => rfl
  case ctAdd => exact ctAdd_endsOtherwise s
  case ctFwd => exact ctFwd_endsOtherwise s
  case ctRev => exact ctRev_endsOtherwise s
  case tdecode =>
    have built := TreeState.built_of_not present
    exact tdecode_endsOtherwise built fun empty => nonempty ⟨built, empty⟩
  case rdecode => exact rdecode_endsOtherwise nonempty

end

/-! ## One of four ends -/

/-- How the command `i`, issued in `s`, can have led to `t`. -/
inductive Ending (i : Instr) (s : State) : State → Prop
  | badSeq (lacks : LacksState i s) : Ending i s (s.ended .badSeq 0)
  | badOperand (out : OutOfRange i s) : Ending i s (s.ended .badOperand 0)
  | noData (u : State) (empty : InputEmpty i s) (err : u.err = s.err) (result : EmptyResult i s u) :
      Ending i s (u.ended .noData 0)
  | otherwise (u : State) (c : Completion) (pos : Nat) (code : LaterCode i c) (err : i ≠ .clear → u.err = s.err) :
      Ending i s (u.ended c pos)

theorem LacksState.listed {i : Instr} {s : State} (h : LacksState i s) : .badSeq ∈ codesOfCommand i := by
  cases i <;> simp [LacksState, codesOfCommand] at h ⊢

theorem OutOfRange.listed {i : Instr} {s : State} (h : OutOfRange i s) : .badOperand ∈ codesOfCommand i := by
  cases i <;> simp [OutOfRange, codesOfCommand] at h ⊢

theorem InputEmpty.listed {i : Instr} {s : State} (h : InputEmpty i s) : .noData ∈ codesOfCommand i := by
  cases i <;> simp [InputEmpty, codesOfCommand] at h ⊢

theorem EmptyResult.ended {i : Instr} {s u : State} (h : EmptyResult i s u) (c : Completion) (pos : Nat) :
    EmptyResult i s (u.ended c pos) := by
  cases i <;> exact h

section
variable {i : Instr} {s t : State}

theorem exec_ending (h : exec i s = .next t) : Ending i s t := by
  by_cases lacks : LacksState i s
  · rw [exec_of_lacksState lacks, raise_eq_next] at h
    exact h ▸ .badSeq lacks
  by_cases out : OutOfRange i s
  · rw [exec_of_outOfRange out, raise_eq_next] at h
    exact h ▸ .badOperand out
  by_cases empty : InputEmpty i s
  · obtain ⟨u, run, err, result⟩ := exec_of_inputEmpty empty
    rw [run, done_eq_next] at h
    exact h ▸ .noData u empty err result
  · obtain ⟨u, c, pos, run, later, err⟩ := exec_endsOtherwise lacks out empty
    exact Host.Outcome.next.inj (run.symm.trans h) ▸ .otherwise u c pos later err

theorem Ending.listed (h : Ending i s t) : t.code ∈ codesOfCommand i := by
  cases h with
  | badSeq lacks => exact lacks.listed
  | badOperand out => exact out.listed
  | noData u empty => exact empty.listed
  | otherwise u c pos later => exact later.1

/-- The flag before the last write of ERR is the command's own only for CLEAR (R261). -/
theorem Ending.err (h : Ending i s t) : ∃ e, t.err = nextErr t.code e ∧ (i ≠ .clear → e = s.err) := by
  cases h with
  | badSeq => exact ⟨s.err, rfl, fun _ => rfl⟩
  | badOperand => exact ⟨s.err, rfl, fun _ => rfl⟩
  | noData u empty err => exact ⟨u.err, rfl, fun _ => err⟩
  | otherwise u c pos later err => exact ⟨u.err, rfl, err⟩

theorem Ending.of_badSeq (h : Ending i s t) (code : t.code = .badSeq) : LacksState i s ∧ OnlyEndingChanged s t := by
  cases h with
  | badSeq lacks => exact ⟨lacks, State.ended_only s .badSeq 0⟩
  | badOperand | noData => nomatch code
  | otherwise u c pos later =>
    obtain rfl : c = .badSeq := code
    exact absurd (by decide) later.2

theorem Ending.of_badOperand (h : Ending i s t) (code : t.code = .badOperand) :
    OutOfRange i s ∧ OnlyEndingChanged s t := by
  cases h with
  | badOperand out => exact ⟨out, State.ended_only s .badOperand 0⟩
  | badSeq | noData => nomatch code
  | otherwise u c pos later =>
    obtain rfl : c = .badOperand := code
    exact absurd (by decide) later.2

theorem Ending.of_noData (h : Ending i s t) (code : t.code = .noData) : InputEmpty i s ∧ EmptyResult i s t := by
  cases h with
  | noData u empty err result => exact ⟨empty, result.ended .noData 0⟩
  | badSeq | badOperand => nomatch code
  | otherwise u c pos later =>
    obtain rfl : c = .noData := code
    exact absurd (by decide) later.2

theorem code_eq_badSeq_iff (h : exec i s = .next t) : t.code = .badSeq ↔ LacksState i s := by
  refine ⟨fun code => ((exec_ending h).of_badSeq code).1, fun lacks => ?_⟩
  rw [exec_of_lacksState lacks, raise_eq_next] at h
  rw [← h, State.ended_code]

theorem code_eq_badOperand_iff (h : exec i s = .next t) : t.code = .badOperand ↔ OutOfRange i s := by
  refine ⟨fun code => ((exec_ending h).of_badOperand code).1, fun out => ?_⟩
  rw [exec_of_outOfRange out, raise_eq_next] at h
  rw [← h, State.ended_code]

theorem code_eq_noData_iff (h : exec i s = .next t) : t.code = .noData ↔ InputEmpty i s := by
  refine ⟨fun code => ((exec_ending h).of_noData code).1, fun empty => ?_⟩
  obtain ⟨u, run, -⟩ := exec_of_inputEmpty empty
  rw [run, done_eq_next] at h
  rw [← h, State.ended_code]

end

/-! ## What the invariant adds -/

/-- A tree that is BUILDING has two nodes to merge (R31). -/
theorem TreeInvariant.mergeStep_ne_none {s : State} (h : TreeInvariant s) (building : s.tree = .building) :
    mergeStep s ≠ none := by
  obtain ⟨a, b, q, -, -, -, -, -, -, -, merge⟩ := mergeStep_spec h.queue_nodup (h.building building).1
  rw [merge]
  exact Option.some_ne_none _

theorem lacksState_hstep_iff {s : State} (h : TreeInvariant s) : LacksState .hstep s ↔ s.tree ≠ .building :=
  or_iff_left_of_imp fun none building => h.mergeStep_ne_none building none

theorem outOfRange_slGet_iff {s : State} (h : SlInvariant s) (imm : Nat) :
    OutOfRange (.slGet imm) s ↔ s.sl ≠ none ∧ s.ft.length ≤ imm := by
  cases hl : s.sl with
  | none => simp [OutOfRange, hl]
  | some l => simp [OutOfRange, hl, length_of_perm_range (h l hl).1]

/-! ## ERR outside the commands -/

theorem csrWrite_err (a : BitVec 8) (v : Word) (s : State) : (csrWrite a v s).err = s.err := by
  unfold csrWrite
  split
  case h_1 | h_3 | h_4 | h_5 => split <;> rfl
  case h_2 | h_6 => rfl

theorem bufferWrite_err (id : BitVec 8) (k : Nat) (v : Word) (s : State) : (bufferWrite id k v s).err = s.err := by
  unfold bufferWrite
  split
  · rfl
  · split
    · exact State.setMemory_err _ _ s
    · rfl

theorem performAccess_err (a : Access) (s : State) : (performAccess a s).err = s.err := by
  cases a with
  | csrRd | bufRd => rfl
  | csrWr r v => exact csrWrite_err r v s
  | bufWr id k v => exact bufferWrite_err id k v s

theorem Completion.isError_iff {c : Completion} : c.isError = true ↔ c ∉ [.ok, .noData] := by
  cases c <;> decide

theorem nextErr_error {c : Completion} (e : Bool) (h : c.isError = true) : nextErr c e = true := by
  rw [nextErr, h, Bool.or_true]

theorem runCommand_illegal_eq_next {w : Word} {s t : State} (hw : ∃ why, decode w = .illegal why)
    (h : runCommand w s = .next t) : s.ended .illegal 0 = t := by
  obtain ⟨why, hw⟩ := hw
  rwa [runCommand_illegal hw, takeIllegal, raise_eq_next] at h

/-- Of all words only CLEAR's takes ERR from 1 to 0. -/
theorem decode_eq_clear_of_err {w : Word} {s t : State} (h : runCommand w s = .next t) (before : s.err = true)
    (after : t.err = false) : decode w = .command .clear := by
  cases hw : decode w with
  | illegal why =>
    rw [← runCommand_illegal_eq_next ⟨why, hw⟩ h, State.ended_err, nextErr_error _ rfl] at after
    cases after
  | command i =>
    rw [runCommand_command hw] at h
    obtain ⟨e, err, kept⟩ := (exec_ending h).err
    by_contra other
    have notClear : i ≠ .clear := by
      rintro rfl
      exact other rfl
    rw [err, kept notClear, before] at after
    cases after

/-! ## The obligations -/

/-- Settles O13: each of the four ends has its code in the command's row. -/
theorem commandsEndOnlyWithTheirCodes : Obligations.CommandsEndOnlyWithTheirCodes := by
  refine ⟨fun i s t h => (exec_ending h).listed, fun w s t hw h => ?illegal⟩
  case illegal => rw [← runCommand_illegal_eq_next hw h, State.ended_code]

/-- Settles O14: a command other than CLEAR writes ERR once, at its end; no host access writes it. -/
theorem errIsStickyUntilResetOrClear : Obligations.ErrIsStickyUntilResetOrClear := by
  refine ⟨fun i s t h => ?command, fun w s t hw h => ?illegal, fun s t h before after => ?step⟩
  case command =>
    obtain ⟨e, err, kept⟩ := (exec_ending h).err
    refine ⟨fun error => ?_, fun success notClear => ?_, ?_⟩
    · rw [err, nextErr_error e (Completion.isError_iff.2 error)]
    · rw [err, nextErr_success e (Bool.eq_false_iff.2 fun error => Completion.isError_iff.1 error success), kept notClear]
    · rintro rfl
      rw [exec_clear, done_eq_next] at h
      rw [← h]
      rfl
  case illegal => rw [← runCommand_illegal_eq_next hw h, State.ended_err, nextErr_error s.err rfl]
  case step =>
    cases hp : s.pending with
    | nil =>
      rw [step_nil hp] at h
      cases h
      exact absurd (before.symm.trans after) (by decide)
    | cons tr rest =>
      rw [step_cons hp] at h
      cases tr with
      | reset => exact .inl ⟨rest, rfl⟩
      | cmd w => exact .inr ⟨w, rest, rfl, decode_eq_clear_of_err h before after⟩
      | access a =>
        cases h
        rw [performAccess_err] at after
        exact absurd (before.symm.trans after) (by decide)

/-- Settles O19: the list is `LacksState` row by row; for HSTEP the tree's invariant rules the second alternative out. -/
theorem badSeqExactlyInTheseCases : Obligations.BadSeqExactlyInTheseCases := by
  intro i s t inv h
  refine ⟨fun code => ((exec_ending h).of_badSeq code).2, (code_eq_badSeq_iff h).trans ?_⟩
  cases i
  case hstep => simp [lacksState_hstep_iff inv.tree]
  all_goals simp [LacksState]

/-- Settles O20: the list is `OutOfRange` row by row; a valid sorted list is as long as FT. -/
theorem badOperandExactlyInTheseCases : Obligations.BadOperandExactlyInTheseCases := by
  intro i s t inv h
  refine ⟨fun code => ((exec_ending h).of_badOperand code).2, (code_eq_badOperand_iff h).trans ?_⟩
  cases i
  case slGet imm => simp [outOfRange_slGet_iff inv.sl]
  all_goals simp [OutOfRange]

/-- Settles O21: the two lists are `InputEmpty` and `EmptyResult` row by row. -/
theorem noDataExactlyOnEmptyInput : Obligations.NoDataExactlyOnEmptyInput := by
  intro i s t _ h
  refine ⟨(code_eq_noData_iff h).trans ?cases, fun code => ?result⟩
  case cases => cases i <;> simp [InputEmpty]
  case result =>
    have result := ((exec_ending h).of_noData code).2
    cases i <;> simp
    all_goals exact result

end Sys2Proof.Machine
end

section
/-! PROOFS. The decoder against the encoder (30_encoding.md R104 to R106). A word that decodes to a command has that command's
opcode and operand, and the two fields make the word; conversely the fields of an encoded command select its arm. -/

namespace Sys2Proof

set_option autoImplicit false

/-! ## From a word to its command -/

/-- The fields of a word are those of the command `i`, whose immediate fits the operand field. -/
def HasFieldsOf (w : Word) (i : Instr) : Prop :=
  opcodeField w = i.opcode ∧ operandField w = i.operand ∧ i.wellFormed = true

theorem hasFieldsOf_of_formatN {w : Word} {i j : Instr} (h : formatN (operandField w) j = .command i)
    (opcode : (opcodeField w).toNat = j.opcode.toNat) (operand : j.operand = 0#24) (wellFormed : j.wellFormed = true) :
    HasFieldsOf w i := by
  obtain ⟨zero, rfl⟩ := formatN_eq_command.1 h
  exact ⟨BitVec.eq_of_toNat_eq opcode, zero.trans operand.symm, wellFormed⟩

theorem hasFieldsOf_of_formatI {w : Word} {i : Instr} {mk : Nat → Instr} (h : formatI (operandField w) mk = .command i)
    (opcode : ∀ imm, (opcodeField w).toNat = (mk imm).opcode.toNat)
    (operand : ∀ imm, (mk imm).operand = BitVec.ofNat 24 imm)
    (wellFormed : ∀ imm, (mk imm).wellFormed = decide (imm < immBound)) : HasFieldsOf w i := by
  cases h
  refine ⟨BitVec.eq_of_toNat_eq (opcode _), ?_, (wellFormed _).trans (decide_eq_true (toNat_lt_immBound _))⟩
  rw [operand, BitVec.ofNat_toNat, BitVec.setWidth_eq]

theorem hasFieldsOf_of_decode {w : Word} {i : Instr} (h : decode w = .command i) : HasFieldsOf w i := by
  unfold decode at h
  split at h
  case h_6 op | h_11 op | h_12 op | h_16 op | h_19 op =>
    exact hasFieldsOf_of_formatI h (fun _ => op) (fun _ => rfl) (fun _ => rfl)
  case h_25 => cases h
  all_goals
    next op => exact hasFieldsOf_of_formatN h op rfl rfl

/-! ## The obligations -/

/-- Settles O2: the opcode of the word selects the command's arm; the arm of format N finds the operand bits 0, the arm of
format I reads the immediate back. -/
theorem decodeOfEncodeIsTheCommand : Obligations.DecodeOfEncodeIsTheCommand := by
  intro i wellFormed
  cases i
  case ftGet imm | ndGet imm | pqGet imm | slGet imm | ctGet imm =>
    have fits : imm < immBound := of_decide_eq_true wellFormed
    simp only [decode, opcodeField_encode, operandField_encode, Instr.opcode, Instr.operand, BitVec.reduceToNat, formatI,
      ofNat24_toNat fits]
  all_goals decide

/-- Settles O3: the word has the fields of the command it decodes to, so it is the command's word. -/
theorem encodeOfDecodeIsTheWord : Obligations.EncodeOfDecodeIsTheWord := by
  intro w i h
  obtain ⟨opcode, operand, wellFormed⟩ := hasFieldsOf_of_decode h
  exact ⟨wellFormed, word_ext ((opcodeField_encode i).trans opcode.symm) ((operandField_encode i).trans operand.symm)⟩

/-- Settles O1, word by word. -/
theorem specWordsDecode : Obligations.SpecWordsDecode := by
  unfold Obligations.SpecWordsDecode
  decide

end Sys2Proof
end

section
/-! PROOFS. What a step does with each host transaction (20_memory.md R80 to R84): a command word runs its command, a read
returns the register or the element its address names, a buffer write reaches the one element it names, and no access
touches the record of the last command. -/

namespace Sys2Proof.Machine

open Sys2Proof

set_option autoImplicit false

/-! ## One equation per transaction -/

theorem step_command {s : State} {w : Word} {rest : List Transaction} {i : Instr} (h : s.pending = .cmd w :: rest)
    (hw : decode w = .command i) : step s = exec i { s with pending := rest } :=
  (step_cons h).trans (runCommand_command hw _)

theorem step_access {s : State} {a : Access} {rest : List Transaction} (h : s.pending = .access a :: rest) :
    step s = .next (performAccess a { s with pending := rest }) := step_cons h

/-! ## Register reads (R45, R46) -/

/-- The reserved addresses: between N_RIGHT and the capacities, and above them (R46). -/
theorem csrValue_reserved {a : BitVec 8} (s : State)
    (h : (0x15 ≤ a.toNat ∧ a.toNat ≤ 0x17) ∨ 0x1C ≤ a.toNat) : csrValue a s = 0#32 := by
  unfold csrValue
  split
  case h_26 => rfl
  all_goals omega

/-! ## Buffer accesses (R83) -/

theorem spaceId_inj {sp sp' : Space} : spaceId sp = spaceId sp' ↔ sp = sp' := by
  cases sp <;> cases sp' <;> decide

/-- Some space is the one an id names, or the id is reserved. -/
theorem spaceOfId_cases (id : BitVec 8) : (∃ sp, id = spaceId sp) ∨ spaceOfId id = none := by
  cases h : spaceOfId id with
  | none => exact .inr rfl
  | some sp => exact .inl ⟨sp, spaceOfId_eq_some.1 h⟩

section
variable (sp : Space) (k : Nat) (v : Word) (s : State)

theorem bufferValue_spaceId :
    bufferValue (spaceId sp) k s = if k < spaceSize s.caps sp then (s.element sp k).setWidth 32 else 0#32 := by
  rw [bufferValue, spaceOfId_eq_some.2 rfl]

theorem bufferWrite_spaceId :
    bufferWrite (spaceId sp) k v s =
      if sp ≠ .out ∧ k < spaceSize s.caps sp then s.store sp k (v.setWidth 8) else s := by
  rw [bufferWrite, spaceOfId_eq_some.2 rfl]

variable {id : BitVec 8} (reserved : spaceOfId id = none)
include reserved

theorem bufferValue_reserved : bufferValue id k s = 0#32 := by rw [bufferValue, reserved]

theorem bufferWrite_reserved : bufferWrite id k v s = s := by rw [bufferWrite, reserved]

end

/-- A buffer write is ignored or is one store to a space other than OUT. -/
theorem bufferWrite_cases (id : BitVec 8) (k : Nat) (v : Word) (s : State) :
    bufferWrite id k v s = s ∨
      ∃ sp, sp ≠ .out ∧ k < spaceSize s.caps sp ∧ bufferWrite id k v s = s.store sp k (v.setWidth 8) := by
  obtain ⟨sp, rfl⟩ | reserved := spaceOfId_cases id
  · rw [bufferWrite_spaceId]
    split
    · next inside => exact .inr ⟨sp, inside.1, inside.2, rfl⟩
    · exact .inl rfl
  · exact .inl (bufferWrite_reserved k v s reserved)

/-- The element a buffer write names takes the low eight bits, and every other element stays. -/
theorem element_bufferWrite (id : BitVec 8) (k : Nat) (v : Word) (s : State) (sp : Space) (j : Nat) :
    (bufferWrite id k v s).element sp j =
      if (id = spaceId sp ∧ sp ≠ .out ∧ k < spaceSize s.caps sp) ∧ j = k then v.setWidth 8 else s.element sp j := by
  obtain ⟨named, rfl⟩ | reserved := spaceOfId_cases id
  · rw [bufferWrite_spaceId]
    simp only [spaceId_inj]
    by_cases inside : named ≠ .out ∧ k < spaceSize s.caps named
    · rw [if_pos inside, State.element_store]
      refine if_congr ⟨?_, ?_⟩ rfl rfl
      · rintro ⟨rfl, rfl⟩
        exact ⟨⟨rfl, inside⟩, rfl⟩
      · rintro ⟨⟨rfl, -⟩, rfl⟩
        exact ⟨rfl, rfl⟩
    · rw [if_neg inside, if_neg]
      rintro ⟨⟨rfl, here⟩, -⟩
      exact inside here
  · rw [bufferWrite_reserved k v s reserved, if_neg]
    rintro ⟨⟨named, -⟩, -⟩
    rw [spaceOfId_eq_some.2 named] at reserved
    cases reserved

/-! ## What every access leaves alone -/

/-- `t` has the completion record, the host's list, the capacities and the OUT of `s`. -/
structure KeepsRecord (s t : State) : Prop where
  code : t.code = s.code
  err : t.err = s.err
  hit : t.hit = s.hit
  errPos : t.errPos = s.errPos
  pending : t.pending = s.pending
  caps : t.caps = s.caps
  out : t.out = s.out

theorem csrWrite_keepsRecord (a : BitVec 8) (v : Word) (s : State) : KeepsRecord s (csrWrite a v s) := by
  unfold csrWrite
  split
  case h_1 | h_3 | h_4 | h_5 => split <;> exact ⟨rfl, rfl, rfl, rfl, rfl, rfl, rfl⟩
  case h_2 | h_6 => exact ⟨rfl, rfl, rfl, rfl, rfl, rfl, rfl⟩

theorem store_keepsRecord {sp : Space} (notOut : sp ≠ .out) (k : Nat) (v : Byte) (s : State) :
    KeepsRecord s (s.store sp k v) := by
  cases sp
  case out => exact absurd rfl notOut
  all_goals exact ⟨rfl, rfl, rfl, rfl, rfl, rfl, rfl⟩

theorem bufferWrite_keepsRecord (id : BitVec 8) (k : Nat) (v : Word) (s : State) :
    KeepsRecord s (bufferWrite id k v s) := by
  obtain ignored | ⟨sp, notOut, -, stored⟩ := bufferWrite_cases id k v s
  · rw [ignored]
    exact ⟨rfl, rfl, rfl, rfl, rfl, rfl, rfl⟩
  · rw [stored]
    exact store_keepsRecord notOut k _ s

theorem performAccess_keepsRecord (a : Access) (s : State) : KeepsRecord s (performAccess a s) := by
  cases a with
  | csrRd | bufRd => exact ⟨rfl, rfl, rfl, rfl, rfl, rfl, rfl⟩
  | csrWr r v =>
    obtain ⟨code, err, hit, errPos, pending, caps, out⟩ := csrWrite_keepsRecord r v s
    exact ⟨code, err, hit, errPos, pending, caps, out⟩
  | bufWr id k v =>
    obtain ⟨code, err, hit, errPos, pending, caps, out⟩ := bufferWrite_keepsRecord id k v s
    exact ⟨code, err, hit, errPos, pending, caps, out⟩

/-- Beside the five spaces a buffer write changes nothing. -/
theorem bufferWrite_frame (id : BitVec 8) (k : Nat) (v : Word) (s : State) :
    bufferWrite id k v s = { s with
      txt := (bufferWrite id k v s).txt, bit := (bufferWrite id k v s).bit, out := (bufferWrite id k v s).out,
      kSym := (bufferWrite id k v s).kSym, kCode := (bufferWrite id k v s).kCode } := by
  obtain ignored | ⟨sp, -, -, stored⟩ := bufferWrite_cases id k v s
  · rw [ignored]
  · rw [stored]
    cases sp <;> rfl

/-! ## The obligations -/

/-- Settles O5: `withFetchWord` puts the word at the head of the list, and the step takes it off again. -/
theorem stepRunsTheDecodedCommand : Obligations.StepRunsTheDecodedCommand := by
  refine ⟨fun s w rest i h hw => step_command h hw, fun s w i hw => ?_⟩
  exact step_command (s := s.withFetchWord 32 w.toNat) (w := w) (congrArg (· :: s.pending) (by rw [tableWord_32])) hw

/-- Settles O8: the value is `csrValue` of the address, which names a register or is reserved. -/
theorem registerReadsFollowTheMap : Obligations.RegisterReadsFollowTheMap := by
  intro s a rest h
  refine ⟨csrValue a { s with pending := rest }, _, step_access h, rfl, ?status, ?_, ?_, ?_, ?_, ?_, ?_, ?_, ?_, ?_, ?_, ?_,
    ?_, ?_, ?_, ?_, ?_, ?_, ?_, ?_, ?_, ?_, ?_, ?_, ?_, csrValue_reserved _⟩
  case status =>
    rintro rfl
    obtain ⟨code, err, hit, tree, slv, zeros⟩ := State.statusWord_fields s
    exact ⟨code, err, hit, tree, slv, zeros, rfl⟩
  all_goals
    rintro rfl
    rfl

/-- Settles O11: a write is `element_bufferWrite`, a read is `bufferValue` of the space its id names. -/
theorem bufferAccessesReachOneElement : Obligations.BufferAccessesReachOneElement := by
  refine ⟨fun s id k v rest h => ?write, fun s id k rest h => ?read⟩
  case write =>
    refine ⟨_, step_access h, ?frame, fun sp j => ?element⟩
    case frame =>
      have frame := bufferWrite_frame id k v { s with pending := rest }
      rw [performAccess, frame]
    case element =>
      have stored := element_bufferWrite id k v { s with pending := rest } sp j
      refine stored.trans (if_congr (and_congr_left fun _ => ?_) rfl rfl)
      cases sp <;> simp [spaceId, spaceSize, codeMax, Config.lmax]
  case read =>
    have value (sp : Space) := bufferValue_spaceId sp k { s with pending := rest }
    have inside {sp : Space} (named : id = spaceId sp) (h : k < spaceSize s.caps sp) :
        bufferValue id k { s with pending := rest } = (s.element sp k).setWidth 32 := by
      rw [named, value, if_pos h]
      rfl
    have outside {sp : Space} (named : id = spaceId sp) (h : spaceSize s.caps sp ≤ k) :
        bufferValue id k { s with pending := rest } = 0#32 := by
      rw [named, value, if_neg (not_lt.2 h)]
    exact ⟨_, step_access h, inside (sp := .txt), inside (sp := .bit), inside (sp := .out), inside (sp := .kSym),
      inside (sp := .kCode), outside (sp := .txt), outside (sp := .bit), outside (sp := .out), outside (sp := .kSym),
      outside (sp := .kCode), fun reserved => bufferValue_reserved k _ (spaceOfId_eq_none.2 reserved)⟩

/-- Settles O12, access by access. -/
theorem accessesKeepTheCompletionRecord : Obligations.AccessesKeepTheCompletionRecord := by
  intro s a rest h
  obtain ⟨code, err, hit, errPos, pending, caps, out⟩ := performAccess_keepsRecord a { s with pending := rest }
  exact ⟨_, step_access h, code, err, hit, errPos, pending, caps, out⟩

end Sys2Proof.Machine
end

section
/-! PROOFS. What each command does, said once. A command that passes its preconditions and ends without a precondition stop
has made the update that `Updates` lists for it, and then recorded its end; a precondition stop records its end alone
(60_exceptions.md R268, R269). The frames of the commands are read off the updates. -/

namespace Sys2Proof.Machine

open Sys2Proof

set_option autoImplicit false

/-! ## The update of each command -/

/-- OUT after appending the pieces one after the other, in a state where OUT_LEN may wrap. -/
def State.emitAll (css : List (List Byte)) (s : State) : State := css.foldl (fun s cs => s.emit cs) s

/-- What a command that ends otherwise than by a precondition stop has made of `s` before the record of its end. A run-time
stop has made the update of what it had done until then. -/
def Updates (i : Instr) (s u : State) : Prop :=
  match i with
  | .nop => u = s
  | .clear => u = s.clearRegisters
  | .fcount => ∃ before ft, before <+: s.textSymbols ∧ Counts ft before ∧ ft.length ≤ s.caps.sym.toNat ∧
      ftTotal ft = before.length ∧ u = { s with ft := ft, sl := none }
  | .seglen => ∃ l, u = { s with blkLen := l }
  | .segment => 1 ≤ s.blkLen.toNat ∧ s.blkLen.toNat ≤ 256 ∧
      paddedLength s.txtLen.toNat s.blkLen.toNat ≤ s.caps.txt.toNat ∧ u = s.padText.setSymLen s.blkLen
  | .ftGet _ => ∃ e ∈ s.ft, u = { s.stageSymbol e.sym with kCnt := word e.cnt }
  | .hinit => s.symLen = 1#32 ∧ u = startTree s
  | .hstep => s.tree = .building ∧ mergeStep s = some u
  | .hbuild => s.symLen = 1#32 ∧ u = mergeWhileBuilding s.ft.length (startTree s)
  | .hcodes => (s.tree = .empty ∧ u = { s with ct := [] }) ∨
      (s.tree = .valid ∧ u = { s with ct := treeCodes s.nodes s.root.toNat })
  | .ndGet _ => ∃ tag freq sym left right,
      u = { s with nTag := tag, nFreq := freq, nSym := sym, nLeft := left, nRight := right }
  | .pqGet _ | .slGet _ => ∃ k, u = { s with kIdx := k }
  | .sfsort => u = { s with sl := some (sortedList s.ft) }
  | .sfpart => ∃ l, s.sl = some l ∧ u = { s with ct := partitionCodes (blocksOf s.ft l) }
  | .sfbuild => u = { s with sl := some (sortedList s.ft), ct := partitionCodes (blocksOf s.ft (sortedList s.ft)) }
  | .ctClear => u = { s with ct := [] }
  | .ctAdd => ∃ code, s.stagedCodeChars = codeChars code ∧ s.stagedSymbol ∉ s.ct.map CtEntry.sym ∧
      code ∉ s.ct.map CtEntry.code ∧ s.ct.length < s.caps.sym.toNat ∧
      u = { s with ct := ctInsert ⟨s.stagedSymbol, code⟩ s.ct }
  | .ctGet _ => ∃ e ∈ s.ct, u = (s.stageSymbol e.sym).stageCode e.code
  | .ctFwd => u = { s with hit := false } ∨
      ∃ e ∈ s.ct, ∃ k, u = { s.stageCode e.code with kIdx := k, hit := true }
  | .ctRev => u = { s with hit := false } ∨
      ∃ e ∈ s.ct, ∃ k, u = { s.stageSymbol e.sym with kIdx := k, hit := true }
  | .encode => ∃ code : Code, code.length ≤ s.caps.bit.toNat ∧ u = s.encoded code
  | .tdecode => ∃ cs : List Byte, cs.length ≤ s.caps.out.toNat ∧ u = s.decodedTo cs
  | .rdecode => (∃ css, u = State.emitAll css { s with outLen := 0#32 }) ∧
      ((∀ e ∈ s.ct, e.sym.length = s.symLen.toNat) →
        ∃ cs : List Byte, cs.length ≤ s.caps.out.toNat ∧ u = s.decodedTo cs)

/-- The code and position of an end that is no precondition stop: a success-class end has position 0 (R268). -/
def LaterEnd (i : Instr) (c : Completion) (pos : Nat) : Prop :=
  preconditionStop i c = false ∧ (c.isError = false → pos = 0)

/-- The command ends by a precondition stop, or after its update (R269). -/
inductive Ends (i : Instr) (s : State) : Result → Prop
  | stop (c : Completion) (pos : Nat) (pre : preconditionStop i c = true)
      (position : pos = 0 ∨ c = .badChar ∨ c = .capacity) : Ends i s (raise c pos s)
  | after (u : State) (c : Completion) (pos : Nat) (update : Updates i s u) (later : LaterEnd i c pos) :
      Ends i s (.next (u.ended c pos))

theorem Ends.of_stop {i : Instr} {s : State} {c : Completion} {pos : Nat} {r : Result} (run : r = raise c pos s)
    (pre : preconditionStop i c = true) (position : pos = 0 ∨ c = .badChar ∨ c = .capacity) : Ends i s r :=
  run ▸ .stop c pos pre position

theorem Ends.of_done {i : Instr} {s u : State} {c : Completion} {r : Result} (run : r = done c u)
    (success : c.isError = false) (update : Updates i s u) : Ends i s r := by
  have notStop : preconditionStop i c = false := by
    cases c
    case ok | noData => rfl
    all_goals cases success
  exact run ▸ .after u c 0 update ⟨notStop, fun _ => rfl⟩

/-! ## The loops of FCOUNT, ENCODE and the decoders -/

theorem fcount_ends (s : State) : Ends .fcount s (exec .fcount s) := by
  by_cases whole : s.txtLen.toNat % s.symLen.toNat = 0
  case neg => exact .of_stop (exec_fcount_badSeq whole) rfl (.inl rfl)
  obtain ⟨ft, run, counts, size, total⟩ | ⟨ft, before, k, after, split, run, counts, -, size, total⟩ :=
    countSymbols_spec s.caps.sym.toNat s.symLen.toNat s.textSymbols [] 0 [] Counts.nil (Nat.zero_le _)
  · exact .of_done (exec_fcount_done whole run) (okOrNoData_isError _)
      ⟨s.textSymbols, ft, List.prefix_rfl, counts, size, total.trans (Nat.zero_add _), rfl⟩
  · rw [exec_fcount_capacity whole run]
    exact .after _ .capacity _ ⟨before, ft, split ▸ List.prefix_append _ _, counts, size.le,
      total.trans (Nat.zero_add _), rfl⟩ ⟨rfl, nofun⟩

theorem encode_ends (s : State) : Ends .encode s (exec .encode s) := by
  by_cases whole : s.txtLen.toNat % s.symLen.toNat = 0
  case neg => exact .of_stop (exec_encode_badSeq whole) rfl (.inl rfl)
  obtain ⟨before, codes, stop, run, -, fits, ends⟩ :=
    encodeSymbols_spec s.symLen.toNat s.textSymbols 0 { s with bitLen := 0#32 } (Nat.zero_le _)
  have update : Updates .encode s (s.encoded codes.flatten) := ⟨codes.flatten, by simpa using fits, rfl⟩
  obtain ⟨rfl, -⟩ | ⟨k, after, -, ⟨rfl, -⟩ | ⟨rfl, -⟩⟩ := ends
  · exact .of_done (exec_encode_done whole run) (okOrNoData_isError _) update
  · exact exec_encode_stop whole run ▸ .after _ .noSymbol _ update ⟨rfl, nofun⟩
  · exact exec_encode_stop whole run ▸ .after _ .capacity _ update ⟨rfl, nofun⟩

/-- Either decoder's loop ends as R241 and R245 list. -/
theorem laterEnd_decoders {c : Completion} {pos : Nat}
    (h : c = .ok ∧ pos = 0 ∨ c = .incomplete ∨ c = .badChar ∨ c = .capacity) :
    LaterEnd .tdecode c pos ∧ LaterEnd .rdecode c pos := by
  obtain ⟨rfl, rfl⟩ | rfl | rfl | rfl := h
  · exact ⟨⟨rfl, fun _ => rfl⟩, rfl, fun _ => rfl⟩
  all_goals exact ⟨⟨rfl, nofun⟩, rfl, nofun⟩

/-- An emptied OUT is OUT with no character decoded to it. -/
theorem State.decodedTo_nil (s : State) : s.decodedTo [] = { s with outLen := 0#32 } := State.emit_nil _

theorem tdecode_ends (s : State) : Ends .tdecode s (exec .tdecode s) := by
  have emptied : Updates .tdecode s { s with outLen := 0#32 } := ⟨[], Nat.zero_le _, s.decodedTo_nil.symm⟩
  cases tree : s.tree with
  | none => exact .of_stop (exec_tdecode_badSeq (.inl tree)) rfl (.inl rfl)
  | building => exact .of_stop (exec_tdecode_badSeq (.inr tree)) rfl (.inl rfl)
  | empty =>
    rw [exec_tdecode_empty tree]
    exact .after _ _ 0 emptied ⟨by split <;> rfl, fun _ => rfl⟩
  | valid =>
    by_cases empty : s.bitLen = 0#32
    · exact .of_done (exec_tdecode_noData tree empty) rfl emptied
    · obtain ⟨cs, c, pos, run, fits, ends⟩ :=
        treeDecode_ends s.root.toNat s.bitChars 0 s.root.toNat 0 { s with outLen := 0#32 } (Nat.zero_le _)
      rw [exec_tdecode_nonempty tree (mt State.bitChars_eq_nil.1 empty), run]
      exact .after _ c pos ⟨cs, by simpa using fits, rfl⟩ (laterEnd_decoders ends).1

/-- In every state RDECODE's loop has appended to OUT, piece by piece. -/
theorem tableDecode_emitAll (cs : List Byte) (p : Nat) (acc : Code) (start : Nat) (s : State) :
    ∃ (css : List (List Byte)) (c : Completion) (pos : Nat),
      tableDecode cs p acc start s = .next ((State.emitAll css s).ended c pos) ∧
      (c = .ok ∧ pos = 0 ∨ c = .incomplete ∨ c = .badChar ∨ c = .capacity) := by
  induction cs generalizing p acc start s with
  | nil =>
    rw [tableDecode]
    split
    · exact ⟨[], _, _, rfl, by simp⟩
    · exact ⟨[], _, _, rfl, by simp⟩
  | cons x xs ih =>
    rw [tableDecode]
    split
    · exact ⟨[], _, _, rfl, by simp⟩
    · split
      · exact ih _ _ _ _
      · split
        · exact ⟨[], _, _, rfl, by simp⟩
        · next e _ _ =>
          obtain ⟨css, c, pos, run, ends⟩ := ih (p + 1) [] (p + 1) (s.emit e.sym)
          exact ⟨e.sym :: css, c, pos, run, ends⟩

theorem rdecode_ends (s : State) : Ends .rdecode s (exec .rdecode s) := by
  by_cases empty : s.bitLen = 0#32
  · exact .of_done (exec_rdecode_empty empty) rfl
      ⟨⟨[], rfl⟩, fun _ => ⟨[], Nat.zero_le _, s.decodedTo_nil.symm⟩⟩
  rw [exec_rdecode_nonempty (mt State.bitChars_eq_nil.1 empty)]
  by_cases lengths : ∀ e ∈ s.ct, e.sym.length = s.symLen.toNat
  · obtain ⟨cs, c, pos, run, fits, ends⟩ :=
      tableDecode_ends s.bitChars 0 [] 0 { s with outLen := 0#32 } lengths (Nat.zero_le _)
    rw [run]
    exact .after _ c pos ⟨⟨[cs], rfl⟩, fun _ => ⟨cs, by simpa using fits, rfl⟩⟩ (laterEnd_decoders ends).2
  · obtain ⟨css, c, pos, run, ends⟩ := tableDecode_emitAll s.bitChars 0 [] 0 { s with outLen := 0#32 }
    rw [run]
    exact .after _ c pos ⟨⟨css, rfl⟩, fun h => absurd h lengths⟩ (laterEnd_decoders ends).2

/-! ## The other commands -/

theorem segment_ends (s : State) : Ends .segment s (exec .segment s) := by
  by_cases range : s.blkLen.toNat = 0 ∨ 256 < s.blkLen.toNat
  · exact .of_stop (exec_segment_badOperand range) rfl (.inl rfl)
  by_cases room : s.caps.txt.toNat < paddedLength s.txtLen.toNat s.blkLen.toNat
  · exact .of_stop (exec_segment_capacity range room) rfl (.inr (.inr rfl))
  · exact .of_done (exec_segment_done range room) (okOrNoData_isError _) ⟨by omega, by omega, not_lt.1 room, rfl⟩

theorem ctAdd_ends (s : State) : Ends .ctAdd s (exec .ctAdd s) := by
  cases staged : s.stagedCode with
  | error j => exact .of_stop (exec_ctAdd_badChar staged) rfl (.inr (.inl rfl))
  | ok code =>
    by_cases known : s.stagedSymbol ∈ s.ct.map CtEntry.sym ∨ code ∈ s.ct.map CtEntry.code
    · exact .of_stop (exec_ctAdd_duplicate staged known) rfl (.inl rfl)
    · obtain ⟨newSymbol, newCode⟩ := not_or.1 known
      rw [exec_ctAdd_new staged newSymbol newCode]
      split
      · exact .of_stop rfl rfl (.inl rfl)
      · next room => exact .of_done rfl rfl ⟨code, scanBits_eq_ok.1 staged, newSymbol, newCode, not_le.1 room, rfl⟩

theorem mem_of_ctFind {p : CtEntry → Bool} {r q : Nat} {ct : List CtEntry} {e : CtEntry}
    (h : ctFind p r ct = some (q, e)) : e ∈ ct :=
  List.mem_of_getElem? (ctFind_eq_some h).2.1

theorem ctFwd_ends (s : State) : Ends .ctFwd s (exec .ctFwd s) := by
  cases found : ctForward s.stagedSymbol s.ct with
  | none => exact .of_done (exec_ctFwd_miss found) rfl (.inl rfl)
  | some entry => exact .of_done (exec_ctFwd_hit found) rfl (.inr ⟨entry.2, mem_of_ctFind found, _, rfl⟩)

theorem ctRev_ends (s : State) : Ends .ctRev s (exec .ctRev s) := by
  cases staged : s.stagedCode with
  | error j => exact .of_stop (exec_ctRev_badChar staged) rfl (.inr (.inl rfl))
  | ok code =>
    cases found : ctReverse code s.ct with
    | none => exact .of_done (exec_ctRev_miss staged found) rfl (.inl rfl)
    | some entry => exact .of_done (exec_ctRev_hit staged found) rfl (.inr ⟨entry.2, mem_of_ctFind found, _, rfl⟩)

theorem slGet_ends (imm : Nat) (s : State) : Ends (.slGet imm) s (exec (.slGet imm) s) := by
  cases hl : s.sl with
  | none => exact .of_stop (exec_slGet_badSeq hl) rfl (.inl rfl)
  | some l =>
    cases ha : l[imm]? with
    | none => exact .of_stop (exec_slGet_badOperand hl (List.getElem?_eq_none_iff.1 ha)) rfl (.inl rfl)
    | some a => exact .of_done (exec_slGet_some hl ha) rfl ⟨_, rfl⟩

/-- How each command can end. -/
theorem exec_ends (i : Instr) (s : State) : Ends i s (exec i s) := by
  cases i
  case nop => exact .of_done (exec_nop s) rfl rfl
  case clear => exact .of_done (exec_clear s) rfl rfl
  case fcount => exact fcount_ends s
  case seglen =>
    by_cases empty : s.txtLen = 0#32
    · exact .of_done (exec_seglen_empty empty) rfl ⟨_, rfl⟩
    · exact .of_done (exec_seglen_done empty) rfl ⟨_, rfl⟩
  case segment => exact segment_ends s
  case ftGet imm =>
    cases entry : s.ft[imm]? with
    | none => exact .of_stop (exec_ftGet_none entry) rfl (.inl rfl)
    | some e => exact .of_done (exec_ftGet_some entry) rfl ⟨e, List.mem_of_getElem? entry, rfl⟩
  case hinit =>
    by_cases one : s.symLen = 1#32
    · exact .of_done (exec_hinit_done one) (okOrNoData_isError _) ⟨one, rfl⟩
    · exact .of_stop (exec_hinit_badSeq one) rfl (.inl rfl)
  case hstep =>
    by_cases lacks : LacksState .hstep s
    · exact .of_stop (exec_of_lacksState lacks) rfl (.inl rfl)
    · obtain ⟨building, merges⟩ := not_or.1 lacks
      obtain ⟨u, merge⟩ := Option.ne_none_iff_exists'.1 merges
      exact .of_done (exec_hstep_done (not_not.1 building) merge) rfl ⟨not_not.1 building, merge⟩
  case hbuild =>
    by_cases one : s.symLen = 1#32
    · exact .of_done (exec_hbuild_done one) (okOrNoData_isError _) ⟨one, rfl⟩
    · exact .of_stop (exec_hbuild_badSeq one) rfl (.inl rfl)
  case hcodes =>
    cases tree : s.tree with
    | none => exact .of_stop (exec_hcodes_badSeq (.inl tree)) rfl (.inl rfl)
    | building => exact .of_stop (exec_hcodes_badSeq (.inr tree)) rfl (.inl rfl)
    | empty => exact .of_done (exec_hcodes_empty tree) rfl (.inl ⟨tree, rfl⟩)
    | valid => exact .of_done (exec_hcodes_valid tree) rfl (.inr ⟨tree, rfl⟩)
  case ndGet imm =>
    cases record : s.nodes[imm]? with
    | none => exact .of_stop (exec_ndGet_none record) rfl (.inl rfl)
    | some m =>
      cases m with
      | leaf => exact .of_done (exec_ndGet_leaf record) rfl ⟨_, _, _, _, _, rfl⟩
      | internal => exact .of_done (exec_ndGet_internal record) rfl ⟨_, _, _, _, _, rfl⟩
  case pqGet imm =>
    cases member : (popOrder s.nodes s.queue)[imm]? with
    | none => exact .of_stop (exec_pqGet_none member) rfl (.inl rfl)
    | some k => exact .of_done (exec_pqGet_some member) rfl ⟨_, rfl⟩
  case sfsort => exact .of_done (exec_sfsort s) (okOrNoData_isError _) rfl
  case sfpart =>
    cases hl : s.sl with
    | none => exact .of_stop (exec_sfpart_badSeq hl) rfl (.inl rfl)
    | some l => exact .of_done (exec_sfpart_done hl) (okOrNoData_isError _) ⟨l, hl, rfl⟩
  case sfbuild => exact .of_done (exec_sfbuild s) (okOrNoData_isError _) rfl
  case slGet imm => exact slGet_ends imm s
  case ctClear => exact .of_done (exec_ctClear s) rfl rfl
  case ctAdd => exact ctAdd_ends s
  case ctGet imm =>
    cases entry : s.ct[imm]? with
    | none => exact .of_stop (exec_ctGet_none entry) rfl (.inl rfl)
    | some e => exact .of_done (exec_ctGet_some entry) rfl ⟨e, List.mem_of_getElem? entry, rfl⟩
  case ctFwd => exact ctFwd_ends s
  case ctRev => exact ctRev_ends s
  case encode => exact encode_ends s
  case tdecode => exact tdecode_ends s
  case rdecode => exact rdecode_ends s

/-- A command's next state is that of a precondition stop, or of its update with the record of its end. -/
theorem exec_inversion {i : Instr} {s t : State} (h : exec i s = .next t) :
    (∃ c pos, t = s.ended c pos ∧ preconditionStop i c = true ∧ (pos = 0 ∨ c = .badChar ∨ c = .capacity)) ∨
      ∃ u c pos, t = u.ended c pos ∧ Updates i s u ∧ LaterEnd i c pos := by
  have ends := exec_ends i s
  rw [h] at ends
  generalize answer : Host.Outcome.next t = r at ends
  cases ends with
  | stop c pos pre position => exact .inl ⟨c, pos, Host.Outcome.next.inj answer, pre, position⟩
  | after u c pos update later => exact .inr ⟨u, c, pos, Host.Outcome.next.inj answer, update, later⟩

theorem exec_next (i : Instr) (s : State) : ∃ t, exec i s = .next t := by
  have ends := exec_ends i s
  generalize exec i s = r at ends
  cases ends with
  | stop c pos => exact ⟨_, rfl⟩
  | after u c pos => exact ⟨_, rfl⟩

end Sys2Proof.Machine
end

section
/-! PROOFS. What holds of every command and of every step, read off the two ways a command ends (60_exceptions.md R268, R269):
the record of the end, the frame over registers and structures, and the canonical form of the memories. -/

namespace Sys2Proof.Machine

open Sys2Proof

set_option autoImplicit false

/-! ## The frame of an update -/

theorem State.emitAll_frame (css : List (List Byte)) (s : State) :
    ∃ out outLen, State.emitAll css s = { s with out := out, outLen := outLen } := by
  induction css generalizing s with
  | nil => exact ⟨_, _, rfl⟩
  | cons cs css ih =>
    obtain ⟨out, outLen, frame⟩ := ih (s.emit cs)
    rw [State.emit_eq] at frame
    exact ⟨out, outLen, (congrArg (State.emitAll css) (State.emit_eq cs s)).trans frame⟩

theorem Updates.frame {i : Instr} {s u : State} (h : Updates i s u) (c : Completion) (pos : Nat) :
    ChangesOnlyDestinations i s (u.ended c pos) := by
  cases i
  case nop | clear | sfsort | sfbuild | ctClear =>
    obtain rfl := h
    rfl
  case fcount =>
    obtain ⟨_, _, -, -, -, -, rfl⟩ := h
    rfl
  case seglen | pqGet | slGet =>
    obtain ⟨_, rfl⟩ := h
    rfl
  case segment =>
    obtain ⟨-, -, -, rfl⟩ := h
    rw [State.setSymLen_padText]
    rfl
  case ftGet =>
    obtain ⟨e, -, rfl⟩ := h
    rw [State.stageSymbol_eq]
    rfl
  case hinit =>
    obtain ⟨-, rfl⟩ := h
    rfl
  case hstep =>
    rw [mergeStep_frame h.2]
    rfl
  case hbuild =>
    obtain ⟨-, rfl⟩ := h
    obtain ⟨u, build, frame⟩ := mergeWhileBuilding_frame s.ft.length (startTree s)
    rw [build, frame]
    rfl
  case hcodes =>
    obtain ⟨-, rfl⟩ | ⟨-, rfl⟩ := h
    · rfl
    · rfl
  case ndGet =>
    obtain ⟨_, _, _, _, _, rfl⟩ := h
    rfl
  case sfpart =>
    obtain ⟨l, -, rfl⟩ := h
    rfl
  case ctAdd =>
    obtain ⟨_, -, -, -, -, rfl⟩ := h
    rfl
  case ctGet =>
    obtain ⟨e, -, rfl⟩ := h
    rw [State.stageCode_eq, State.stageSymbol_eq]
    rfl
  case ctFwd =>
    obtain rfl | ⟨e, -, k, rfl⟩ := h
    · rfl
    · rw [State.stageCode_eq]
      rfl
  case ctRev =>
    obtain rfl | ⟨e, -, k, rfl⟩ := h
    · rfl
    · rw [State.stageSymbol_eq]
      rfl
  case encode =>
    obtain ⟨code, -, rfl⟩ := h
    rw [State.encoded_eq]
    rfl
  case tdecode =>
    obtain ⟨cs, -, rfl⟩ := h
    rw [State.decodedTo_eq]
    rfl
  case rdecode =>
    obtain ⟨⟨css, rfl⟩, -⟩ := h
    obtain ⟨out, outLen, frame⟩ := State.emitAll_frame css { s with outLen := 0#32 }
    rw [frame]
    rfl

theorem ChangesOnlyDestinations.of_stop (i : Instr) (s : State) (c : Completion) (pos : Nat) :
    ChangesOnlyDestinations i s (s.ended c pos) := by
  cases i <;> rfl

theorem exec_frame {i : Instr} {s t : State} (h : exec i s = .next t) : ChangesOnlyDestinations i s t := by
  obtain ⟨c, pos, rfl, -, -⟩ | ⟨u, c, pos, rfl, update, -⟩ := exec_inversion h
  · exact .of_stop i s c pos
  · exact update.frame c pos

/-- No command lists the capacities as a destination. -/
theorem ChangesOnlyDestinations.caps {i : Instr} {s t : State} (h : ChangesOnlyDestinations i s t) : t.caps = s.caps := by
  cases i <;> exact (congrArg State.caps (show t = _ from h)).trans rfl

/-! ## The commands that store nothing (R70) -/

/-- The sixteen commands that store to no buffer space. -/
def StoresNothing : Instr → Prop
  | .segment | .ftGet _ | .ctGet _ | .ctFwd | .ctRev | .encode | .tdecode | .rdecode => False
  | _ => True

theorem Updates.memory {i : Instr} {s u : State} (h : Updates i s u) (nothing : StoresNothing i) :
    (∀ sp, u.memory sp = s.memory sp) ∧ u.resets = s.resets := by
  have frame := h.frame .ok 0
  cases i
  case segment | ftGet | ctGet | ctFwd | ctRev | encode | tdecode | rdecode => exact nothing.elim
  all_goals
    change u.ended .ok 0 = _ at frame
    refine ⟨fun sp => ?_, (congrArg State.resets frame).trans rfl⟩
    rw [← State.memory_ended u .ok 0, frame]
    cases sp <;> rfl

/-! ## The canonical form of the memories (log entry 3) -/

theorem MemoriesCanonical.storeAll {s : State} (h : MemoriesCanonical s) (sp : Space) (k : Nat) (vs : List Byte) :
    MemoriesCanonical (State.storeAll sp k vs s) := by
  intro sp'
  rw [State.memory_storeAll]
  split
  · exact Memory.writeAll_wf (h sp)
  · exact h sp'

theorem MemoriesCanonical.emitAll {s : State} (h : MemoriesCanonical s) (css : List (List Byte)) :
    MemoriesCanonical (State.emitAll css s) := by
  induction css generalizing s with
  | nil => exact h
  | cons cs css ih => exact ih (s := s.emit cs) (h.storeAll .out _ cs)

theorem MemoriesCanonical.of_memory {s t : State} (h : MemoriesCanonical s) (eq : ∀ sp, t.memory sp = s.memory sp) :
    MemoriesCanonical t := fun sp => eq sp ▸ h sp

/-- A command stores only by `storeAll`, which keeps the form. -/
theorem Updates.canonical {i : Instr} {s u : State} (h : Updates i s u) (canonical : MemoriesCanonical s) :
    MemoriesCanonical u := by
  cases i
  case segment =>
    obtain ⟨-, -, -, rfl⟩ := h
    exact canonical.storeAll .txt _ _
  case ftGet =>
    obtain ⟨e, -, rfl⟩ := h
    exact canonical.storeAll .kSym 0 e.sym
  case ctGet =>
    obtain ⟨e, -, rfl⟩ := h
    exact (canonical.storeAll .kSym 0 e.sym).storeAll .kCode 0 _
  case ctFwd =>
    obtain rfl | ⟨e, -, k, rfl⟩ := h
    · exact canonical
    · exact canonical.storeAll .kCode 0 _
  case ctRev =>
    obtain rfl | ⟨e, -, k, rfl⟩ := h
    · exact canonical
    · exact canonical.storeAll .kSym 0 e.sym
  case encode =>
    obtain ⟨code, -, rfl⟩ := h
    exact MemoriesCanonical.storeAll (s := { s with bitLen := 0#32 }) canonical .bit _ _
  case tdecode =>
    obtain ⟨cs, -, rfl⟩ := h
    exact MemoriesCanonical.storeAll (s := { s with outLen := 0#32 }) canonical .out _ cs
  case rdecode =>
    obtain ⟨⟨css, rfl⟩, -⟩ := h
    exact MemoriesCanonical.emitAll (s := { s with outLen := 0#32 }) canonical css
  all_goals exact canonical.of_memory (h.memory trivial).1

/-! ## The elements a command leaves alone -/

/-- An entry's code fits its length register. -/
theorem Invariant.word_code_length {s : State} (inv : Invariant s) {e : CtEntry} (he : e ∈ s.ct) :
    (word e.code.length).toNat = e.code.length := by
  have fits : e.code.length ≤ s.caps.sym.toNat - 1 := inv.ct.codeLength e he
  exact word_toNat (by have := s.caps.sym.isLt; omega)

theorem State.element_decodedTo {s : State} {cs : List Byte} (fits : cs.length ≤ s.caps.out.toNat) {sp : Space} {k : Nat}
    (outside : ¬ (sp = .out ∧ k < (s.decodedTo cs).outLen.toNat)) : (s.decodedTo cs).element sp k = s.element sp k := by
  rw [State.decodedTo_outLen fits] at outside
  refine (State.emit_element cs { s with outLen := 0#32 } sp k fun inside => outside ?_).trans (by cases sp <;> rfl)
  exact ⟨inside.1, by simpa using inside.2.2⟩

theorem Updates.element {i : Instr} {s u : State} (h : Updates i s u) (inv : Invariant s) {sp : Space} {k : Nat} (outside : ¬ StoresTo i s u sp k) :
    u.element sp k = s.element sp k := by
  cases i
  case segment =>
    obtain ⟨low, -, -, rfl⟩ := h
    have padded := le_paddedLength (len := s.txtLen.toNat) low
    rw [State.element_setSymLen]
    refine (State.element_eq_of_memory (by cases sp <;> rfl) rfl k).trans
      ((State.element_storeAll _ .txt sp s.txtLen.toNat k s).trans (if_neg fun inside => outside ?_))
    obtain ⟨rfl, low, high⟩ := inside
    rw [List.length_replicate] at high
    exact ⟨rfl, low, by omega⟩
  case ftGet =>
    obtain ⟨e, he, rfl⟩ := h
    refine (State.element_eq_of_memory (by cases sp <;> rfl) rfl k).trans
      (State.stageSymbol_element e.sym s sp k fun inside => outside ?_)
    rw [inv.ft.symLength e he] at inside
    exact inside
  case ctGet =>
    obtain ⟨e, he, rfl⟩ := h
    refine (State.stageCode_element e.code _ sp k fun inside => outside (.inr ?_)).trans
      (State.stageSymbol_element e.sym s sp k fun inside => outside (.inl ?_))
    · rw [State.stageCode_eq, inv.word_code_length he]
      exact inside
    · rwa [inv.ct.symLength e he] at inside
  case ctFwd =>
    obtain rfl | ⟨e, he, n, rfl⟩ := h
    · cases sp <;> rfl
    · refine (State.element_eq_of_memory (by cases sp <;> rfl) rfl k).trans
        (State.stageCode_element e.code s sp k fun inside => outside ?_)
      rw [StoresTo, State.stageCode_eq, inv.word_code_length he]
      exact inside
  case ctRev =>
    obtain rfl | ⟨e, he, n, rfl⟩ := h
    · cases sp <;> rfl
    · refine (State.element_eq_of_memory (by cases sp <;> rfl) rfl k).trans
        (State.stageSymbol_element e.sym s sp k fun inside => outside ?_)
      rw [inv.ct.symLength e he] at inside
      exact inside
  case encode =>
    obtain ⟨code, fits, rfl⟩ := h
    refine (State.appendBits_element code { s with bitLen := 0#32 } sp k fun inside => outside ?_).trans
      (by cases sp <;> rfl)
    rw [StoresTo, State.encoded_eq, word_toNat (fits.trans_lt s.caps.bit.isLt)]
    exact ⟨inside.1, by simpa using inside.2.2⟩
  case tdecode =>
    obtain ⟨cs, fits, rfl⟩ := h
    exact State.element_decodedTo fits outside
  case rdecode =>
    obtain ⟨cs, fits, rfl⟩ := h.2 inv.ct.symLength
    exact State.element_decodedTo fits outside
  all_goals
    obtain ⟨memory, resets⟩ := h.memory trivial
    exact State.element_eq_of_memory (memory sp) resets k

/-- The range a command stores to does not depend on the record of its end. -/
theorem StoresTo.of_ended {i : Instr} {s u : State} {sp : Space} {k : Nat} (c : Completion) (pos : Nat)
    (h : StoresTo i s u sp k) : StoresTo i s (u.ended c pos) sp k := by
  cases i <;> exact h

/-! ## Steps -/

/-- What every command, an access and a reset keep, a step keeps; the host's list plays no part in it. -/
theorem step_keeps {P : State → Prop} (pending : ∀ s rest, P s → P { s with pending := rest })
    (command : ∀ (i : Instr) (s t : State), P s → exec i s = .next t → P t) (ended : ∀ s c pos, P s → P (s.ended c pos))
    (access : ∀ a s, P s → P (performAccess a s)) (reset : ∀ s, P s → P (hardwareReset s)) {s t : State} (h : P s)
    (run : step s = .next t) : P t := by
  cases list : s.pending with
  | nil =>
    rw [step_nil list] at run
    exact Host.Outcome.next.inj run ▸ h
  | cons tr rest =>
    rw [step_cons list] at run
    have start := pending s rest h
    cases tr with
    | access a => exact Host.Outcome.next.inj run ▸ access a _ start
    | reset => exact Host.Outcome.next.inj run ▸ reset _ start
    | cmd w =>
      rw [perform] at run
      cases hw : decode w with
      | command i => exact command i _ t start (runCommand_command hw _ ▸ run)
      | illegal why => exact runCommand_illegal_eq_next ⟨why, hw⟩ run ▸ ended _ .illegal 0 start

theorem csrWrite_memory (a : BitVec 8) (v : Word) (s : State) (sp : Space) : (csrWrite a v s).memory sp = s.memory sp := by
  unfold csrWrite
  split
  case h_1 =>
    split
    · rfl
    · exact State.memory_setSymLen s v sp
  case h_3 | h_4 | h_5 => split <;> cases sp <;> rfl
  case h_2 | h_6 => cases sp <;> rfl

theorem performAccess_canonical {s : State} (h : MemoriesCanonical s) (a : Access) :
    MemoriesCanonical (performAccess a s) := by
  cases a with
  | csrRd | bufRd => exact h
  | csrWr r v => exact h.of_memory fun sp => csrWrite_memory r v s sp
  | bufWr id k v =>
    change MemoriesCanonical (bufferWrite id k v s)
    obtain ignored | ⟨sp, -, -, stored⟩ := bufferWrite_cases id k v s
    · exact ignored.symm ▸ h
    · exact stored.symm ▸ h.storeAll sp k [v.setWidth 8]

theorem memoriesCanonical_hardwareReset (s : State) : MemoriesCanonical (hardwareReset s) := by
  intro sp
  cases sp <;> exact List.Pairwise.nil

theorem exec_canonical {i : Instr} {s t : State} (h : MemoriesCanonical s) (run : exec i s = .next t) :
    MemoriesCanonical t := by
  obtain ⟨c, pos, rfl, -, -⟩ | ⟨u, c, pos, rfl, update, -⟩ := exec_inversion run
  · exact h.of_memory (State.memory_ended s c pos)
  · exact (update.canonical h).of_memory (State.memory_ended u c pos)

/-- Every transaction answers a next state with the capacities of the one before. -/
theorem perform_next (tr : Transaction) (s : State) : ∃ t, perform tr s = .next t ∧ t.caps = s.caps := by
  cases tr with
  | access a => exact ⟨_, rfl, (performAccess_keepsRecord a s).caps⟩
  | reset => exact ⟨_, rfl, rfl⟩
  | cmd w =>
    rw [perform]
    cases hw : decode w with
    | illegal why => exact ⟨_, runCommand_illegal hw s, rfl⟩
    | command i =>
      obtain ⟨t, run⟩ := exec_next i s
      exact ⟨t, (runCommand_command hw s).trans run, (exec_frame run).caps⟩

/-! ## The obligations -/

/-- Settles O59: every command keeps the form, and so does every store of the host's. -/
theorem canonicalMemoriesKeptByEveryStep : Obligations.CanonicalMemoriesKeptByEveryStep := fun _ _ =>
  step_keeps (fun _ _ h => h) (fun _ _ _ h run => exec_canonical h run)
    (fun s c pos h => h.of_memory (State.memory_ended s c pos)) (fun a _ h => performAccess_canonical h a)
    (fun s _ => memoriesCanonical_hardwareReset s)

/-- Settles O6: an idle step answers the state itself, any other the next state of its transaction. -/
theorem everyStepAnswersNext : Obligations.EveryStepAnswersNext := by
  intro s
  cases list : s.pending with
  | nil => exact ⟨s, step_nil list, rfl⟩
  | cons tr rest =>
    rw [step_cons list]
    exact perform_next tr { s with pending := rest }

/-- Settles O15: only an end writes the returned value, and a code without a position is a success or a stop at 0. -/
theorem everyCommandRecordsItsEnd : Obligations.EveryCommandRecordsItsEnd := by
  intro i s t run
  obtain ⟨c, pos, rfl, -, position⟩ | ⟨u, c, pos, rfl, -, later, success⟩ := exec_inversion run
  · refine ⟨State.ended_response s c pos, fun code => ?_⟩
    obtain rfl | rfl | rfl := position
    · rfl
    · exact absurd code (by simp)
    · exact absurd code (by simp)
  · refine ⟨State.ended_response u c pos, fun code => ?_⟩
    rw [State.ended_code] at code
    cases c
    case ok | noData => rw [success rfl]; rfl
    case badSeq | badOperand | duplicate => cases later
    all_goals exact absurd code (by decide)

/-- Settles O16: an end after an update is no precondition stop. -/
theorem preconditionStopsChangeNothing : Obligations.PreconditionStopsChangeNothing := by
  intro i s t run pre
  obtain ⟨c, pos, rfl, -, -⟩ | ⟨u, c, pos, rfl, -, later, -⟩ := exec_inversion run
  · exact State.ended_only s c pos
  · rw [State.ended_code, later] at pre
    cases pre

/-- Settles O17: a stop changes no destination, an update only those of its command. -/
theorem commandsChangeOnlyTheirDestinations : Obligations.CommandsChangeOnlyTheirDestinations :=
  fun _ _ _ => exec_frame

/-- Settles O18: a stop stores nothing, an update only in the range of its command. -/
theorem bufferElementsChangeOnlyWhereStored : Obligations.BufferElementsChangeOnlyWhereStored := by
  intro i s t inv run sp k outside
  obtain ⟨c, pos, rfl, -, -⟩ | ⟨u, c, pos, rfl, update, -⟩ := exec_inversion run
  · exact State.element_ended s c pos sp k
  · rw [State.element_ended]
    exact update.element inv (mt (StoresTo.of_ended c pos) outside)

end Sys2Proof.Machine
end

section
/-! PROOFS. The invariant of the block (10_state.md sections 4 to 8), part by part: what an update leaves of each part. Only a
few commands touch a part; for all others it is carried over by the frame. -/

namespace Sys2Proof.Machine

open Sys2Proof

set_option autoImplicit false

/-! ## A part depends only on its own registers -/

section
variable {s t : State}

theorem LengthsLegal.of_fields (h : LengthsLegal s) (caps : t.caps = s.caps) (symLen : t.symLen = s.symLen)
    (txtLen : t.txtLen = s.txtLen) (bitLen : t.bitLen = s.bitLen) (outLen : t.outLen = s.outLen)
    (kClen : t.kClen = s.kClen) : LengthsLegal t := by
  obtain ⟨h1, h2, h3, h4, h5, h6⟩ := h
  constructor <;> simpa only [caps, symLen, txtLen, bitLen, outLen, kClen]

theorem MemoriesInside.of_memory (h : MemoriesInside s) (caps : t.caps = s.caps)
    (memory : ∀ sp, t.memory sp = s.memory sp) : MemoriesInside t := by
  intro sp c hc
  rw [caps]
  exact h sp c (memory sp ▸ hc)

theorem FtInvariant.of_fields (h : FtInvariant s) (caps : t.caps = s.caps) (symLen : t.symLen = s.symLen)
    (ft : t.ft = s.ft) : FtInvariant t := by
  obtain ⟨h1, h2, h3, h4, h5⟩ := h
  constructor <;> simpa only [caps, symLen, ft]

theorem CtInvariant.of_fields (h : CtInvariant s) (caps : t.caps = s.caps) (symLen : t.symLen = s.symLen)
    (ct : t.ct = s.ct) : CtInvariant t := by
  obtain ⟨h1, h2, h3, h4, h5⟩ := h
  constructor <;> simpa only [caps, symLen, ct]

theorem TreeInvariant.of_fields (h : TreeInvariant s) (symLen : t.symLen = s.symLen) (tree : t.tree = s.tree)
    (nodes : t.nodes = s.nodes) (queue : t.queue = s.queue) (root : t.root = s.root) : TreeInvariant t := by
  obtain ⟨h1, h2, h3, h4, h5⟩ := h
  constructor <;> simpa only [symLen, tree, nodes, queue, root]

theorem SlInvariant.of_fields (h : SlInvariant s) (ft : t.ft = s.ft) (sl : t.sl = s.sl) : SlInvariant t := by
  rw [SlInvariant, ft, sl]
  exact h

end

/-! ## The parts of a cleared block -/

section
variable {s : State}

theorem FtInvariant.of_empty (h : s.ft = []) : FtInvariant s := by
  constructor <;> simp [h, SymbolsAscend, ftTotal]

theorem SlInvariant.of_none (h : s.sl = none) : SlInvariant s := by
  intro l hl
  rw [h] at hl
  cases hl

theorem CtInvariant.of_empty (h : s.ct = []) : CtInvariant s := by
  constructor <;> simp [h, SymbolsAscend]

theorem TreeInvariant.of_none (tree : s.tree = .none) (nodes : s.nodes = []) (queue : s.queue = []) (root : s.root = NIL) :
    TreeInvariant s := by
  constructor <;> simp [tree, nodes, queue, root]

end

theorem SlInvariant.of_sortedList {t : State} (h : t.sl = some (sortedList t.ft)) : SlInvariant t := by
  intro l hl
  obtain rfl : sortedList t.ft = l := Option.some.inj (h.symm.trans hl)
  exact sortedList_spec t.ft

/-- The registers of CLEAR and of a reset meet the invariant over any legal capacities and memories. -/
theorem invariant_clearRegisters {s : State} (caps : CapacitiesLegal s.caps) (canonical : MemoriesCanonical s)
    (inside : MemoriesInside s) : Invariant s.clearRegisters where
  caps := caps
  lengths := ⟨Nat.le_refl 1, Nat.le_of_ble_eq_true rfl, Nat.zero_le _, Nat.zero_le _, Nat.zero_le _, Nat.zero_le _⟩
  canonical := canonical.of_memory (State.memory_clearRegisters s)
  inside := inside.of_memory rfl (State.memory_clearRegisters s)
  ft := .of_empty rfl
  sl := .of_none rfl
  ct := .of_empty rfl
  tree := .of_none rfl rfl rfl rfl

theorem invariant_hardwareReset {s : State} (caps : CapacitiesLegal s.caps) : Invariant (hardwareReset s) := by
  refine invariant_clearRegisters (s := hardwareReset s) caps (memoriesCanonical_hardwareReset s) fun sp c hc => ?_
  cases sp <;> cases hc

/-- A legal write of SYMLEN, the host's or SEGMENT's, clears what it might break (R26). -/
theorem Invariant.setSymLen {s : State} (caps : CapacitiesLegal s.caps) (canonical : MemoriesCanonical s)
    (inside : MemoriesInside s) {v : Word} (lengths : LengthsLegal { s with symLen := v }) :
    Invariant (s.setSymLen v) where
  caps := caps
  lengths := lengths.of_fields rfl rfl rfl rfl rfl rfl
  canonical := canonical.of_memory (State.memory_setSymLen s v)
  inside := inside.of_memory rfl (State.memory_setSymLen s v)
  ft := .of_empty rfl
  sl := .of_none rfl
  ct := .of_empty rfl
  tree := .of_none rfl rfl rfl rfl

/-! ## The buffer spaces (R70) -/

theorem MemoriesInside.storeAll {s : State} (h : MemoriesInside s) {sp : Space} {k : Nat} {vs : List Byte}
    (fits : k + vs.length ≤ spaceSize s.caps sp) : MemoriesInside (State.storeAll sp k vs s) := by
  intro sp' c hc
  rw [State.storeAll_caps]
  rw [State.memory_storeAll] at hc
  split at hc
  · next same =>
    obtain ⟨-, high⟩ | before := Memory.mem_writeAll hc
    · exact same ▸ high.trans_le fits
    · exact same ▸ h sp c before
  · exact h sp' c hc

theorem MemoriesInside.stageCode {s : State} (h : MemoriesInside s) {code : Code} (fits : code.length ≤ codeMax s.caps) :
    MemoriesInside (s.stageCode code) :=
  (h.storeAll (sp := .kCode) (by rw [codeChars_length, Nat.zero_add]; exact fits)).of_memory rfl fun _ => rfl

section
variable {s : State} (inv : Invariant s)
include inv

theorem Invariant.stageSymbol_inside {sym : Symbol} (length : sym.length = s.symLen.toNat) :
    MemoriesInside (s.stageSymbol sym) := by
  have small : s.symLen.toNat ≤ Config.lmax := inv.lengths.symLenMax
  exact inv.inside.storeAll (by rw [length, Nat.zero_add]; exact small)

theorem Invariant.encoded_inside {code : Code} (fits : code.length ≤ s.caps.bit.toNat) :
    MemoriesInside (s.encoded code) :=
  (MemoriesInside.storeAll (s := { s with bitLen := 0#32 }) (sp := .bit) (k := 0) (vs := codeChars code) inv.inside
    (by rw [codeChars_length, Nat.zero_add]; exact fits)).of_memory rfl fun _ => rfl

theorem Invariant.decodedTo_inside {cs : List Byte} (fits : cs.length ≤ s.caps.out.toNat) :
    MemoriesInside (s.decodedTo cs) :=
  (MemoriesInside.storeAll (s := { s with outLen := 0#32 }) (sp := .out) (k := 0) (vs := cs) inv.inside
    (by rw [Nat.zero_add]; exact fits)).of_memory rfl fun _ => rfl

theorem Invariant.padText_inside (low : 1 ≤ s.blkLen.toNat)
    (fits : paddedLength s.txtLen.toNat s.blkLen.toNat ≤ s.caps.txt.toNat) : MemoriesInside s.padText := by
  have padded := le_paddedLength (len := s.txtLen.toNat) low
  have room : s.txtLen.toNat + (List.replicate (paddedLength s.txtLen.toNat s.blkLen.toNat - s.txtLen.toNat)
      charSpace).length ≤ spaceSize s.caps .txt := by
    rw [List.length_replicate, Nat.add_sub_cancel' padded]
    exact fits
  exact (inv.inside.storeAll room).of_memory rfl fun _ => rfl

theorem Updates.inside {i : Instr} {u : State} (h : Updates i s u) : MemoriesInside u := by
  have frame := h.frame .ok 0
  cases i
  case segment =>
    obtain ⟨low, -, fits, rfl⟩ := h
    exact (inv.padText_inside low fits).of_memory rfl (State.memory_setSymLen _ _)
  case ftGet =>
    obtain ⟨e, he, rfl⟩ := h
    exact (inv.stageSymbol_inside (inv.ft.symLength e he)).of_memory rfl fun _ => rfl
  case ctGet =>
    obtain ⟨e, he, rfl⟩ := h
    refine (inv.stageSymbol_inside (inv.ct.symLength e he)).stageCode ?_
    rw [State.stageSymbol_eq]
    exact inv.ct.codeLength e he
  case ctFwd =>
    obtain rfl | ⟨e, he, k, rfl⟩ := h
    · exact inv.inside
    · exact (inv.inside.stageCode (inv.ct.codeLength e he)).of_memory rfl fun _ => rfl
  case ctRev =>
    obtain rfl | ⟨e, he, k, rfl⟩ := h
    · exact inv.inside
    · exact (inv.stageSymbol_inside (inv.ct.symLength e he)).of_memory rfl fun _ => rfl
  case encode =>
    obtain ⟨code, fits, rfl⟩ := h
    exact inv.encoded_inside fits
  case tdecode =>
    obtain ⟨cs, fits, rfl⟩ := h
    exact inv.decodedTo_inside fits
  case rdecode =>
    obtain ⟨cs, fits, rfl⟩ := h.2 inv.ct.symLength
    exact inv.decodedTo_inside fits
  all_goals exact inv.inside.of_memory frame.caps (h.memory trivial).1

/-! ## The length registers (R26, R28, R42) -/

theorem Updates.lengths {i : Instr} {u : State} (h : Updates i s u) : LengthsLegal u := by
  have frame := h.frame .ok 0
  obtain ⟨low, high, txt, bit, out, kClen⟩ := inv.lengths
  cases i
  case clear =>
    obtain rfl := h
    exact (invariant_clearRegisters inv.caps inv.canonical inv.inside).lengths
  case segment =>
    obtain ⟨blkLow, blkHigh, fits, rfl⟩ := h
    have padded : s.padText.txtLen.toNat = paddedLength s.txtLen.toNat s.blkLen.toNat :=
      word_toNat (fits.trans_lt s.caps.txt.isLt)
    rw [State.setSymLen_padText]
    exact ⟨blkLow, blkHigh, padded.trans_le fits, bit, out, kClen⟩
  case ctGet =>
    obtain ⟨e, he, rfl⟩ := h
    rw [State.stageCode_eq, State.stageSymbol_eq]
    exact ⟨low, high, txt, bit, out, (inv.word_code_length he).trans_le (inv.ct.codeLength e he)⟩
  case ctFwd =>
    obtain rfl | ⟨e, he, k, rfl⟩ := h
    · exact ⟨low, high, txt, bit, out, kClen⟩
    · rw [State.stageCode_eq]
      exact ⟨low, high, txt, bit, out, (inv.word_code_length he).trans_le (inv.ct.codeLength e he)⟩
  case encode =>
    obtain ⟨code, fits, rfl⟩ := h
    rw [State.encoded_eq]
    exact ⟨low, high, txt, (word_toNat (fits.trans_lt s.caps.bit.isLt)).trans_le fits, out, kClen⟩
  case tdecode =>
    obtain ⟨cs, fits, rfl⟩ := h
    rw [State.decodedTo_eq]
    exact ⟨low, high, txt, bit, (word_toNat (fits.trans_lt s.caps.out.isLt)).trans_le fits, kClen⟩
  case rdecode =>
    obtain ⟨cs, fits, rfl⟩ := h.2 inv.ct.symLength
    rw [State.decodedTo_eq]
    exact ⟨low, high, txt, bit, (word_toNat (fits.trans_lt s.caps.out.isLt)).trans_le fits, kClen⟩
  all_goals
    change u.ended .ok 0 = _ at frame
    have field {α : Type} (f : State → α) := congrArg f frame
    exact inv.lengths.of_fields (field State.caps) (field State.symLen) (field State.txtLen)
      (field State.bitLen) (field State.outLen) (field State.kClen)

/-! ## FT and SL (R29, R33) -/

/-- A table that counts a part of the text meets the invariant of FT. -/
theorem Invariant.ft_of_counts {before : List Symbol} {ft : List FtEntry} (part : before <+: s.textSymbols)
    (counts : Counts ft before) (size : ft.length ≤ s.caps.sym.toNat) (total : ftTotal ft = before.length) :
    FtInvariant { s with ft := ft, sl := none } where
  ascend := counts.1
  symLength e he := by
    obtain ⟨k, -, hk⟩ := List.mem_map.1 (part.subset ((counts.2 e).1 he).1)
    rw [← hk]
    exact State.elements_length s .txt _ _
  positive e he := by
    obtain ⟨occurs, cnt⟩ := (counts.2 e).1 he
    rw [cnt]
    exact List.count_pos_iff.2 occurs
  size := size
  total := by
    calc ftTotal ft = before.length := total
      _ ≤ s.textSymbols.length := part.length_le
      _ = s.txtLen.toNat / s.symLen.toNat := s.textSymbols_length
      _ ≤ s.txtLen.toNat := Nat.div_le_self _ _
      _ ≤ s.caps.txt.toNat := inv.lengths.txtLen

theorem Updates.ft {i : Instr} {u : State} (h : Updates i s u) : FtInvariant u := by
  have frame := h.frame .ok 0
  cases i
  case clear =>
    obtain rfl := h
    exact .of_empty rfl
  case fcount =>
    obtain ⟨before, ft, part, counts, size, total, rfl⟩ := h
    exact inv.ft_of_counts part counts size total
  case segment =>
    obtain ⟨-, -, -, rfl⟩ := h
    exact .of_empty rfl
  all_goals
    change u.ended .ok 0 = _ at frame
    have field {α : Type} (f : State → α) := congrArg f frame
    exact inv.ft.of_fields (field State.caps) (field State.symLen) (field State.ft)

theorem Updates.sl {i : Instr} {u : State} (h : Updates i s u) : SlInvariant u := by
  have frame := h.frame .ok 0
  cases i
  case clear =>
    obtain rfl := h
    exact .of_none rfl
  case fcount =>
    obtain ⟨_, _, -, -, -, -, rfl⟩ := h
    exact .of_none rfl
  case segment =>
    obtain ⟨-, -, -, rfl⟩ := h
    exact .of_none rfl
  case sfsort | sfbuild =>
    obtain rfl := h
    exact .of_sortedList rfl
  all_goals
    change u.ended .ok 0 = _ at frame
    have field {α : Type} (f : State → α) := congrArg f frame
    exact inv.sl.of_fields (field State.ft) (field State.sl)

end

/-! ## CT (R40, R41) -/

/-- There are 256 characters, so no list of different ones is longer. -/
theorem length_le_of_nodup_bytes {l : List Byte} (h : l.Nodup) : l.length ≤ 256 := by
  have values : (l.map BitVec.toNat).Nodup := h.map fun _ _ => BitVec.eq_of_toNat_eq
  have inside : l.map BitVec.toNat ⊆ List.range 256 := by
    intro n hn
    obtain ⟨c, -, rfl⟩ := List.mem_map.1 hn
    exact List.mem_range.2 c.isLt
  simpa using (values.subperm inside).length_le

/-- Nor is a list of different symbols of one character. -/
theorem length_le_of_nodup_singles {l : List Symbol} (h : l.Nodup) (single : ∀ x ∈ l, x.length = 1) : l.length ≤ 256 := by
  have heads : (l.map (fun x => x.headD 0#8)).Nodup := by
    refine h.map_on fun x hx y hy same => ?_
    obtain ⟨c, rfl⟩ := List.length_eq_one_iff.1 (single x hx)
    obtain ⟨d, rfl⟩ := List.length_eq_one_iff.1 (single y hy)
    exact congrArg (fun c => [c]) same
  simpa using length_le_of_nodup_bytes heads

/-- The symbols of a tree's leaves are single characters. -/
theorem length_of_mem_leafSymbols {nodes : List Node} {x : Symbol} (hx : x ∈ leafSymbols nodes) : x.length = 1 := by
  obtain ⟨_, _, c, -, rfl⟩ := mem_leafSymbols.1 hx
  rfl

section
variable {n root : Nat} {nodes : List Node} (h : Forest n nodes [root]) (hroot : root < nodes.length)
include h hroot

theorem Forest.treeCodes_length_le : (treeCodes nodes root).length ≤ 256 := by
  rw [← List.length_map (f := CtEntry.sym), h.treeCodes_syms hroot]
  exact length_le_of_nodup_singles h.leafSymbols_ascend.nodup fun _ => length_of_mem_leafSymbols

/-- No code of a tree has more than 255 bits. -/
theorem Forest.treeCodes_code_length_le {e : CtEntry} (he : e ∈ treeCodes nodes root) : e.code.length ≤ 255 := by
  have size := h.treeCodes_length_le hroot
  obtain ⟨f, c, leaf⟩ | ⟨f, l, r, internal⟩ := record_cases hroot
  · rw [treeCodes_leaf leaf, List.mem_singleton] at he
    rw [he]
    exact Nat.le_of_ble_eq_true rfl
  · rw [treeCodes_internal internal] at he size
    obtain ⟨-, -, bound⟩ := h.leafPaths_spec _ root [] hroot hroot
    have := bound e ((ctOf_perm _).mem_iff.1 he)
    rw [(ctOf_perm _).length_eq] at size
    rw [List.length_nil] at this
    omega

end

/-- What a command that makes a whole table has to know of it. -/
theorem CtInvariant.of_table {s : State} {ct : List CtEntry} (ascend : SymbolsAscend (ct.map CtEntry.sym))
    (free : PrefixFree (ct.map CtEntry.code)) (symLength : ∀ x ∈ ct.map CtEntry.sym, x.length = s.symLen.toNat)
    (codeLength : ∀ e ∈ ct, e.code.length ≤ codeMax s.caps) (size : ct.length ≤ s.caps.sym.toNat) :
    CtInvariant { s with ct := ct } :=
  ⟨ascend, fun _ he => symLength _ (List.mem_map_of_mem he), free.nodup, codeLength, size⟩

/-- Over any number of blocks the codes are no longer than the greatest code of so many blocks, a lone one's included. -/
theorem partitionCodes_code_length_le {blocks : List FtEntry} {e : CtEntry} (he : e ∈ partitionCodes blocks) :
    e.code.length ≤ max 1 (blocks.length - 1) := by
  by_cases lone : blocks.length = 1
  · obtain ⟨b, rfl⟩ := List.length_eq_one_iff.1 lone
    rw [partitionCodes_lone, List.mem_singleton] at he
    rw [he]
    exact le_max_left 1 _
  · have pos : 0 < blocks.length := by
      rw [List.length_pos_iff]
      rintro rfl
      cases he
    exact le_max_of_le_right ((partitionCodes_code_length he).2 (by omega))

/-- The table of a sorted list of FT meets the invariant of CT. -/
theorem Invariant.ct_partitionCodes {s : State} (inv : Invariant s) {l : List Nat} (perm : l.Perm (List.range s.ft.length)) :
    CtInvariant { s with ct := partitionCodes (blocksOf s.ft l) } := by
  have syms := partitionCodes_blocksOf_syms inv.ft.ascend perm
  have blocks : (blocksOf s.ft l).length = s.ft.length := (blocksOf_perm perm).length_eq
  have low := inv.caps.symLow
  have size := inv.ft.size
  refine .of_table (syms ▸ inv.ft.ascend) (partitionCodes_prefixFree _) (fun x hx => ?_) (fun e he => ?_) ?_
  · rw [syms] at hx
    obtain ⟨e, he, rfl⟩ := List.mem_map.1 hx
    exact inv.ft.symLength e he
  · have := partitionCodes_code_length_le he
    rw [codeMax]
    omega
  · rw [← List.length_map (f := CtEntry.sym), syms, List.length_map]
    exact size

/-- A tree has at most 256 leaves, so the table of its root paths meets the invariant of CT. -/
theorem Invariant.ct_treeCodes {s : State} (inv : Invariant s) (valid : s.tree = .valid) :
    CtInvariant { s with ct := treeCodes s.nodes s.root.toNat } := by
  obtain ⟨hroot, n, forest⟩ := inv.tree.valid_forest valid
  have one : s.symLen.toNat = 1 := congrArg BitVec.toNat (inv.tree.overCharacters (by simp [valid]))
  have low := inv.caps.symLow
  refine .of_table (forest.treeCodes_ascend hroot) (forest.treeCodes_prefixFree hroot) (fun x hx => ?_) (fun e he => ?_)
    ((forest.treeCodes_length_le hroot).trans low)
  · rw [forest.treeCodes_syms hroot] at hx
    exact (length_of_mem_leafSymbols hx).trans one.symm
  · have := forest.treeCodes_code_length_le hroot he
    rw [codeMax]
    omega

theorem Invariant.ct_ctInsert {s : State} (inv : Invariant s) {code : Code} (staged : s.stagedCodeChars = codeChars code)
    (newSymbol : s.stagedSymbol ∉ s.ct.map CtEntry.sym) (newCode : code ∉ s.ct.map CtEntry.code)
    (room : s.ct.length < s.caps.sym.toNat) : CtInvariant { s with ct := ctInsert ⟨s.stagedSymbol, code⟩ s.ct } := by
  have perm := ctInsert_perm ⟨s.stagedSymbol, code⟩ s.ct
  have length : code.length = s.kClen.toNat := by
    rw [← codeChars_length, ← staged]
    exact State.elements_length s .kCode 0 _
  constructor
  case ascend => exact ctInsert_ascend inv.ct.ascend newSymbol
  case symLength =>
    intro e he
    obtain rfl | he := List.mem_cons.1 (perm.mem_iff.1 he)
    · exact State.elements_length s .kSym 0 _
    · exact inv.ct.symLength e he
  case codesDiffer => exact (perm.map CtEntry.code).nodup_iff.2 (List.nodup_cons.2 ⟨newCode, inv.ct.codesDiffer⟩)
  case codeLength =>
    intro e he
    obtain rfl | he := List.mem_cons.1 (perm.mem_iff.1 he)
    · exact length.trans_le inv.lengths.kClen
    · exact inv.ct.codeLength e he
  case size => exact perm.length_eq.trans_le room

theorem Updates.ct {i : Instr} {s u : State} (inv : Invariant s) (h : Updates i s u) : CtInvariant u := by
  have frame := h.frame .ok 0
  cases i
  case clear | ctClear =>
    obtain rfl := h
    exact .of_empty rfl
  case segment =>
    obtain ⟨-, -, -, rfl⟩ := h
    exact .of_empty rfl
  case hcodes =>
    obtain ⟨-, rfl⟩ | ⟨valid, rfl⟩ := h
    · exact .of_empty rfl
    · exact inv.ct_treeCodes valid
  case sfpart =>
    obtain ⟨l, hl, rfl⟩ := h
    exact inv.ct_partitionCodes (inv.sl l hl).1
  case sfbuild =>
    obtain rfl := h
    exact (inv.ct_partitionCodes (sortedList_spec s.ft).1).of_fields rfl rfl rfl
  case ctAdd =>
    obtain ⟨code, staged, newSymbol, newCode, room, rfl⟩ := h
    exact inv.ct_ctInsert staged newSymbol newCode room
  all_goals
    change u.ended .ok 0 = _ at frame
    have field {α : Type} (f : State → α) := congrArg f frame
    exact inv.ct.of_fields (field State.caps) (field State.symLen) (field State.ct)

/-! ## The tree (R30 to R32) -/

/-- HINIT's tree meets the invariant of the tree, whatever the number of entries. -/
theorem Invariant.tree_startTree {s : State} (inv : Invariant s) (one : s.symLen = 1#32) : TreeInvariant (startTree s) where
  bare tree := by
    have empty : s.ft.length = 0 := by
      by_contra some
      by_cases single : s.ft.length = 1 <;> simp [some, single] at tree
    simp [List.length_eq_zero_iff.1 empty]
  overCharacters _ := one
  forest tree := by
    have nonempty : s.ft ≠ [] := by
      intro empty
      simp [empty] at tree
    exact ⟨_, startTree_forest nonempty inv.ft.ascend (inv.ft.length_sym one) (inv.ft.total.trans_lt s.caps.txt.isLt)⟩
  building tree := by
    have several : ¬ s.ft.length = 0 ∧ ¬ s.ft.length = 1 := by
      constructor <;> intro few <;> simp [few] at tree
    rw [startTree_queue, startTree_root, List.length_range, if_neg several.2]
    exact ⟨by omega, rfl⟩
  valid tree := by
    have single : s.ft.length = 1 := by
      by_contra several
      by_cases empty : s.ft.length = 0 <;> simp [empty, several] at tree
    simp [single]

/-- What a merge of the members `a` and `b` leaves of the build: the tree is VALID once the new record is the only
member. -/
structure Merged (s : State) (a b : Nat) (u : State) : Prop where
  symLen : u.symLen = s.symLen
  nodes : u.nodes = s.nodes ++ [.internal (freqOf s.nodes a + freqOf s.nodes b) a b]
  queue : u.queue = s.queue.filter (fun j => j ≠ a ∧ j ≠ b) ++ [s.nodes.length]
  length : u.queue.length + 1 = s.queue.length
  last : u.queue = [s.nodes.length] → u.tree = .valid ∧ u.root = word s.nodes.length
  earlier : u.queue ≠ [s.nodes.length] → u.tree = s.tree ∧ u.root = s.root

theorem mergeStep_merged {s u : State} (nodup : s.queue.Nodup) (two : 2 ≤ s.queue.length) (merge : mergeStep s = some u) :
    ∃ a b, a ∈ s.queue ∧ b ∈ s.queue ∧ a ≠ b ∧ Merged s a b u := by
  obtain ⟨a, b, q, ha, hb, hab, -, -, hq, length, run⟩ := mergeStep_spec nodup two
  obtain rfl := Option.some.inj (run.symm.trans merge)
  have only : q ++ [s.nodes.length] = [s.nodes.length] ↔ q = [] := by simp
  refine ⟨a, b, ha, hb, hab, rfl, rfl, by rw [hq], ?_, fun h => ?_, fun h => ?_⟩
  · rw [List.length_append, List.length_singleton]
    exact length
  · exact ⟨if_pos (only.1 h), if_pos (only.1 h)⟩
  · exact ⟨if_neg (mt only.2 h), if_neg (mt only.2 h)⟩

theorem Merged.forest {s u : State} {n a b : Nat} (h : Merged s a b u) (forest : Forest n s.nodes s.queue)
    (ha : a ∈ s.queue) (hb : b ∈ s.queue) (hab : a ≠ b) : Forest n u.nodes u.queue := by
  rw [h.nodes, h.queue]
  exact forest.merge ha hb hab

/-- A merge keeps the invariant of the tree. -/
theorem TreeInvariant.merge {s u : State} (h : TreeInvariant s) (building : s.tree = .building)
    (merge : mergeStep s = some u) : TreeInvariant u := by
  obtain ⟨two, root⟩ := h.building building
  obtain ⟨n, forest⟩ := h.forest (.inl building)
  obtain ⟨a, b, ha, hb, hab, merged⟩ := mergeStep_merged h.queue_nodup two merge
  have forest' := merged.forest forest ha hb hab
  have one : u.symLen = 1#32 := merged.symLen.trans (h.overCharacters (by simp [building]))
  have size : u.nodes.length - 1 = s.nodes.length := by simp [merged.nodes]
  by_cases last : u.queue = [s.nodes.length]
  · obtain ⟨tree, root'⟩ := merged.last last
    exact ⟨fun other => by simp [tree] at other, fun _ => one, fun _ => ⟨n, forest'⟩,
      fun other => by simp [tree] at other, fun _ => by rw [size]; exact ⟨last, root'⟩⟩
  · obtain ⟨tree, root'⟩ := merged.earlier last
    rw [building] at tree
    have more : u.queue.length ≠ 1 := fun single => last (by
      rw [merged.queue, List.length_append, List.length_singleton, Nat.add_eq_right, List.length_eq_zero_iff] at single
      rw [merged.queue, single, List.nil_append])
    have length := merged.length
    exact ⟨fun other => by simp [tree] at other, fun _ => one, fun _ => ⟨n, forest'⟩,
      fun _ => ⟨by omega, root'.trans root⟩, fun other => by simp [tree] at other⟩

/-- What holds at the start of HBUILD's loop and is kept by every merge holds at its end. -/
theorem mergeWhileBuilding_keeps {P : State → Prop}
    (merge : ∀ s u, P s → s.tree = .building → mergeStep s = some u → P u) (n : Nat) {s : State} (h : P s) :
    P (mergeWhileBuilding n s) := by
  induction n generalizing s with
  | zero => exact h
  | succ n ih =>
    rw [mergeWhileBuilding]
    split
    · exact h
    · next building =>
      split
      · exact h
      · next u run => exact ih (merge s u h (not_not.1 building) run)

theorem Updates.tree {i : Instr} {s u : State} (inv : Invariant s) (h : Updates i s u) : TreeInvariant u := by
  have frame := h.frame .ok 0
  cases i
  case clear =>
    obtain rfl := h
    exact .of_none rfl rfl rfl rfl
  case segment =>
    obtain ⟨-, -, -, rfl⟩ := h
    exact .of_none rfl rfl rfl rfl
  case hinit =>
    obtain ⟨one, rfl⟩ := h
    exact inv.tree_startTree one
  case hstep => exact inv.tree.merge h.1 h.2
  case hbuild =>
    obtain ⟨one, rfl⟩ := h
    exact mergeWhileBuilding_keeps (fun _ _ => TreeInvariant.merge) _ (inv.tree_startTree one)
  all_goals
    change u.ended .ok 0 = _ at frame
    have field {α : Type} (f : State → α) := congrArg f frame
    exact inv.tree.of_fields (field State.symLen) (field State.tree) (field State.nodes) (field State.queue)
      (field State.root)

/-! ## The whole invariant -/

theorem Invariant.update {i : Instr} {s u : State} (inv : Invariant s) (h : Updates i s u) : Invariant u where
  caps := (h.frame .ok 0).caps.symm ▸ inv.caps
  lengths := h.lengths inv
  canonical := h.canonical inv.canonical
  inside := h.inside inv
  ft := h.ft inv
  sl := h.sl inv
  ct := h.ct inv
  tree := h.tree inv

/-- The invariant does not speak of the record of an end. -/
theorem Invariant.ended {s : State} (inv : Invariant s) (c : Completion) (pos : Nat) : Invariant (s.ended c pos) where
  caps := inv.caps
  lengths := inv.lengths.of_fields rfl rfl rfl rfl rfl rfl
  canonical := inv.canonical.of_memory (State.memory_ended s c pos)
  inside := inv.inside.of_memory rfl (State.memory_ended s c pos)
  ft := inv.ft.of_fields rfl rfl rfl
  sl := inv.sl.of_fields rfl rfl
  ct := inv.ct.of_fields rfl rfl rfl
  tree := inv.tree.of_fields rfl rfl rfl rfl rfl

theorem Invariant.exec {i : Instr} {s t : State} (inv : Invariant s) (run : exec i s = .next t) : Invariant t := by
  obtain ⟨c, pos, rfl, -, -⟩ | ⟨u, c, pos, rfl, update, -⟩ := exec_inversion run
  · exact inv.ended c pos
  · exact (inv.update update).ended c pos

/-! ## The host's accesses -/

/-- New values of registers that the invariant only bounds. -/
theorem Invariant.with_registers {s : State} (inv : Invariant s) {blkLen txtLen bitLen kClen : Word}
    {pending : List Transaction} {response : Option Word} (txt : txtLen.toNat ≤ s.caps.txt.toNat)
    (bit : bitLen.toNat ≤ s.caps.bit.toNat) (code : kClen.toNat ≤ codeMax s.caps) :
    Invariant { s with
      blkLen := blkLen, txtLen := txtLen, bitLen := bitLen, kClen := kClen, pending := pending, response := response } where
  caps := inv.caps
  lengths := ⟨inv.lengths.symLenPos, inv.lengths.symLenMax, txt, bit, inv.lengths.outLen, code⟩
  canonical := inv.canonical.of_memory fun _ => rfl
  inside := inv.inside.of_memory rfl fun _ => rfl
  ft := inv.ft.of_fields rfl rfl rfl
  sl := inv.sl.of_fields rfl rfl
  ct := inv.ct.of_fields rfl rfl rfl
  tree := inv.tree.of_fields rfl rfl rfl rfl rfl

theorem Invariant.with_host {s : State} (inv : Invariant s) (pending : List Transaction) (response : Option Word) :
    Invariant { s with pending := pending, response := response } :=
  inv.with_registers inv.lengths.txtLen inv.lengths.bitLen inv.lengths.kClen

theorem Invariant.csrWrite {s : State} (inv : Invariant s) (a : BitVec 8) (v : Word) : Invariant (csrWrite a v s) := by
  obtain ⟨low, high, txt, bit, out, code⟩ := inv.lengths
  unfold Machine.csrWrite
  split
  case h_1 =>
    split
    · exact inv
    · next legal =>
      have range : 1 ≤ v.toNat ∧ v.toNat ≤ 256 := by
        rw [Config.lmax] at legal
        omega
      exact .setSymLen inv.caps inv.canonical inv.inside ⟨range.1, range.2, txt, bit, out, code⟩
  case h_2 => exact inv.with_registers txt bit code
  case h_3 =>
    split
    · exact inv
    · next legal => exact inv.with_registers (not_lt.1 legal) bit code
  case h_4 =>
    split
    · exact inv
    · next legal => exact inv.with_registers txt (not_lt.1 legal) code
  case h_5 =>
    split
    · exact inv
    · next legal => exact inv.with_registers txt bit (not_lt.1 legal)
  case h_6 => exact inv

theorem Invariant.store {s : State} (inv : Invariant s) {sp : Space} {k : Nat} (inside : k < spaceSize s.caps sp)
    (v : Byte) : Invariant (s.store sp k v) where
  caps := (State.storeAll_caps [v] sp k s).symm ▸ inv.caps
  lengths := inv.lengths.of_fields (State.storeAll_caps [v] sp k s) (State.storeAll_symLen [v] sp k s)
    (State.storeAll_txtLen [v] sp k s) (State.storeAll_bitLen [v] sp k s) (State.storeAll_outLen [v] sp k s)
    (State.storeAll_kClen [v] sp k s)
  canonical := inv.canonical.storeAll sp k [v]
  inside := inv.inside.storeAll (vs := [v]) inside
  ft := inv.ft.of_fields (State.storeAll_caps [v] sp k s) (State.storeAll_symLen [v] sp k s) (State.storeAll_ft [v] sp k s)
  sl := inv.sl.of_fields (State.storeAll_ft [v] sp k s) (State.storeAll_sl [v] sp k s)
  ct := inv.ct.of_fields (State.storeAll_caps [v] sp k s) (State.storeAll_symLen [v] sp k s) (State.storeAll_ct [v] sp k s)
  tree := inv.tree.of_fields (State.storeAll_symLen [v] sp k s) (State.storeAll_tree [v] sp k s)
    (State.storeAll_nodes [v] sp k s) (State.storeAll_queue [v] sp k s) (State.storeAll_root [v] sp k s)

theorem Invariant.performAccess {s : State} (inv : Invariant s) (a : Access) : Invariant (performAccess a s) := by
  cases a with
  | csrRd r => exact inv.with_host s.pending _
  | bufRd id k => exact inv.with_host s.pending _
  | csrWr r v => exact (inv.csrWrite r v).with_host _ none
  | bufWr id k v =>
    refine Invariant.with_host (s := bufferWrite id k v s) ?_ _ none
    obtain ignored | ⟨sp, -, inside, stored⟩ := bufferWrite_cases id k v s
    · exact ignored.symm ▸ inv
    · exact stored.symm ▸ inv.store inside _

/-! ## The obligations -/

/-- Settles O57: the reset values are those CLEAR leaves, over the reference instance and empty memories. -/
theorem invariantAtReset : Obligations.InvariantAtReset :=
  invariant_clearRegisters (s := State.reset) ⟨by decide, by decide, by decide, by decide, by decide⟩
    (fun sp => by cases sp <;> exact List.Pairwise.nil) (fun sp c hc => by cases sp <;> cases hc)

/-- Settles O58: a command's update keeps every part, an access writes legal values inside the spaces only, and a reset
starts anew. -/
theorem invariantKeptByEveryStep : Obligations.InvariantKeptByEveryStep := fun _ _ =>
  step_keeps (fun s rest h => h.with_host rest s.response) (fun _ _ _ h run => h.exec run)
    (fun _ c pos h => h.ended c pos) (fun a _ h => h.performAccess a) (fun _ h => invariant_hardwareReset h.caps)

end Sys2Proof.Machine
end

section
/-! PROOFS. The range of SEGLEN's block length (41_frequency_segmenter.md R148): 2^H is at most the number of characters that
occur, so a SEGMENT that follows finds BLKLEN in its range. -/

namespace Sys2Proof.Machine

open Sys2Proof

set_option autoImplicit false

/-! ## The characters that occur -/

theorem charCount_ne_zero_iff {text : List Byte} {c : Nat} : charCount text c ≠ 0 ↔ ∃ x ∈ text, x.toNat = c := by
  simp [charCount]

/-- The observed characters are those of the text without repetitions. -/
theorem card_observed_le (text : List Byte) :
    ((Finset.range 256).filter (charCount text · ≠ 0)).card ≤ text.dedup.length := by
  have observed : (Finset.range 256).filter (charCount text · ≠ 0) ⊆ (text.dedup.map BitVec.toNat).toFinset := by
    intro c hc
    obtain ⟨x, hx, rfl⟩ := charCount_ne_zero_iff.1 (Finset.mem_filter.1 hc).2
    exact List.mem_toFinset.2 (List.mem_map_of_mem (List.mem_dedup.2 hx))
  calc _ ≤ (text.dedup.map BitVec.toNat).toFinset.card := Finset.card_le_card observed
    _ ≤ (text.dedup.map BitVec.toNat).length := List.toFinset_card_le _
    _ = text.dedup.length := List.length_map _

theorem floor_two_rpow_textEntropy_le_dedup {text : List Byte} (nonempty : 0 < text.length) :
    ⌊(2 : ℝ) ^ textEntropy text⌋₊ ≤ text.dedup.length :=
  (Nat.floor_le_of_le (two_rpow_entropy_le_card_observed nonempty (sum_charCount text))).trans (card_observed_le text)

/-! ## The obligation -/

/-- What SEGLEN leaves in BLKLEN is in SEGMENT's range, and on a non-empty text at most the number of characters that
occur. -/
theorem exec_seglen_blkLen {s t : State} (run : exec .seglen s = .next t) :
    1 ≤ t.blkLen.toNat ∧ t.blkLen.toNat ≤ 256 ∧ (s.txtLen ≠ 0#32 → t.blkLen.toNat ≤ s.text.dedup.length) := by
  by_cases empty : s.txtLen = 0#32
  · rw [exec_seglen_empty empty, done_eq_next] at run
    subst run
    exact ⟨Nat.le_refl 1, Nat.le_of_ble_eq_true rfl, absurd empty⟩
  · have pos := State.text_length_pos empty
    rw [exec_seglen_done empty, done_eq_next] at run
    subst run
    rw [State.ended_blkLen, word_blockLen_toNat pos]
    exact ⟨one_le_floor_two_rpow_textEntropy pos, floor_two_rpow_textEntropy_le pos,
      fun _ => floor_two_rpow_textEntropy_le_dedup pos⟩

/-- Settles O27: the bounds of 2^H, and SEGMENT's BADOPERAND is exactly BLKLEN outside 1 to 256. -/
theorem seglenRange : Obligations.SeglenRange := by
  intro s t run
  obtain ⟨low, high, distinct⟩ := exec_seglen_blkLen run
  refine ⟨low, high, fun nonempty => ⟨distinct nonempty, le_min ?_ ?_⟩, fun u segment badOperand => ?_⟩
  · exact length_le_of_nodup_bytes (List.nodup_dedup s.text)
  · exact (List.dedup_sublist s.text).length_le.trans (State.text_length s).le
  · have out : t.blkLen.toNat = 0 ∨ 256 < t.blkLen.toNat := (code_eq_badOperand_iff segment).1 badOperand
    omega

end Sys2Proof.Machine
end

section
/-! PROOFS. The tree HBUILD ends with (42_huffman.md R165). `BuildsOver ft` holds of a build over the table `ft` at every merge:
its leaves are the entries, and the frequencies in the queue sum to FT_TOTAL. When one member is left it is the root. -/

namespace Sys2Proof.Machine

open Sys2Proof

set_option autoImplicit false

/-- A build over the entries of `ft`, at any number of merges. -/
structure BuildsOver (ft : List FtEntry) (s : State) : Prop where
  forest : Forest ft.length s.nodes s.queue
  mass : (s.queue.map (freqOf s.nodes)).sum = ftTotal ft
  leaves : leafSymbols s.nodes = ft.map FtEntry.sym

/-- The frequencies of records present stay when a record is appended. -/
theorem map_freqOf_append {nodes : List Node} {q : List Nat} (m : Node) (inside : ∀ k ∈ q, k < nodes.length) :
    q.map (freqOf (nodes ++ [m])) = q.map (freqOf nodes) :=
  List.map_congr_left fun k hk => freqOf_append_left nodes m (inside k hk)

theorem leafSymbols_append_internal (nodes : List Node) (f l r : Nat) :
    leafSymbols (nodes ++ [.internal f l r]) = leafSymbols nodes := by
  simp [leafSymbols]

/-- The leaves made of entries over one character show the entries' symbols. -/
theorem leafSymbols_map_leafOf {ft : List FtEntry} (single : ∀ e ∈ ft, e.sym.length = 1) :
    leafSymbols (ft.map leafOf) = ft.map FtEntry.sym := by
  induction ft with
  | nil => rfl
  | cons e es ih =>
    obtain ⟨c, hc⟩ := List.length_eq_one_iff.1 (single e List.mem_cons_self)
    have rest := ih fun x hx => single x (List.mem_cons_of_mem e hx)
    rw [leafSymbols] at rest ⊢
    simp [leafOf_of_sym hc, hc, rest]

/-- The leaves' frequencies are the counts. -/
theorem map_freqOf_leaves (ft : List FtEntry) :
    (List.range ft.length).map (freqOf (ft.map leafOf)) = ft.map FtEntry.cnt := by
  refine List.ext_getElem (by simp) fun k hk _ => ?_
  have inside : k < ft.length := by simpa using hk
  simp [freqOf, leafOf, Node.freq, inside]

/-- A merge moves the frequencies of two members into the new one. -/
theorem BuildsOver.merge {ft : List FtEntry} {s u : State} (h : BuildsOver ft s) (two : 2 ≤ s.queue.length)
    (run : mergeStep s = some u) : BuildsOver ft u := by
  have nodup : s.queue.Nodup := h.forest.queueRising.imp Nat.ne_of_lt
  obtain ⟨a, b, ha, hb, hab, merged⟩ := mergeStep_merged nodup two run
  refine ⟨merged.forest h.forest ha hb hab, ?_, ?_⟩
  · have inside : ∀ k ∈ s.queue.filter (fun j => j ≠ a ∧ j ≠ b), k < s.nodes.length :=
      fun k hk => ((h.forest.queueRoots k).1 (List.mem_filter.1 hk).1).1
    rw [merged.queue, merged.nodes, List.map_append, map_freqOf_append _ inside, List.sum_append, List.map_singleton,
      List.sum_singleton, freqOf_append_last, Node.freq, ← Nat.add_assoc, sum_filter_two _ nodup ha hb hab, h.mass]
  · rw [merged.nodes, leafSymbols_append_internal, h.leaves]

section
variable {s : State} (inv : Invariant s) (one : s.symLen = 1#32) (nonempty : s.ft ≠ [])
include inv one nonempty

theorem startTree_buildsOver : BuildsOver s.ft (startTree s) where
  forest := startTree_forest nonempty inv.ft.ascend (inv.ft.length_sym one) (inv.ft.total.trans_lt s.caps.txt.isLt)
  mass := by
    rw [startTree_queue, startTree_nodes, map_freqOf_leaves, ftTotal]
  leaves := leafSymbols_map_leafOf (inv.ft.length_sym one)

/-- HBUILD's loop keeps a build over FT with the invariant of the tree, which says there are two members to merge. -/
theorem mergeWhileBuilding_buildsOver (n : Nat) :
    BuildsOver s.ft (mergeWhileBuilding n (startTree s)) ∧ TreeInvariant (mergeWhileBuilding n (startTree s)) :=
  mergeWhileBuilding_keeps (P := fun u => BuildsOver s.ft u ∧ TreeInvariant u)
    (fun _ _ h building run => ⟨h.1.merge (h.2.building building).1 run, h.2.merge building run⟩) n
    ⟨startTree_buildsOver inv one nonempty, inv.tree_startTree one⟩

theorem hbuild_valid : (mergeWhileBuilding s.ft.length (startTree s)).tree = .valid := by
  obtain ⟨m, size⟩ := Nat.exists_eq_succ_of_ne_zero (mt List.length_eq_zero_iff.1 nonempty)
  rw [size]
  exact (startTree_merging inv one size).hsteps.2

end

/-- Settles O33: the loop ends VALID, and there the queue is the root alone, so its frequency is the whole mass. -/
theorem hbuildGivesACompleteTree : Obligations.HbuildGivesACompleteTree := by
  intro s inv one nonempty
  obtain ⟨⟨forest, mass, leaves⟩, tree⟩ := mergeWhileBuilding_buildsOver inv one nonempty s.ft.length
  have valid := hbuild_valid inv one nonempty
  obtain ⟨queue, root⟩ := tree.valid valid
  have count := forest.count
  refine ⟨_, exec_hbuild_done one, valid, ?size, root, queue, ?mass, leaves⟩
  case size =>
    rw [queue, List.length_singleton] at count
    rw [State.ended_nodes]
    omega
  case mass =>
    rw [queue, List.map_singleton, List.sum_singleton] at mass
    exact mass

end Sys2Proof.Machine
end

section
/-! PROOFS. Codes that RDECODE never matches, the degenerate trees of TDECODE (45_decoder.md R242, R243, R246, R247), and the
round trip of any table that can be decoded (44_code_table.md R225, 70_reset_and_hazards.md R306). -/

namespace Sys2Proof.Machine

open Sys2Proof

set_option autoImplicit false

/-! ## Shadowed codes (R246, R247) -/

/-- An entry whose code is empty, or begins with another entry's code. -/
def Shadowed (ct : List CtEntry) (e : CtEntry) : Prop :=
  e.code = [] ∨ ∃ d ∈ ct, d.code ≠ [] ∧ d.code <+: e.code ∧ d.code ≠ e.code

/-- No code of the table begins the accumulator: what RDECODE keeps to between two matches. -/
def Unmatched (ct : List CtEntry) (acc : Code) : Prop := ∀ e ∈ ct, e.code ≠ [] → ¬ e.code <+: acc

theorem unmatched_nil (ct : List CtEntry) : Unmatched ct [] := fun _ _ notNil pre => notNil (List.prefix_nil.1 pre)

section
variable {ct : List CtEntry} {acc : Code} (h : Unmatched ct acc) {b : Bool}
include h

theorem Unmatched.concat (absent : acc ++ [b] ∉ ct.map CtEntry.code) : Unmatched ct (acc ++ [b]) := by
  intro e he notNil pre
  obtain same | pre := List.prefix_concat_iff.1 pre
  · exact absent (same ▸ List.mem_map_of_mem he)
  · exact h e he notNil pre

/-- The code that completes a match is not shadowed. -/
theorem Unmatched.not_shadowed {e : CtEntry} (code : e.code = acc ++ [b]) : ¬ Shadowed ct e := by
  rintro (empty | ⟨d, hd, notNil, pre, other⟩)
  · simp [code] at empty
  · rw [code] at pre other
    obtain same | pre := List.prefix_concat_iff.1 pre
    · exact other same
    · exact h d hd notNil pre

end

/-- A search finds the same entry when only entries that do not meet the test are taken out. -/
theorem ctFind_filter {p keep : CtEntry → Bool} {r q : Nat} {ct : List CtEntry} {e : CtEntry}
    (kept : ∀ x ∈ ct, p x = true → keep x = true) (h : ctFind p r ct = some (q, e)) (r' : Nat) :
    ∃ q', ctFind p r' (ct.filter keep) = some (q', e) := by
  induction ct generalizing r r' with
  | nil => cases h
  | cons x xs ih =>
    rw [ctFind] at h
    by_cases hx : p x = true
    · rw [if_pos hx] at h
      cases h
      rw [List.filter_cons_of_pos (kept _ List.mem_cons_self hx), ctFind, if_pos hx]
      exact ⟨r', rfl⟩
    · rw [if_neg hx] at h
      have later := ih (fun y hy => kept y (List.mem_cons_of_mem _ hy)) h
      by_cases hk : keep x = true
      · rw [List.filter_cons_of_pos hk, ctFind, if_neg hx]
        exact later (r' + 1)
      · rw [List.filter_cons_of_neg hk]
        exact later r'

theorem State.emit_withTable (cs : List Byte) (s : State) (ct : List CtEntry) :
    State.emit cs { s with ct := ct } = { s.emit cs with ct := ct } := by
  rw [State.emit_eq, State.emit_eq]

/-- The loop runs alike over the table without shadowed entries. -/
theorem tableDecode_filter {ct : List CtEntry} {keep : CtEntry → Bool} (shadowed : ∀ e ∈ ct, keep e = false → Shadowed ct e)
    (cs : List Byte) (p : Nat) (acc : Code) (start : Nat) (s : State) (table : s.ct = ct) (unmatched : Unmatched ct acc) :
    ∃ t, tableDecode cs p acc start s = .next t ∧
      tableDecode cs p acc start { s with ct := ct.filter keep } = .next { t with ct := ct.filter keep } := by
  induction cs generalizing p acc start s with
  | nil =>
    rw [tableDecode, tableDecode]
    split
    · exact ⟨_, rfl, rfl⟩
    · exact ⟨_, rfl, rfl⟩
  | cons x xs ih =>
    rw [tableDecode, tableDecode]
    cases bitOf x with
    | none => exact ⟨_, rfl, rfl⟩
    | some b =>
      simp only [table]
      cases found : ctReverse (acc ++ [b]) ct with
      | none =>
        have absent := ctReverse_eq_none.1 found
        have absent' : acc ++ [b] ∉ (ct.filter keep).map CtEntry.code :=
          fun member => absent (List.map_subset CtEntry.code (List.filter_subset_self ct) member)
        rw [ctReverse_eq_none.2 absent']
        exact ih (p + 1) (acc ++ [b]) start s table (unmatched.concat absent)
      | some entry =>
        obtain ⟨r, e⟩ := entry
        have kept : ∀ d ∈ ct, decide (d.code = acc ++ [b]) = true → keep d = true := by
          intro d hd code
          by_contra dropped
          exact unmatched.not_shadowed (of_decide_eq_true code) (shadowed d hd (Bool.not_eq_true _ ▸ dropped))
        obtain ⟨r', found'⟩ := ctFind_filter kept found 0
        rw [ctReverse, found']
        dsimp only
        split
        · exact ⟨_, rfl, rfl⟩
        · rw [State.emit_withTable e.sym s (ct.filter keep)]
          exact ih (p + 1) [] (p + 1) (s.emit e.sym) (by simpa using table) (unmatched_nil ct)

/-- Settles O50: between two matches no code begins the accumulator, so the entry that completes one is not shadowed, and the
lookup finds it in either table. -/
theorem shadowedCodesAreNeverMatched : Obligations.ShadowedCodesAreNeverMatched := by
  intro s t keep shadowed run
  by_cases empty : s.bitLen = 0#32
  · rw [exec_rdecode_empty empty, done_eq_next] at run
    subst run
    exact exec_rdecode_empty (s := { s with ct := s.ct.filter keep }) empty
  · have nonempty := mt State.bitChars_eq_nil.1 empty
    obtain ⟨t', run', run''⟩ :=
      tableDecode_filter shadowed s.bitChars 0 [] 0 { s with outLen := 0#32 } rfl (unmatched_nil s.ct)
    rw [exec_rdecode_nonempty nonempty] at run
    obtain rfl := Host.Outcome.next.inj (run.symm.trans run')
    exact (exec_rdecode_nonempty (s := { s with ct := s.ct.filter keep }) nonempty).trans run''

/-! ## The degenerate trees (R242, R243) -/

/-- Settles O52: TDECODE's rule with `n` paths of one '0' each and then a '1', and its end on the EMPTY tree. -/
theorem tdecodeOnDegenerateTrees : Obligations.TdecodeOnDegenerateTrees := by
  refine ⟨fun s f n x rest inv valid leaf bits fits => ?leaf, fun s tree nonempty => ?empty⟩
  case leaf =>
    obtain ⟨-, -, -, follows⟩ := tdecodeFollowsTheTree
    have paths : List.Forall₂ (EndsAtLeaf s) (List.replicate n x) (List.replicate n [false]) :=
      List.forall₂_iff_get.2 ⟨by simp, fun _ _ _ => .inl ⟨f, by simpa using leaf, by simp⟩⟩
    have length : (List.replicate n [false]).flatten.length = n := by simp
    obtain ⟨t, run, ended, frame, decoded, -⟩ := follows s (List.replicate n x) (List.replicate n [false]) []
      (0x31#8 :: rest) .incomplete n inv valid paths (by simpa using bits) (by simpa using fits)
      (.inr (.inr (.inr (.inl ⟨⟨f, x, leaf⟩, rfl, rfl, length.symm, rest, rfl⟩))))
    refine ⟨t, run, ended, decoded, ?_⟩
    rw [frame, List.length_replicate]
    exact word_toNat (fits.trans_lt s.caps.out.isLt)
  case empty =>
    have run := exec_tdecode_empty tree
    rw [if_neg nonempty] at run
    exact ⟨_, run, State.ended_Ended .incomplete 0 rfl, rfl⟩

end Sys2Proof.Machine
end

section
/-! PROOFS. The persisted table (44_code_table.md R232 to R234): the text of a table splits into its lines, and a line parses
back to its entry, when no symbol contains the line terminator or colon-space. -/

namespace Sys2Proof.Machine

open Sys2Proof

set_option autoImplicit false

/-! ## A line of the table -/

theorem lineFeed_not_mem_codeChars (code : Code) : charLineFeed ∉ codeChars code := by
  intro member
  obtain ⟨b, -, shown⟩ := List.mem_map.1 member
  cases b <;> exact absurd shown (by decide)

theorem lineFeed_not_mem_lineBody {e : CtEntry} (h : charLineFeed ∉ e.sym) : charLineFeed ∉ lineBody e := by
  simp only [lineBody, List.mem_append, List.mem_cons, not_or]
  exact ⟨h, by decide, by decide, lineFeed_not_mem_codeChars e.code⟩

theorem colonSpace_lineBody {e : CtEntry} (h : ¬ [charColon, charSpace] <:+: e.sym) :
    colonSpace 0 (lineBody e) = some e.sym.length := by
  rw [lineBody, colonSpace_after _ _ _ h, Nat.zero_add]

theorem parseLine_lineBody {e : CtEntry} (h : ¬ [charColon, charSpace] <:+: e.sym) :
    parseLine e.sym.length (lineBody e) = some (e.sym, codeChars e.code) := by
  have symbol : (lineBody e).take e.sym.length = e.sym := List.take_left' rfl
  have code : (lineBody e).drop (e.sym.length + 2) = codeChars e.code := by
    rw [← List.drop_drop, lineBody, List.drop_left' rfl]
    rfl
  simp only [parseLine, colonSpace_lineBody h, if_true, symbol, code]

theorem lineSymLen_lineBody {e : CtEntry} (h : ¬ [charColon, charSpace] <:+: e.sym) (low : 1 ≤ e.sym.length)
    (high : e.sym.length ≤ 256) : lineSymLen (lineBody e) = some e.sym.length := by
  simp only [lineSymLen, colonSpace_lineBody h]
  exact if_pos ⟨low, high⟩

/-! ## The text of the table -/

theorem splitLines_tableText {ct : List CtEntry} (h : ∀ e ∈ ct, charLineFeed ∉ e.sym) :
    splitLines [] (tableText ct) = ct.map lineBody := by
  induction ct with
  | nil => rfl
  | cons e es ih =>
    have rest := ih fun x hx => h x (List.mem_cons_of_mem e hx)
    have first := lineFeed_not_mem_lineBody (h e List.mem_cons_self)
    rw [tableText] at rest ⊢
    rw [List.flatMap_cons, List.append_assoc, List.singleton_append, splitLines_line _ _ _ first, rest, List.nil_append,
      List.map_cons]

/-- The first line that has a symbol length decides, and the first line of all has one. -/
theorem learnedSymLen_tableText {e : CtEntry} {es : List CtEntry} (lineFeed : ∀ x ∈ e :: es, charLineFeed ∉ x.sym)
    (colon : ¬ [charColon, charSpace] <:+: e.sym) (low : 1 ≤ e.sym.length) (high : e.sym.length ≤ 256) :
    learnedSymLen (tableText (e :: es)) = some e.sym.length := by
  rw [learnedSymLen, splitLines_tableText lineFeed, List.map_cons, List.findSome?_cons, lineSymLen_lineBody colon low high]

/-- Settles O60, line by line. -/
theorem persistedTableReloads : Obligations.PersistedTableReloads := by
  intro ct symLen low length lineFeed colon
  refine ⟨splitLines_tableText lineFeed, fun e he => ?parse, fun nonempty high => ?learn⟩
  case parse =>
    rw [← codeChars_eq, ← length e he]
    exact parseLine_lineBody (colon e he)
  case learn =>
    obtain ⟨e, es, rfl⟩ := List.exists_cons_of_ne_nil nonempty
    obtain rfl := length e List.mem_cons_self
    exact learnedSymLen_tableText lineFeed (colon e List.mem_cons_self) low high

end Sys2Proof.Machine
end

section
/-! PROOFS. The round trips (45_decoder.md R248, 44_code_table.md R225). ENCODE without a stop leaves the codes of the text's
symbols; over a table that can be decoded each is a first match, so RDECODE gives the symbols back, and they make the text.
The Huffman and the Shannon-Fano paths each make such a table over all symbols of the text. -/

namespace Sys2Proof.Machine

open Sys2Proof

set_option autoImplicit false

/-! ## The text and its symbols (R72) -/

theorem flatten_elements (s : State) (sp : Space) (l n : Nat) :
    ((List.range n).map (fun k => s.elements sp (k * l) l)).flatten = s.elements sp 0 (n * l) := by
  induction n with
  | zero => rw [Nat.zero_mul]; rfl
  | succ n ih =>
    rw [List.range_succ, List.map_append, List.flatten_append, ih, Nat.succ_mul, State.elements_append, Nat.zero_add]
    simp

/-- A whole number of symbols is the text. -/
theorem State.flatten_textSymbols {s : State} (whole : s.symLen.toNat ∣ s.txtLen.toNat) : s.textSymbols.flatten = s.text := by
  rw [State.text, ← Nat.div_mul_cancel whole]
  exact flatten_elements s .txt _ _

/-- With symbols of one character the symbols are the characters. -/
theorem State.textSymbols_of_one {s : State} (one : s.symLen = 1#32) : s.textSymbols = s.text.map (fun c => [c]) := by
  simp [State.textSymbols, State.textSymbol, State.text, State.elements, one]

/-- `t` has the text of `s` and the registers that cut it into symbols. -/
structure SameText (s t : State) : Prop where
  txt : t.txt = s.txt
  resets : t.resets = s.resets
  txtLen : t.txtLen = s.txtLen
  symLen : t.symLen = s.symLen
  blkLen : t.blkLen = s.blkLen
  caps : t.caps = s.caps

section
variable {s t : State} (h : SameText s t)
include h

theorem SameText.elements (k n : Nat) : t.elements .txt k n = s.elements .txt k n :=
  State.elements_eq_of_memory (show t.memory .txt = s.memory .txt from h.txt) h.resets k n

theorem SameText.text : t.text = s.text := by rw [State.text, h.elements, h.txtLen, State.text]

theorem SameText.textSymbols : t.textSymbols = s.textSymbols := by
  have each : t.textSymbol = s.textSymbol := funext fun i => by rw [State.textSymbol, h.elements, h.symLen, State.textSymbol]
  rw [State.textSymbols, each, h.txtLen, h.symLen, State.textSymbols]

end

theorem SameText.trans {s t u : State} (h : SameText s t) (h' : SameText t u) : SameText s u :=
  ⟨h'.txt.trans h.txt, h'.resets.trans h.resets, h'.txtLen.trans h.txtLen, h'.symLen.trans h.symLen,
    h'.blkLen.trans h.blkLen, h'.caps.trans h.caps⟩

/-- The commands of the two paths that follow SEGMENT leave the text. -/
theorem exec_sameText {i : Instr} (hi : i ∈ [.fcount, .hbuild, .hcodes, .sfbuild, .encode]) {s t : State}
    (run : exec i s = .next t) : SameText s t := by
  have frame := exec_frame run
  cases i
  case fcount | hbuild | hcodes | sfbuild | encode =>
    change t = _ at frame
    have field {α : Type} (f : State → α) := congrArg f frame
    exact ⟨field State.txt, field State.resets, field State.txtLen, field State.symLen, field State.blkLen,
      field State.caps⟩
  all_goals exact absurd hi (by simp)

/-! ## Runs of commands (R84) -/

theorem execAll_cons_eq_next {i : Instr} {is : List Instr} {s u : State} (h : execAll (i :: is) s = .next u) :
    ∃ t, exec i s = .next t ∧ execAll is t = .next u := by
  obtain ⟨t, run⟩ := exec_next i s
  exact ⟨t, run, execAll_cons run ▸ h⟩

theorem execAll_nil_eq_next {s u : State} (h : execAll [] s = .next u) : s = u := Host.Outcome.next.inj h

/-! ## What ENCODE leaves -/

/-- ENCODE went through the whole text: BIT holds the codes of its symbols. -/
structure Encoded (s : State) (codes : List Code) (u : State) : Prop where
  whole : s.symLen.toNat ∣ s.txtLen.toNat
  codesOf : CodesOf s.ct s.textSymbols codes
  fits : codes.flatten.length ≤ s.caps.bit.toNat
  state : u = (s.encoded codes.flatten).ended (okOrNoData s.textSymbols.isEmpty) 0

/-- ENCODE goes through the whole text, or its code says what it lacked. -/
theorem exec_encode_cases {s u : State} (run : exec .encode s = .next u) :
    (u.code = .badSeq ∧ ¬ s.symLen.toNat ∣ s.txtLen.toNat) ∨
    (u.code = .noSymbol ∧ ∃ k ∈ s.textSymbols, k ∉ s.ct.map CtEntry.sym) ∨ u.code = .capacity ∨
    ∃ codes, Encoded s codes u := by
  by_cases whole : s.txtLen.toNat % s.symLen.toNat = 0
  case neg =>
    rw [exec_encode_badSeq whole, raise_eq_next] at run
    exact .inl ⟨run ▸ rfl, mt Nat.mod_eq_zero_of_dvd whole⟩
  obtain ⟨before, codes, stop, loop, codesOf, fits, ends⟩ :=
    encodeSymbols_spec s.symLen.toNat s.textSymbols 0 { s with bitLen := 0#32 } (Nat.zero_le _)
  obtain ⟨rfl, all⟩ | ⟨k, after, split, ⟨rfl, absent⟩ | ⟨rfl, -⟩⟩ := ends
  · rw [exec_encode_done whole loop, done_eq_next] at run
    exact .inr (.inr (.inr ⟨codes, Nat.dvd_of_mod_eq_zero whole, all ▸ codesOf, by simpa using fits, run.symm⟩))
  · rw [exec_encode_stop whole loop, raise_eq_next] at run
    exact .inr (.inl ⟨run ▸ rfl, k, by simp [split], absent⟩)
  · rw [exec_encode_stop whole loop, raise_eq_next] at run
    exact .inr (.inr (.inl (run ▸ rfl)))

theorem exec_encode_success {s u : State} (run : exec .encode s = .next u) (success : u.code.isError = false) :
    ∃ codes, Encoded s codes u := by
  obtain ⟨code, -⟩ | ⟨code, -⟩ | code | encoded := exec_encode_cases run
  · rw [code] at success
    cases success
  · rw [code] at success
    cases success
  · rw [code] at success
    cases success
  · exact encoded

section
variable {s u : State} {codes : List Code} (h : Encoded s codes u)
include h

theorem Encoded.bitChars : u.bitChars = codeChars codes.flatten := (State.encoded_ended h.fits h.state).2.2.1

theorem Encoded.frame : ∃ bit, u = { s.endedAs u with bit := bit, bitLen := BitVec.ofNat 32 codes.flatten.length } :=
  ⟨_, (State.encoded_ended h.fits h.state).2.1⟩

theorem Encoded.success : u.code.isError = false := by
  rw [h.state, State.ended_code, okOrNoData_isError]

end

/-! ## Tables that can be decoded (R306) -/

section
variable {ct : List CtEntry} {syms : List Symbol} {codes : List Code} (table : Decodable ct)
  (codesOf : CodesOf ct syms codes)

include codesOf in
theorem CodesOf.mem_codes {c : Code} (hc : c ∈ codes) : ∃ e ∈ ct, e.code = c := by
  induction codesOf with
  | nil => cases hc
  | cons entry _ ih =>
    obtain rfl | later := List.mem_cons.1 hc
    · exact ⟨_, entry, rfl⟩
    · exact ih later

include table

/-- Of two codes of the table neither begins the other, so each is matched when its last bit is read. -/
theorem Decodable.matchedFirst {e : CtEntry} (he : e ∈ ct) : MatchedFirst ct e.code := by
  have symm : Std.Symm (fun c d : Code => ¬ c <+: d ∧ ¬ d <+: c) := ⟨fun _ _ h => h.symm⟩
  refine ⟨table.2 e he, fun d hd _ pre => ?_⟩
  by_contra other
  exact (List.Pairwise.forall table.1 hd (List.mem_map_of_mem he) other).1 pre

include codesOf

theorem Decodable.codes_matchedFirst : ∀ d ∈ codes, MatchedFirst ct d := by
  intro d hd
  obtain ⟨e, he, rfl⟩ := codesOf.mem_codes hd
  exact table.matchedFirst he

/-- No code is empty, so only no symbols have an empty encoding. -/
theorem Decodable.flatten_eq_nil_iff : codes.flatten = [] ↔ syms = [] := by
  cases codesOf with
  | nil => simp
  | cons entry _ => simp [table.2 _ entry]

end

/-! ## ENCODE, then RDECODE -/

section
variable {s u : State} {codes : List Code} (encoded : Encoded s codes u)
include encoded

/-- The length of the encoding is 0 for the empty text only. -/
theorem Encoded.bitLen_eq_zero_iff (nonempty : codes.flatten = [] ↔ s.textSymbols = []) :
    u.bitLen = 0#32 ↔ s.txtLen = 0#32 := by
  rw [← State.bitChars_eq_nil, encoded.bitChars, codeChars, List.map_eq_nil_iff, nonempty]
  exact ⟨fun none => by_contra fun h => State.textSymbols_ne_nil encoded.whole h none, State.textSymbols_eq_nil⟩

/-- Over a table that can be decoded RDECODE gives back what ENCODE went through. -/
theorem Encoded.exec_rdecode (inv : Invariant u) (table : Decodable s.ct) (room : s.txtLen.toNat ≤ s.caps.out.toNat) :
    ∃ t, exec .rdecode u = .next t ∧ t.decoded = s.text ∧ t.code = (if s.txtLen = 0#32 then .noData else .ok) := by
  obtain ⟨bit, frame⟩ := encoded.frame
  have field {α : Type} (f : State → α) := congrArg f frame
  have ct : u.ct = s.ct := field State.ct
  have size : s.textSymbols.length * u.symLen.toNat ≤ u.caps.out.toNat := by
    rw [show u.symLen = s.symLen from field State.symLen, show u.caps = s.caps from field State.caps,
      State.textSymbols_length, Nat.div_mul_cancel encoded.whole]
    exact room
  obtain ⟨-, emits⟩ := rdecodeEmitsTheFirstMatches
  obtain ⟨t, run, ended, -, decoded, -⟩ := emits u s.textSymbols codes [] [] (if u.bitLen = 0#32 then .noData else .ok) 0 inv
    (ct ▸ encoded.codesOf) (ct ▸ table.codes_matchedFirst encoded.codesOf) size
    (by rw [List.append_nil, List.append_nil]; exact encoded.bitChars) (.inl ⟨rfl, rfl, rfl, rfl⟩)
  refine ⟨t, run, decoded.trans (State.flatten_textSymbols encoded.whole), ?_⟩
  simp only [← encoded.bitLen_eq_zero_iff (table.flatten_eq_nil_iff encoded.codesOf)]
  exact ended.code

end

/-- Settles O54. -/
theorem encodeThenRdecodeOnAnyDecodableTable : Obligations.EncodeThenRdecodeOnAnyDecodableTable := by
  intro s u inv table run success room
  obtain ⟨codes, encoded⟩ := exec_encode_success run (by obtain h | h := success <;> rw [h] <;> rfl)
  exact encoded.exec_rdecode (inv.exec run) table room

/-! ## The Huffman path -/

theorem EndsAtLeaf.code_ne_nil {s : State} {x : Byte} {code : Code} (h : EndsAtLeaf s x code) : code ≠ [] := by
  obtain ⟨-, -, rfl⟩ | ⟨-, -, nonempty, -⟩ := h
  · exact List.cons_ne_nil _ _
  · exact nonempty

/-- The table of a tree leads from the root to the leaf of each entry's character. -/
theorem TreeInvariant.treeCodes_endsAtLeaf {s : State} (tree : TreeInvariant s) (valid : s.tree = .valid) {e : CtEntry}
    (he : e ∈ treeCodes s.nodes s.root.toNat) : ∃ c, e.sym = [c] ∧ EndsAtLeaf s c e.code := by
  obtain ⟨hroot, n, forest⟩ := tree.valid_forest valid
  obtain ⟨f, c, leaf⟩ | ⟨f, l, r, internal⟩ := record_cases hroot
  · rw [treeCodes_leaf leaf, List.mem_singleton] at he
    exact ⟨c, by rw [he], .inl ⟨f, leaf, by rw [he]⟩⟩
  · obtain ⟨k, g, c, path, leaf, sym⟩ := (forest.mem_treeCodes hroot internal e).1 he
    refine ⟨c, sym, .inr ⟨k, g, fun empty => ?_, path, leaf⟩⟩
    rw [empty, follow, Option.some.injEq] at path
    rw [← path, internal] at leaf
    cases leaf

/-- CT is the table of the tree, which is VALID, or EMPTY over the empty FT. -/
structure TreeTable (s : State) : Prop where
  built : (s.tree = .valid ∧ ∀ e ∈ s.ct, ∃ c, e.sym = [c] ∧ EndsAtLeaf s c e.code) ∨ (s.tree = .empty ∧ s.ct = [])
  syms : s.ct.map CtEntry.sym = leafSymbols s.nodes
  table : Decodable s.ct

/-- HCODES makes the table of a tree that is built. -/
theorem exec_hcodes_treeTable {s t : State} (tree : TreeInvariant s) (built : s.tree = .valid ∨ s.tree = .empty)
    (run : exec .hcodes s = .next t) : TreeTable t ∧ t.nodes = s.nodes := by
  obtain valid | empty := built
  · rw [exec_hcodes_valid valid, done_eq_next] at run
    subst run
    obtain ⟨hroot, n, forest⟩ := tree.valid_forest valid
    have paths : ∀ e ∈ treeCodes s.nodes s.root.toNat, ∃ c, e.sym = [c] ∧ EndsAtLeaf s c e.code :=
      fun _ => tree.treeCodes_endsAtLeaf valid
    refine ⟨⟨.inl ⟨valid, paths⟩, forest.treeCodes_syms hroot, forest.treeCodes_prefixFree hroot, ?_⟩, rfl⟩
    intro e he
    obtain ⟨_, -, path⟩ := paths e he
    exact path.code_ne_nil
  · obtain ⟨nodes, -, -⟩ := tree.bare (.inr empty)
    rw [exec_hcodes_empty empty, done_eq_next] at run
    subst run
    exact ⟨⟨.inr ⟨empty, rfl⟩, (congrArg leafSymbols nodes).symm, List.Pairwise.nil, List.forall_mem_nil _⟩, rfl⟩

/-- HBUILD over one character ends in a tree with a leaf for each entry. -/
theorem exec_hbuild_built {s t : State} (inv : Invariant s) (one : s.symLen = 1#32) (run : exec .hbuild s = .next t) :
    (t.tree = .valid ∨ t.tree = .empty) ∧ leafSymbols t.nodes = s.ft.map FtEntry.sym := by
  rw [exec_hbuild_done one, done_eq_next] at run
  subst run
  by_cases nonempty : s.ft = []
  · obtain ⟨empty, nodes⟩ := startTree_of_empty nonempty
    rw [mergeWhileBuilding_of_not_building (by rw [empty]; decide)]
    exact ⟨.inr empty, by rw [State.ended_nodes, nodes, nonempty]; rfl⟩
  · exact ⟨.inl (hbuild_valid inv one nonempty), (mergeWhileBuilding_buildsOver inv one nonempty _).1.leaves⟩

/-- FCOUNT over one character never runs out of room. -/
theorem exec_fcount_counts_of_one {s t : State} (inv : Invariant s) (one : s.symLen = 1#32)
    (run : exec .fcount s = .next t) : Counts t.ft s.textSymbols := by
  have whole : s.txtLen.toNat % s.symLen.toNat = 0 := by rw [one]; exact Nat.mod_one _
  have single : ∀ x ∈ s.textSymbols.dedup, x.length = 1 := by
    intro x hx
    rw [State.textSymbols_of_one one, List.mem_dedup] at hx
    obtain ⟨c, -, rfl⟩ := List.mem_map.1 hx
    rfl
  obtain ⟨ft, loop, counts, -⟩ := countSymbols_of_dedup_le (len := s.symLen.toNat)
    ((length_le_of_nodup_singles (List.nodup_dedup _) single).trans inv.caps.symLow)
  rw [exec_fcount_done whole loop, done_eq_next] at run
  exact run ▸ counts

/-- The characters of the text with their codes, as paths of the tree. -/
theorem CodesOf.endsAtLeaf {s u : State} {codes : List Code} (codesOf : CodesOf s.ct s.textSymbols codes)
    (paths : ∀ e ∈ s.ct, ∃ c, e.sym = [c] ∧ EndsAtLeaf s c e.code) (one : s.symLen = 1#32) (nodes : u.nodes = s.nodes)
    (root : u.root = s.root) : List.Forall₂ (EndsAtLeaf u) s.text codes := by
  rw [State.textSymbols_of_one one, CodesOf, List.forall₂_map_left_iff] at codesOf
  refine codesOf.imp fun x code entry => ?_
  obtain ⟨c, sym, path⟩ := paths _ entry
  obtain rfl := (List.cons.inj sym).1
  rwa [EndsAtLeaf, nodes, root]

/-- Through the table of a tree TDECODE gives back what ENCODE went through. -/
theorem Encoded.exec_tdecode {s u : State} {codes : List Code} (encoded : Encoded s codes u) (inv : Invariant u)
    (table : TreeTable s) (one : s.symLen = 1#32) (room : s.txtLen.toNat ≤ s.caps.out.toNat) :
    ∃ t, exec .tdecode u = .next t ∧ t.decoded = s.text ∧ t.code = (if s.txtLen = 0#32 then .noData else .ok) := by
  obtain ⟨bit, frame⟩ := encoded.frame
  have field {α : Type} (f : State → α) := congrArg f frame
  have zero := encoded.bitLen_eq_zero_iff (table.table.flatten_eq_nil_iff encoded.codesOf)
  obtain ⟨-, -, -, onValid⟩ := tdecodeFollowsTheTree
  simp only [← zero]
  obtain ⟨valid, paths⟩ | ⟨empty, none⟩ := table.built
  · have paths := encoded.codesOf.endsAtLeaf paths one (field State.nodes) (field State.root)
    obtain ⟨t, run, ended, -, decoded, -⟩ := onValid u s.text codes [] [] (if u.bitLen = 0#32 then .noData else .ok) 0 inv
      ((field State.tree).trans valid) paths (by rw [List.append_nil, List.append_nil]; exact encoded.bitChars)
      (by rw [State.text_length, show u.caps = s.caps from field State.caps]; exact room) (.inl ⟨rfl, rfl, rfl, rfl⟩)
    exact ⟨t, run, decoded, ended.code⟩
  · have noCode : codes = [] := List.eq_nil_iff_forall_not_mem.2 fun c hc => by
      obtain ⟨e, he, -⟩ := encoded.codesOf.mem_codes hc
      exact absurd (none ▸ he) List.not_mem_nil
    have bitLen : u.bitLen = 0#32 := State.bitChars_eq_nil.1 (encoded.bitChars.trans (by rw [noCode]; rfl))
    rw [if_pos bitLen]
    refine ⟨_, (exec_tdecode_empty ((field State.tree).trans empty)).trans (by rw [if_pos bitLen]), ?_, rfl⟩
    rw [State.text, zero.1 bitLen]
    rfl

/-- Settles O55. -/
theorem huffmanRoundTrip : Obligations.HuffmanRoundTrip := by
  intro s u d inv one decoder run room fits
  obtain ⟨s₁, fcount, run⟩ := execAll_cons_eq_next run
  obtain ⟨s₂, hbuild, run⟩ := execAll_cons_eq_next run
  obtain ⟨s₃, hcodes, run⟩ := execAll_cons_eq_next run
  obtain ⟨u, encode, run⟩ := execAll_cons_eq_next run
  obtain rfl := execAll_nil_eq_next run
  have inv₁ := inv.exec fcount
  have inv₂ := inv₁.exec hbuild
  have same₁ := exec_sameText (by simp) fcount
  have same := (same₁.trans (exec_sameText (by simp) hbuild)).trans (exec_sameText (by simp) hcodes)
  have counts := exec_fcount_counts_of_one inv one fcount
  obtain ⟨built, leaves⟩ := exec_hbuild_built inv₁ (same₁.symLen.trans one) hbuild
  obtain ⟨table, nodes⟩ := exec_hcodes_treeTable inv₂.tree built hcodes
  have whole : s₃.symLen.toNat ∣ s₃.txtLen.toNat := by rw [same.symLen, one]; exact one_dvd _
  have covers : ∀ k ∈ s₃.textSymbols, k ∈ s₃.ct.map CtEntry.sym := by
    intro k hk
    rwa [table.syms, nodes, leaves, counts.mem_syms, ← same.textSymbols]
  have invu := (inv₂.exec hcodes).exec encode
  obtain ⟨-, lacks⟩ | ⟨-, k, hk, absent⟩ | capacity | ⟨codes, encoded⟩ := exec_encode_cases encode
  · exact absurd whole lacks
  · exact absurd (covers k hk) absent
  · exact absurd capacity room
  rw [← same.text, ← same.txtLen]
  rw [← same.txtLen, ← same.caps] at fits
  obtain rfl | rfl := decoder
  · exact encoded.exec_tdecode invu table (same.symLen.trans one) fits
  · exact encoded.exec_rdecode invu table.table fits

/-! ## The Shannon-Fano path -/

/-- The table of a partition can be decoded. -/
theorem decodable_partitionCodes (blocks : List FtEntry) : Decodable (partitionCodes blocks) :=
  ⟨partitionCodes_prefixFree blocks, fun _ he => List.length_pos_iff.1 (partitionCodes_code_length he).1⟩

/-- A command after which ERR is 0 found it 0 and ended with no error. -/
theorem exec_success_of_err {i : Instr} {s t : State} (run : exec i s = .next t) (keeps : i ≠ .clear)
    (err : t.err = false) : s.err = false ∧ t.code.isError = false := by
  obtain ⟨e, kept, before⟩ := (exec_ending run).err
  rw [err, before keeps, nextErr, eq_comm, Bool.or_eq_false_iff] at kept
  exact kept

/-- The padded length is less than one block away. -/
theorem paddedLength_lt {len l : Nat} (h : 1 ≤ l) : paddedLength len l < len + l :=
  (Nat.div_mul_le_self (len + l - 1) l).trans_lt (by omega)

/-- SEGMENT without an error pads the text with spaces to the next multiple of BLKLEN. -/
theorem exec_segment_text {s t : State} (run : exec .segment s = .next t) (success : t.code.isError = false) :
    ∃ n, t.text = s.text ++ List.replicate n 0x20#8 ∧ n < t.blkLen.toNat ∧ t.blkLen.toNat ∣ s.txtLen.toNat + n ∧
      (t.txtLen = 0#32 ↔ s.txtLen = 0#32) := by
  have frame : t = _ := exec_frame run
  rw [show t.blkLen = s.blkLen from (congrArg State.blkLen frame :)]
  by_cases out : s.blkLen.toNat = 0 ∨ 256 < s.blkLen.toNat
  · rw [exec_segment_badOperand out, raise_eq_next] at run
    subst run
    cases success
  by_cases full : s.caps.txt.toNat < paddedLength s.txtLen.toNat s.blkLen.toNat
  · rw [exec_segment_capacity out full, raise_eq_next] at run
    subst run
    cases success
  rw [exec_segment_done out full, done_eq_next] at run
  have one : 1 ≤ s.blkLen.toNat := by omega
  have dvd : s.blkLen.toNat ∣ paddedLength s.txtLen.toNat s.blkLen.toNat := Nat.dvd_mul_left _ _
  have low : s.txtLen.toNat ≤ paddedLength s.txtLen.toNat s.blkLen.toNat := le_paddedLength one
  have less : paddedLength s.txtLen.toNat s.blkLen.toNat < s.txtLen.toNat + s.blkLen.toNat := paddedLength_lt one
  have small : paddedLength s.txtLen.toNat s.blkLen.toNat < 2 ^ 32 := (Nat.le_of_not_lt full).trans_lt s.caps.txt.isLt
  have text : t.text = s.padText.text := run ▸ State.elements_ended _ _ 0 .txt 0 _
  refine ⟨_, text.trans (State.text_padText rfl low small), by omega, by rwa [Nat.add_sub_cancel' low], ?_⟩
  have txtLen : t.txtLen = word (paddedLength s.txtLen.toNat s.blkLen.toNat) := run ▸ rfl
  rw [txtLen, BitVec.toNat_eq, BitVec.toNat_eq, word_toNat small, BitVec.toNat_zero]
  refine ⟨fun none => by omega, fun none => ?_⟩
  rw [none]
  exact paddedLength_zero one

/-- SFBUILD makes a table that can be decoded. -/
theorem exec_sfbuild_table {s t : State} (run : exec .sfbuild s = .next t) :
    Decodable t.ct := by
  rw [exec_sfbuild, done_eq_next] at run
  subst run
  exact decodable_partitionCodes _

/-- The path from SEGMENT on. -/
theorem shannonFano_roundTrip_of_blkLen {s u : State} (inv : Invariant s)
    (run : execAll [.segment, .fcount, .sfbuild, .encode] s = .next u) (err : u.err = false)
    (room : u.txtLen.toNat ≤ u.caps.out.toNat) :
    ∃ t n, exec .rdecode u = .next t ∧ t.decoded = s.text ++ List.replicate n 0x20#8 ∧ n < u.blkLen.toNat ∧
      u.blkLen.toNat ∣ s.txtLen.toNat + n ∧ t.code = (if s.txtLen = 0#32 then .noData else .ok) := by
  obtain ⟨s₁, segment, run⟩ := execAll_cons_eq_next run
  obtain ⟨s₂, fcount, run⟩ := execAll_cons_eq_next run
  obtain ⟨s₃, sfbuild, run⟩ := execAll_cons_eq_next run
  obtain ⟨u, encode, run⟩ := execAll_cons_eq_next run
  obtain rfl := execAll_nil_eq_next run
  obtain ⟨err₃, encodeEnds⟩ := exec_success_of_err encode (by decide) err
  obtain ⟨err₂, -⟩ := exec_success_of_err sfbuild (by decide) err₃
  obtain ⟨err₁, -⟩ := exec_success_of_err fcount (by decide) err₂
  obtain ⟨-, segmentEnds⟩ := exec_success_of_err segment (by decide) err₁
  obtain ⟨n, padded, less, dvd, empty⟩ := exec_segment_text segment segmentEnds
  have same₃ := (exec_sameText (by simp) fcount).trans (exec_sameText (by simp) sfbuild)
  have same := same₃.trans (exec_sameText (by simp) encode)
  obtain ⟨codes, encoded⟩ := exec_encode_success encode encodeEnds
  have invu := (((inv.exec segment).exec fcount).exec sfbuild).exec encode
  rw [same.txtLen, ← same₃.txtLen, same.caps, ← same₃.caps] at room
  obtain ⟨t, rdecode, decoded, code⟩ := encoded.exec_rdecode invu (exec_sfbuild_table sfbuild) room
  rw [same.blkLen]
  refine ⟨t, n, rdecode, ?_, less, dvd, ?_⟩
  · rw [decoded, same₃.text, padded]
  · rw [code, same₃.txtLen, if_congr empty rfl rfl]

/-- Settles O56. -/
theorem shannonFanoRoundTrip : Obligations.ShannonFanoRoundTrip := by
  intro s u before inv _ path run err room
  obtain rfl | rfl := path
  · obtain ⟨s₀, seglen, run⟩ := execAll_cons_eq_next run
    have frame : s₀ = _ := exec_frame seglen
    have field {α : Type} (f : State → α) := congrArg f frame
    have text : s₀.text = s.text := by
      rw [State.text, State.text, show s₀.txtLen = s.txtLen from field State.txtLen]
      exact State.elements_eq_of_memory (show s₀.memory .txt = s.memory .txt from field State.txt) (field State.resets) 0 _
    rw [← text, ← show s₀.txtLen = s.txtLen from field State.txtLen]
    exact shannonFano_roundTrip_of_blkLen (inv.exec seglen) run err room
  · exact shannonFano_roundTrip_of_blkLen inv run err room

end Sys2Proof.Machine
end
